-- ==== Sys2Proof/Word.lean ====
section
/-! DEFINITION. The word types of the block: the 8-bit byte (R60), the colour triple and the
point of a frame (R29), and the 17-bit signed position triple (R45, R46). -/

namespace Sys2Proof

/-- The unit of `IN` and of `SINK` (R60, R66): bit 0 is the least significant bit (R7). -/
abbrev Byte := BitVec 8

/-- An `(r, g, b)` triple, 8 bits each (R26). -/
structure Rgb where
  r : Byte
  g : Byte
  b : Byte
deriving DecidableEq, Repr, Inhabited

/-- The colour that blanking and an out-of-range palette index force (R28, R100). -/
def Rgb.black : Rgb := ⟨0, 0, 0⟩

/-- One point of a frame (R29): signed 16-bit coordinates in two's complement (R9) and the resolved
colour. -/
structure Point where
  x : BitVec 16
  y : BitVec 16
  z : BitVec 16
  colour : Rgb
deriving DecidableEq, Repr, Inhabited

def Point.zero : Point := ⟨0, 0, 0, Rgb.black⟩

/-- A position triple of 17-bit signed registers (`POS_BITS` of R6): it holds -32768 to +32768. -/
structure Position where
  x : BitVec 17
  y : BitVec 17
  z : BitVec 17
deriving DecidableEq, Repr, Inhabited

def Position.zero : Position := ⟨0, 0, 0⟩

end Sys2Proof
end

