-- ==== Sys2Proof/Machine/Bytes.lean ====
section
/-! DEFINITION. Byte order (R9, R65): the input is big-endian, the output little-endian. -/

namespace Sys2Proof

/-- `u16be(b0, b1)` (R9): b0 is the high byte. Read as two's complement it is `s16be(b0, b1)`. -/
def u16be (b0 b1 : Byte) : BitVec 16 := b0 ++ b1

def join3 (b0 b1 b2 : Byte) : BitVec 24 := b0 ++ b1 ++ b2

def join4 (b0 b1 b2 b3 : Byte) : BitVec 32 := b0 ++ b1 ++ b2 ++ b3

def join8 (b0 b1 b2 b3 b4 b5 b6 b7 : Byte) : BitVec 64 := b0 ++ b1 ++ b2 ++ b3 ++ b4 ++ b5 ++ b6 ++ b7

/-- The byte of `v` whose least significant bit is bit `8 * i` of `v`. -/
def byteOf {w : Nat} (v : BitVec w) (i : Nat) : Byte := v.extractLsb' (8 * i) 8

def split2 (v : BitVec 16) : List Byte := [byteOf v 1, byteOf v 0]

def split3 (v : BitVec 24) : List Byte := [byteOf v 2, byteOf v 1, byteOf v 0]

def split4 (v : BitVec 32) : List Byte := [byteOf v 3, byteOf v 2, byteOf v 1, byteOf v 0]

def split8 (v : BitVec 64) : List Byte :=
  [byteOf v 7, byteOf v 6, byteOf v 5, byteOf v 4, byteOf v 3, byteOf v 2, byteOf v 1, byteOf v 0]

/-- `le16(v)` (R9): low byte first. -/
def le16 (v : BitVec 16) : List Byte := [byteOf v 0, byteOf v 1]

/-- `le32(v)` (R9): low byte first. -/
def le32 (v : BitVec 32) : List Byte := [byteOf v 0, byteOf v 1, byteOf v 2, byteOf v 3]

/-- The number `v` as `n` bytes, most significant first. -/
def beBytes (n v : Nat) : List Byte := (List.range n).map fun i => BitVec.ofNat 8 (v / 256 ^ (n - 1 - i))

end Sys2Proof
end

