-- ==== Sys2Proof/Config.lean ====
section
/-! DEFINITION. What one instance of the block fixes (the parameters of R6) and the free values:
what the spec leaves open and no proof may see. -/

namespace Sys2Proof

/-- `FMT1_LAYOUT` (R6, R99): the record layout of format code 1. -/
inductive Fmt1Layout
  /-- The 6-byte record of R93, z = 0: the spec's decision D4. -/
  | own6
  /-- The 8-byte record of R92, z included: the original software's read. -/
  | as3d8
deriving DecidableEq, Repr

/-- `OUT_OVERFLOW` (R6, R230): what a position of +32768 is emitted as. -/
inductive OutOverflow
  /-- +32767, the spec's decision D16. -/
  | saturate
  /-- The low 16 bits, -32768. -/
  | wrap
deriving DecidableEq, Repr

/-- The parameters R6 marks OPEN or switchable that a value can be given to. A state carries them, no
step changes them, and `Params.default` holds the spec's defaults (log entry 1). -/
structure Params where
  /-- `MAGIC`: header bytes 0..3, byte 0 most significant. -/
  magic : BitVec 32
  fmt1Layout : Fmt1Layout
  outOverflow : OutOverflow
  /-- `MAX_CH`: how many channel registers there are, at most 65535. -/
  maxCh : Nat
deriving DecidableEq, Repr

/-- The defaults of R6: MAGIC 49 4C 44 41, OWN6, SATURATE, 8 channels. -/
def Params.default : Params := ⟨0x494C4441, .own6, .saturate, 8⟩

namespace Config

/-- `HDR_SIZE` (R6). -/
def hdrSize : Nat := 32

/-- `PAL_MAX` (R6). -/
def palMax : Nat := 256

/-- `DEFAULT_PALETTE_LEN` (R6). -/
def defaultPaletteLen : Nat := 64

/-- `MAX_COUNT` (R6): the points the frame buffer has room for (R29). -/
@[irreducible] def maxCount : Nat := 65535

/-- `PLACEHOLDER_LEN` (R6, R252). -/
def placeholderLen : Nat := 0

/-- The four tags of the container header (R251, GK3): "RIFF", "WAVE", "fmt ", "data". -/
def tagRiff : List Byte := [0x52, 0x49, 0x46, 0x46]
def tagWave : List Byte := [0x57, 0x41, 0x56, 0x45]
def tagFmt : List Byte := [0x66, 0x6D, 0x74, 0x20]
def tagData : List Byte := [0x64, 0x61, 0x74, 0x61]

/-- `DEFAULT_PALETTE[i]`, i in 0..63 (R27): the spec gives no entry, so nothing can be proved of
one (log entry 2). -/
opaque defaultPalette : Nat → Rgb

/-- The free values of a faulted body (U2, U3): `freeBits w n k` is the k-th w-bit value of the
n-th draw. Nothing can be proved of one (log entry 3). -/
opaque freeBits : (w n k : Nat) → BitVec w

/-- The k-th free colour of draw n: of the 8-bit values those whose number is 0, 1 or 2 modulo 6, so that the
others are free for registers beside the colours. -/
def freeRgb (n k : Nat) : Rgb := ⟨freeBits 8 n (6 * k), freeBits 8 n (6 * k + 1), freeBits 8 n (6 * k + 2)⟩

/-- The k-th free point of draw n. -/
def freePoint (n k : Nat) : Point :=
  ⟨freeBits 16 n (6 * k + 3), freeBits 16 n (6 * k + 4), freeBits 16 n (6 * k + 5), freeRgb n k⟩

end Config

end Sys2Proof
end

