-- ==== Sys2Proof/Machine/State.lean ====
section
/-! DEFINITION. The state of the block (R20) as plain data, its two stop reasons, and the state
after RESET (R320). INVENTORY.md, heading State, lists every field with its rule. -/

namespace Sys2Proof.Machine

/-- A sparse store: key and value pairs with keys strictly rising and no entry equal to the store's
default, which is what an unlisted key reads as (Machine/Store.lean gives the operations). -/
abbrev Cells (α : Type) := List (Nat × α)

/-- A byte string of length `len`, held as the cells below `len` whose byte is not 0. An address at or
above `len` does not exist (R50, R60, R66). -/
structure Memory where
  len : Nat
  cells : List Host.Cell
deriving DecidableEq, Repr

/-- `DEC_STATE` (R21). -/
inductive DecState
  | awaitHeader
  | dispatchingBody
  | exhausted
  | faulted
deriving DecidableEq, Repr

/-- `RESULT` (R30). -/
inductive PullResult
  | none
  | frame
  | palette
  | endOfStream
  | fault
deriving DecidableEq, Repr

/-- `RUN_STATE` (R44). -/
inductive RunState
  | idle
  | running
  | done
  | faulted
deriving DecidableEq, Repr

/-- `ERR_CODE` (R48, R280). -/
inductive ErrCode
  | none
  | corruptFormat
  | unexpectedEof
  | unsupportedFormat
  | invalidSignal
  | nonSeekableSink
  | badConfig
deriving DecidableEq, Repr

/-- `ERR_STAGE` (R48). -/
inductive ErrStage
  | none
  | header
  | body
  | config
  | sink
deriving DecidableEq, Repr

/-- Decoder control: `DEC_STATE`, `IN_POS`, the header latches and `RESULT` (R21, R24, R25, R30). -/
structure Decoder where
  state : DecState
  inPos : Nat
  hdrFormat : Byte
  hdrCount : BitVec 16
  hdrSrcid : Byte
  recIdx : BitVec 16
  result : PullResult
deriving DecidableEq, Repr

/-- The palette table (R26): `PAL_VALID[s]` and `PAL_LEN[s]` keyed by s, `PAL_RAM[s][i]` keyed by
256 * s + i. -/
structure PaletteTable where
  valid : Cells Bool
  len : Cells (BitVec 9)
  ram : Cells Rgb
deriving DecidableEq, Repr

/-- The frame buffer (R29): `FB_PT[i]` keyed by i. -/
structure FrameBuffer where
  srcid : Byte
  count : BitVec 16
  pt : Cells Point
deriving DecidableEq, Repr

/-- The registers of R40, held twice: as the host writes them (`CFG_FPS` and so on) and as `START`
latches them (`FPS` and so on, R43). `ch[c]` is keyed by c. -/
structure ConfigRegs where
  fps : BitVec 32
  pps : BitVec 32
  rate : BitVec 32
  nch : BitVec 16
  ch : Cells Byte
  invert : BitVec 3
deriving DecidableEq, Repr

/-- The scheduler's hidden state, carried across frames (R45). -/
structure Hidden where
  framePhase : BitVec 32
  pointPhase : BitVec 32
  last : Position
  dataLen : Nat
deriving DecidableEq, Repr

/-- The scheduler's working registers (R46). `sample[c]` is keyed by c. -/
structure Working where
  budget : BitVec 32
  locIdx : BitVec 16
  locK : BitVec 32
  subP : BitVec 32
  cur : Position
  pos : Position
  repN : BitVec 32
  sample : Cells (BitVec 16)
deriving DecidableEq, Repr

/-- The error registers (R48). -/
structure ErrRegs where
  code : ErrCode
  stage : ErrStage
  info : Byte
  pos : Nat
deriving DecidableEq, Repr

/-- Where a run stands between two steps: the model's own register (log entry 6), since a run is many
steps here and one command in the spec (D25). -/
inductive SchPhase
  /-- The next step pulls a block (R192). -/
  | pull
  /-- The next step allocates location `LOC_IDX` (R193). -/
  | location
  /-- The next step computes sub-sample `SUB_P` (R222). -/
  | subSample
  /-- The next step runs the selector of channel `muxCh`, or emits when every channel has its value. -/
  | channels
deriving DecidableEq, Repr

/-- What the platform attaches before a RESET (R322): the input stream and whether the sink can seek. -/
structure Attachment where
  stream : List Byte
  seekable : Bool
deriving DecidableEq, Repr

/-- What the host does (R40, R47): the three commands and the writes of the configuration registers. -/
inductive HostCmd
  /-- RESET (R320), with a new attachment or with the one that is there. -/
  | reset (att : Option Attachment)
  /-- PULL (R131). -/
  | pull
  /-- START (R250). -/
  | start
  | writeFps (v : BitVec 32)
  | writePps (v : BitVec 32)
  | writeRate (v : BitVec 32)
  | writeNch (v : BitVec 16)
  | writeCh (c : Nat) (v : Byte)
  | writeInvert (v : BitVec 3)
deriving DecidableEq, Repr

/-- Everything the block remembers between steps (R20), with the parameters of its instance (R6), the
two external stores (R50), and the model's own registers. -/
structure State where
  /-- The parameters of R6: constants of one instance of the block (log entry 1). -/
  params : Params
  dec : Decoder
  pal : PaletteTable
  fb : FrameBuffer
  /-- The `CFG_` registers (R40). -/
  cfg : ConfigRegs
  /-- The latched copies (R43). -/
  lat : ConfigRegs
  runState : RunState
  hid : Hidden
  wrk : Working
  err : ErrRegs
  /-- `IN`; `IN_LEN` is its length. -/
  inp : Memory
  /-- `SINK`; `SINK_LEN` is its length. -/
  sink : Memory
  /-- `SINK_SEEKABLE` (R68). -/
  sinkSeekable : Bool
  /-- The model's own: where a run stands (log entry 6). -/
  sch : SchPhase
  /-- The model's own: the channel whose selector runs next (log entry 6). -/
  muxCh : Nat
  /-- The model's own: what the host will do, oldest first (log entry 7). -/
  host : List HostCmd
  /-- The model's own: how many draws of free values have been made (log entry 3). -/
  freeCtr : Nat
deriving DecidableEq, Repr

/-- Why the machine stops. The block's own errors (R280) are no stops: they enter R290 and the machine
goes on in the faulted state. -/
inductive Fault
  /-- Raised by `step`, inside a run, when the latched channel register it fetches holds none of the
  seven codes. R233: it cannot occur, since START rejects such a code. Safe: the machine stops where
  the spec gives no effect. -/
  | unknownChannelCode
deriving DecidableEq, Repr

/-- Why the model has no meaning to offer. -/
inductive Refusal
  /-- Answered by `exec` for an instruction without a meaning, by its mnemonic in the opcode table. Safe:
  nothing is claimed of it. No arm of `exec` answers it. -/
  | notModelled (mnemonic : String)
deriving DecidableEq, Repr

/-- A position store with every register 0. -/
def Working.reset : Working :=
  { budget := 0, locIdx := 0, locK := 0, subP := 0, cur := Position.zero, pos := Position.zero, repN := 0,
    sample := [] }

/-- The configuration after RESET (R40, R320): 20 frames, 20000 points and 44100 sample frames a
second, channels "xyl", no inversion. -/
def ConfigRegs.reset : ConfigRegs :=
  { fps := 20, pps := 20000, rate := 44100, nch := 3, ch := [(0, 0x78), (1, 0x79), (2, 0x6C)], invert := 0 }

/-- The latched copies after RESET: the spec gives them no value (log entry 8). -/
def ConfigRegs.zero : ConfigRegs := { fps := 0, pps := 0, rate := 0, nch := 0, ch := [], invert := 0 }

/-- The state after RESET (R320), at the default parameters, with nothing attached (log entry 9) and no
host command pending. Registers R320 calls unspecified are 0 (log entry 8). -/
def State.reset : State :=
  { params := Params.default
    dec := { state := .awaitHeader, inPos := 0, hdrFormat := 0, hdrCount := 0, hdrSrcid := 0, recIdx := 0,
             result := .none }
    pal := { valid := [], len := [], ram := [] }
    fb := { srcid := 0, count := 0, pt := [] }
    cfg := ConfigRegs.reset
    lat := ConfigRegs.zero
    runState := .idle
    hid := { framePhase := 0, pointPhase := 0, last := Position.zero, dataLen := 0 }
    wrk := Working.reset
    err := { code := .none, stage := .none, info := 0, pos := 0 }
    inp := { len := 0, cells := [] }
    sink := { len := 0, cells := [] }
    sinkSeekable := true
    sch := .pull
    muxCh := 0
    host := []
    freeCtr := 0 }

end Sys2Proof.Machine
end

