-- ==== Sys2Proof/Machine/Flags.lean ====
section
/-! DEFINITION. The status bit of a record, the status outputs, and the code numbers of the status
registers (R21, R30, R44, R48, R49, R100). The block has no arithmetic condition codes (R49). -/

namespace Sys2Proof.Machine

/-- `blanked`: bit 6 of a status byte, mask 0x40 (R100, R7). -/
def blanked (status : Byte) : Bool := status.getLsbD 6

/-- The output `DONE = (RUN_STATE = DONE)` (R49). -/
def State.doneOut (s : State) : Bool := s.runState == .done

/-- The output `FAULT = (ERR_CODE != 0)` (R49). -/
def State.faultOut (s : State) : Bool := s.err.code != .none

/-- The code of R21. -/
def DecState.code : DecState → BitVec 2
  | .awaitHeader => 0
  | .dispatchingBody => 1
  | .exhausted => 2
  | .faulted => 3

/-- The code of R30. -/
def PullResult.code : PullResult → BitVec 3
  | .none => 0
  | .frame => 1
  | .palette => 2
  | .endOfStream => 3
  | .fault => 4

/-- The code of R44. -/
def RunState.code : RunState → BitVec 2
  | .idle => 0
  | .running => 1
  | .done => 2
  | .faulted => 3

/-- The code of R48 and R280. -/
def ErrCode.code : ErrCode → BitVec 3
  | .none => 0
  | .corruptFormat => 1
  | .unexpectedEof => 2
  | .unsupportedFormat => 3
  | .invalidSignal => 4
  | .nonSeekableSink => 5
  | .badConfig => 6

/-- The code of R48. -/
def ErrStage.code : ErrStage → BitVec 3
  | .none => 0
  | .header => 1
  | .body => 2
  | .config => 3
  | .sink => 4

/-- A decoder error: one of the three raised inside a pull (R282, R290). -/
def ErrCode.ofDecoder : ErrCode → Bool
  | .corruptFormat => true
  | .unexpectedEof => true
  | .unsupportedFormat => true
  | .none => false
  | .invalidSignal => false
  | .nonSeekableSink => false
  | .badConfig => false

end Sys2Proof.Machine
end

