-- ==== Sys2Proof/Machine/Store.lean ====
section
/-! DEFINITION. The operations of the sparse stores and of the two byte stores, and the canonical form
they keep. -/

namespace Sys2Proof.Machine

/-- What key `k` reads as: its entry, or the default. -/
def Cells.get {α : Type} (d : α) : Cells α → Nat → α
  | [], _ => d
  | (j, v) :: m, k => if j = k then v else Cells.get d m k

/-- `m` with the entry `(k, v)`, in order. -/
def Cells.insert {α : Type} (k : Nat) (v : α) : Cells α → Cells α
  | [] => [(k, v)]
  | (j, w) :: m =>
    if k < j then (k, v) :: (j, w) :: m
    else if k = j then (k, v) :: m
    else (j, w) :: Cells.insert k v m

/-- `m` without the entry of `k`. -/
def Cells.erase {α : Type} (k : Nat) (m : Cells α) : Cells α := m.filter fun e => e.1 ≠ k

/-- A write: writing the default removes the entry. -/
def Cells.set {α : Type} [DecidableEq α] (d : α) (m : Cells α) (k : Nat) (v : α) : Cells α :=
  if v = d then Cells.erase k m else Cells.insert k v m

/-- The store that reads `f i` at every `i < n` and the default elsewhere. -/
def Cells.tabulate {α : Type} [DecidableEq α] (d : α) (f : Nat → α) (n : Nat) : Cells α :=
  (List.range n).filterMap fun i => if f i = d then none else some (i, f i)

/-- The canonical form: keys strictly rising, no entry equal to the default. -/
abbrev Cells.wf {α : Type} [DecidableEq α] (d : α) (m : Cells α) : Prop :=
  m.Pairwise (fun a b => a.1 < b.1) ∧ ∀ e ∈ m, e.2 ≠ d

/-- Every key is below `n`. -/
abbrev Cells.below {α : Type} (n : Nat) (m : Cells α) : Prop := ∀ e ∈ m, e.1 < n

/-- The canonical form of a byte store: the cells' own, and no cell at or above the length. -/
abbrev Memory.wf (m : Memory) : Prop := Cells.wf 0 m.cells ∧ Cells.below m.len m.cells

/-- The byte at offset `a`, where there is one. -/
def Memory.readByte (m : Memory) (a : Nat) : Option Byte :=
  if a < m.len then some (Cells.get 0 m.cells a) else none

/-- `MemRead(a, n)` (R10): defined only when `a + n <= len`. -/
def Memory.readBytes (m : Memory) (a n : Nat) : Option (List Byte) :=
  if a + n ≤ m.len then some ((List.range n).map fun i => Cells.get 0 m.cells (a + i)) else none

/-- A byte stored at offset `a`; a store at the end makes the string longer. -/
def Memory.writeByte (m : Memory) (a : Nat) (v : Byte) : Memory :=
  { len := max m.len (a + 1), cells := Cells.set 0 m.cells a v }

/-- `MemWrite(a, len(bs), bs)` (R10, R66). -/
def Memory.writeBytes (m : Memory) (a : Nat) : List Byte → Memory
  | [] => m
  | b :: bs => Memory.writeBytes (m.writeByte a b) (a + 1) bs

/-- `SinkAppend(bs)` (R10, R66): a write at the end. -/
def Memory.append (m : Memory) (bs : List Byte) : Memory := m.writeBytes m.len bs

/-- The byte store that holds exactly `bs`. -/
def Memory.ofBytes (bs : List Byte) : Memory := Memory.append { len := 0, cells := [] } bs

end Sys2Proof.Machine
end

