-- ==== Sys2Proof/Machine/Operands.lean ====
section
/-! DEFINITION. The operands of the blocks: the record layouts (R92 to R94, R99), how each field is
taken from its bytes (R101), and the colour of an indexed record (R28, R163). -/

namespace Sys2Proof.Machine

/-- The four record shapes that are points (R95). -/
inductive PointKind
  | idx3d
  | idx2d
  | tc3d
  | tc2d
deriving DecidableEq, Repr

/-- The format code of a record shape (R95). -/
def PointKind.format : PointKind → Byte
  | .idx3d => 0
  | .idx2d => 1
  | .tc3d => 4
  | .tc2d => 5

/-- `REC_SIZE` (R6): format code 1 depends on `FMT1_LAYOUT` (R99). -/
def PointKind.recSize (l : Fmt1Layout) : PointKind → Nat
  | .idx3d => 8
  | .idx2d => match l with
    | .own6 => 6
    | .as3d8 => 8
  | .tc3d => 10
  | .tc2d => 8

/-- `REC_SIZE[2]` (R6, R94). -/
def palRecSize : Nat := 3

/-- `Resolve(s, idx)` (R28): the palette loaded for source `s`, or the default palette; black out of
range. -/
def PaletteTable.resolve (p : PaletteTable) (s idx : Byte) : Rgb :=
  if Cells.get false p.valid s.toNat = true then
    if (Cells.get 0 p.len s.toNat).toNat ≤ idx.toNat then Rgb.black
    else Cells.get Rgb.black p.ram (256 * s.toNat + idx.toNat)
  else if Config.defaultPaletteLen ≤ idx.toNat then Rgb.black
  else Config.defaultPalette idx.toNat

/-- `IndexedColour(s, status, idx)` (R163). -/
def indexedColour (p : PaletteTable) (s status idx : Byte) : Rgb :=
  if blanked status then Rgb.black else p.resolve s idx

/-- The colour of a true-colour record (R164, R165): the bytes are blue, green, red in stream order. -/
def trueColour (status blue green red : Byte) : Rgb :=
  if blanked status then Rgb.black else ⟨red, green, blue⟩

/-- `DecodeIdx3D` (R161, layout R92). -/
def decodeIdx3d (p : PaletteTable) (s : Byte) (rec : List Byte) : Point :=
  let b := fun i => rec.getD i 0
  ⟨u16be (b 0) (b 1), u16be (b 2) (b 3), u16be (b 4) (b 5), indexedColour p s (b 6) (b 7)⟩

/-- `DecodeIdx2D` (R162, layout R93). -/
def decodeIdx2d (p : PaletteTable) (s : Byte) (rec : List Byte) : Point :=
  let b := fun i => rec.getD i 0
  ⟨u16be (b 0) (b 1), u16be (b 2) (b 3), 0, indexedColour p s (b 4) (b 5)⟩

/-- `DecodeTc3D` (R164, layout R94). -/
def decodeTc3d (rec : List Byte) : Point :=
  let b := fun i => rec.getD i 0
  ⟨u16be (b 0) (b 1), u16be (b 2) (b 3), u16be (b 4) (b 5), trueColour (b 6) (b 7) (b 8) (b 9)⟩

/-- `DecodeTc2D` (R165, layout R94). -/
def decodeTc2d (rec : List Byte) : Point :=
  let b := fun i => rec.getD i 0
  ⟨u16be (b 0) (b 1), u16be (b 2) (b 3), 0, trueColour (b 4) (b 5) (b 6) (b 7)⟩

/-- The record decoder a format code selects (R160); under AS3D8 format code 1 is read as format code 0
(R99). -/
def decodePoint (l : Fmt1Layout) (p : PaletteTable) (s : Byte) (rec : List Byte) : PointKind → Point
  | .idx3d => decodeIdx3d p s rec
  | .idx2d => match l with
    | .own6 => decodeIdx2d p s rec
    | .as3d8 => decodeIdx3d p s rec
  | .tc3d => decodeTc3d rec
  | .tc2d => decodeTc2d rec

/-- A palette record (R94): red, green, blue. -/
def decodePalRecord (rec : List Byte) : Rgb := ⟨rec.getD 0 0, rec.getD 1 0, rec.getD 2 0⟩

end Sys2Proof.Machine
end

