-- ==== Sys2Proof/Machine/Ops.lean ====
section
/-! DEFINITION. The shared operations over the state: named register updates, the sequential read of
the input (R62), fault entry (R290; there is no return from it, R292), the sink writes (R66), and what
a faulted body leaves open (U2, U3). -/

namespace Sys2Proof.Machine

/-! Named updates, one group of registers each. -/

def State.setDecState (s : State) (d : DecState) : State := { s with dec := { s.dec with state := d } }

def State.setInPos (s : State) (n : Nat) : State := { s with dec := { s.dec with inPos := n } }

def State.setResult (s : State) (r : PullResult) : State := { s with dec := { s.dec with result := r } }

def State.setRecIdx (s : State) (n : BitVec 16) : State := { s with dec := { s.dec with recIdx := n } }

/-- R133: the latches of an accepted header; `REC_IDX` is cleared. -/
def State.latchHeader (s : State) (f : Byte) (count : BitVec 16) (src : Byte) : State :=
  { s with dec := { s.dec with hdrFormat := f, hdrCount := count, hdrSrcid := src, recIdx := 0 } }

def State.setPal (s : State) (p : PaletteTable) : State := { s with pal := p }

def State.setFb (s : State) (f : FrameBuffer) : State := { s with fb := f }

def State.setCfg (s : State) (c : ConfigRegs) : State := { s with cfg := c }

def State.setLat (s : State) (c : ConfigRegs) : State := { s with lat := c }

def State.setRunState (s : State) (r : RunState) : State := { s with runState := r }

def State.setHid (s : State) (h : Hidden) : State := { s with hid := h }

def State.setWrk (s : State) (w : Working) : State := { s with wrk := w }

def State.setErr (s : State) (e : ErrRegs) : State := { s with err := e }

def State.setSink (s : State) (m : Memory) : State := { s with sink := m }

def State.setSch (s : State) (p : SchPhase) : State := { s with sch := p }

def State.setMuxCh (s : State) (c : Nat) : State := { s with muxCh := c }

def State.setHost (s : State) (h : List HostCmd) : State := { s with host := h }

/-- One draw of free values is spent. -/
def State.spendDraw (s : State) : State := { s with freeCtr := s.freeCtr + 1 }

/-! Fault entry. -/

/-- The error registers after the raise: they keep the first error (R48, R290). -/
def ErrRegs.record (e : ErrRegs) (code : ErrCode) (stage : ErrStage) (info : Byte) (pos : Nat) : ErrRegs :=
  if e.code = .none then { code := code, stage := stage, info := info, pos := pos } else e

/-- `raise E(info)` (R290), with the position R281 gives. `inStart` says that the raise is inside the
checks of START. What follows the raise in the pseudocode is not run: the caller answers this state. -/
def State.raise (s : State) (code : ErrCode) (stage : ErrStage) (info : Byte) (pos : Nat) (inStart : Bool) : State :=
  let s1 := s.setErr (s.err.record code stage info pos)
  let s2 := if code.ofDecoder then (s1.setDecState .faulted).setResult .fault else s1
  if s.runState = .running ∨ inStart = true then s2.setRunState .faulted else s2

/-! The sequential read. -/

/-- Either the bytes and the state after the read, or the state after the fault entry. -/
abbrev Read := Except State (List Byte × State)

/-- `SrcRead(n, stage)` (R62): `n` bytes at `IN_POS`, which advances; or `UnexpectedEof(stage)` with the
cursor at `IN_LEN`. `info` is what R280 puts in `ERR_INFO`. -/
def State.srcRead (s : State) (n : Nat) (stage : ErrStage) (info : Byte) : Read :=
  match s.inp.readBytes s.dec.inPos n with
  | some bs => .ok (bs, s.setInPos (s.dec.inPos + n))
  | none => .error ((s.setInPos s.inp.len).raise .unexpectedEof stage info s.dec.inPos false)

/-! What a faulted body leaves open. -/

/-- U3: after a fault inside a frame's body the frame buffer holds any value, each register its own: no two
of them are taken from the same free value of the draw. -/
def State.freeFrame (s : State) : State :=
  (s.setFb { srcid := Config.freeBits 8 s.freeCtr 3
             count := Config.freeBits 16 s.freeCtr 1
             pt := Cells.tabulate Point.zero (Config.freePoint s.freeCtr) Config.maxCount }).spendDraw

/-- `PAL_RAM[src]` with any value in each of its 256 entries. -/
def PaletteTable.freeRam (p : PaletteTable) (src : Byte) (n : Nat) : Nat → Cells Rgb
  | 0 => p.ram
  | i + 1 => Cells.set Rgb.black (PaletteTable.freeRam p src n i) (256 * src.toNat + i) (Config.freeRgb n i)

/-- U2: after a fault inside a palette body the palette of its source is any palette, or the default:
valid or not, of any length from 1 to 256 (R26), with any entries, each from a free value of its own. -/
def State.freePalette (s : State) (src : Byte) : State :=
  (s.setPal { valid := Cells.set false s.pal.valid src.toNat (Config.freeBits 8 s.freeCtr 3 == 0)
              len := Cells.set 0 s.pal.len src.toNat (BitVec.ofNat 9 (1 + (Config.freeBits 8 s.freeCtr 4).toNat))
              ram := s.pal.freeRam src s.freeCtr Config.palMax }).spendDraw

/-! Storing a record. -/

/-- `FB_PT[REC_IDX] <- pt` (R160). -/
def State.storePoint (s : State) (pt : Point) : State :=
  s.setFb { s.fb with pt := Cells.set Point.zero s.fb.pt s.dec.recIdx.toNat pt }

/-- `PalStore(src, REC_IDX, rec)` (R166): entries at 256 and above are dropped. -/
def State.palStore (s : State) (src : Byte) (c : Rgb) : State :=
  if s.dec.recIdx.toNat < Config.palMax then
    s.setPal { s.pal with ram := Cells.set Rgb.black s.pal.ram (256 * src.toNat + s.dec.recIdx.toNat) c }
  else s

/-- `PalCommit(src, count)` (R166). -/
def State.palCommit (s : State) (src : Byte) (count : BitVec 16) : State :=
  s.setPal { s.pal with len := Cells.set 0 s.pal.len src.toNat (BitVec.ofNat 9 (min count.toNat Config.palMax))
                        valid := Cells.set false s.pal.valid src.toNat true }

/-! Writes of the host (R40, R47). -/

/-- A host write of `CFG_CH[c]`; there are `MAX_CH` of them, and a write of one that does not exist is not
accepted (log entry 10). -/
def State.writeCfgCh (s : State) (c : Nat) (v : Byte) : State :=
  if c < s.params.maxCh then s.setCfg { s.cfg with ch := Cells.set 0 s.cfg.ch c v } else s

/-- RESET (R320): every register at its reset value; the parameters stay, `IN` and `SINK_SEEKABLE` are what
the platform supplies, and the host's later commands stay pending. -/
def State.resetCmd (s : State) (att : Option Attachment) : State :=
  { State.reset with
      params := s.params
      inp := match att with
        | some a => Memory.ofBytes a.stream
        | none => s.inp
      sinkSeekable := match att with
        | some a => a.seekable
        | none => s.sinkSeekable
      host := s.host
      freeCtr := s.freeCtr }

end Sys2Proof.Machine
end

