-- ==== Sys2Proof/Machine/Alloc.lean ====
section
/-! DEFINITION. The fair-allocation arbiter ARB (R190, R192, R193, R196). -/

namespace Sys2Proof.Machine

/-- `groupSize(T, G, i)` (R190). -/
def groupSize (T G i : Nat) : Nat :=
  T / G + if (i * (T % G)) % G > ((i + 1) * (T % G)) % G then 1 else 0

/-- First level (R192): the budget of the frame just pulled; the next frame is the next group. -/
def State.beginFrame (s : State) : State :=
  (s.setWrk { s.wrk with
      budget := BitVec.ofNat 32 (groupSize s.lat.pps.toNat s.lat.fps.toNat s.hid.framePhase.toNat)
      locIdx := 0 }).setHid
    { s.hid with framePhase := BitVec.ofNat 32 ((s.hid.framePhase.toNat + 1) % s.lat.fps.toNat) }

/-- Second level (R193): `LOC_K`, the sub-samples of location `LOC_IDX`. -/
def State.allocLocation (s : State) : State :=
  s.setWrk { s.wrk with
    locK := BitVec.ofNat 32 (groupSize s.wrk.budget.toNat s.fb.count.toNat s.wrk.locIdx.toNat) }

/-- Third level (R196): `REP_N`, the sample frames that hold the sub-sample; the next sub-sample is the next
group. -/
def State.holdCount (s : State) : State :=
  (s.setWrk { s.wrk with
      repN := BitVec.ofNat 32 (groupSize s.lat.rate.toNat s.lat.pps.toNat s.hid.pointPhase.toNat) }).setHid
    { s.hid with pointPhase := BitVec.ofNat 32 ((s.hid.pointPhase.toNat + 1) % s.lat.pps.toNat) }

end Sys2Proof.Machine
end

