-- ==== Sys2Proof/Machine/Framer.lean ====
section
/-! DEFINITION. The output framer FRM: the container header (R251 to R253), a sample frame (R254), and the
patch and end of a run (R255, R256). -/

namespace Sys2Proof.Machine

/-- `ContainerHeader(len)` (R251) for the latched configuration `l`: the fields that do not fit keep their
low bits (R253). -/
def containerHeader (l : ConfigRegs) (len : Nat) : List Byte :=
  Config.tagRiff ++ le32 (BitVec.ofNat 32 (len + 36)) ++ Config.tagWave ++ Config.tagFmt
    ++ le32 16 ++ le16 1 ++ le16 l.nch ++ le32 l.rate
    ++ le32 (BitVec.ofNat 32 (l.rate.toNat * l.nch.toNat * 2)) ++ le16 (BitVec.ofNat 16 (l.nch.toNat * 2))
    ++ le16 16 ++ Config.tagData ++ le32 (BitVec.ofNat 32 len)

/-- The bytes of one sample frame (R254): each sample low byte first, in channel order. -/
def sampleFrame (nch : Nat) (sample : Cells (BitVec 16)) : List Byte :=
  (List.range nch).flatMap fun c => le16 (Cells.get 0 sample c)

/-- `EmitSampleFrame` (R254). -/
def State.emitSampleFrame (s : State) : State :=
  (s.setSink (s.sink.append (sampleFrame s.lat.nch.toNat s.wrk.sample))).setHid
    { s.hid with dataLen := s.hid.dataLen + 2 * s.lat.nch.toNat }

/-- `repeat n times: EmitSampleFrame` (R222). -/
def State.emitSampleFrames (s : State) : Nat → State
  | 0 => s
  | n + 1 => (State.emitSampleFrame s).emitSampleFrames n

/-- The placeholder copy of the container header (R250, R252). -/
def State.appendPlaceholder (s : State) : State :=
  s.setSink (s.sink.append (containerHeader s.lat Config.placeholderLen))

/-- The patch (R255) and the end of the run (R256). -/
def State.endRun (s : State) : State :=
  (s.setSink (s.sink.writeBytes 0 (containerHeader s.lat s.hid.dataLen))).setRunState .done

end Sys2Proof.Machine
end

