-- ==== Sys2Proof/Syntax.lean ====
section
/-! DEFINITION. The instructions: one constructor for each row of spec/opcode_table.json. A block
instruction is a 32-byte header (R91); its records are its operands in the stream and are read by
its meaning (R160). A channel selector is one 8-bit code (R110). -/

namespace Sys2Proof

/-- The header fields of R91 other than the magic tag and the format code, which the constructor
stands for. The fields the block ignores (R98) are kept, so that no bit of a header is lost. A
field of several bytes has its first byte most significant. -/
structure Header where
  /-- Bytes 4..6, ignored. -/
  reservedA : BitVec 24
  /-- Bytes 8..15, ignored. -/
  name : BitVec 64
  /-- Bytes 16..23, ignored. -/
  company : BitVec 64
  /-- Bytes 24, 25: how many records follow. -/
  count : BitVec 16
  /-- Bytes 26, 27, ignored. -/
  frameIndex : BitVec 16
  /-- Bytes 28, 29, ignored. -/
  totalFrames : BitVec 16
  /-- Byte 30: the source identifier. -/
  srcid : Byte
  /-- Byte 31, ignored. -/
  reservedB : Byte
deriving DecidableEq, Repr

/-- One constructor per row of the opcode table. -/
inductive Instr
  /-- END: count = 0, any format code (R135). -/
  | endBlock (format : Byte) (h : Header)
  /-- IDX3D: format code 0 (R161). -/
  | idx3d (h : Header)
  /-- IDX2D: format code 1 (R162). -/
  | idx2d (h : Header)
  /-- PAL: format code 2 (R166). -/
  | pal (h : Header)
  /-- TC3D: format code 4 (R164). -/
  | tc3d (h : Header)
  /-- TC2D: format code 5 (R165). -/
  | tc2d (h : Header)
  /-- ILLEGAL: format code 3 or 6..255 (R136). -/
  | illegal (format : Byte) (h : Header)
  /-- SIG.X, code 0x78 (R230). -/
  | sigX
  /-- SIG.Y, code 0x79 (R230). -/
  | sigY
  /-- SIG.Z, code 0x7A (R230). -/
  | sigZ
  /-- SIG.L, code 0x6C (R231). -/
  | sigL
  /-- SIG.R, code 0x72 (R232). -/
  | sigR
  /-- SIG.G, code 0x67 (R232). -/
  | sigG
  /-- SIG.B, code 0x62 (R232). -/
  | sigB
deriving DecidableEq, Repr

end Sys2Proof
end

