-- ==== Sys2Proof/WellFormed.lean ====
section
/-! DEFINITION. Which instruction terms an encoding can stand for (R95, R96). -/

namespace Sys2Proof

/-- The five format codes with a record decoder (R95). -/
def knownFormat (f : Byte) : Bool := f == 0 || f == 1 || f == 2 || f == 4 || f == 5

/-- The count condition and the format condition of the instruction's row (R95): END has count 0,
every other block has records, and ILLEGAL has none of the five format codes. -/
def wellFormed : Instr → Bool
  | .endBlock _ h => h.count == 0
  | .idx3d h => h.count != 0
  | .idx2d h => h.count != 0
  | .pal h => h.count != 0
  | .tc3d h => h.count != 0
  | .tc2d h => h.count != 0
  | .illegal f h => h.count != 0 && !knownFormat f
  | .sigX => true
  | .sigY => true
  | .sigZ => true
  | .sigL => true
  | .sigR => true
  | .sigG => true
  | .sigB => true

end Sys2Proof
end

