-- ==== Sys2Proof/Decode.lean ====
section
/-! DEFINITION. From bytes to an instruction (R91, R95, R96, R110), and back. -/

namespace Sys2Proof

/-- Why bytes are no instruction. -/
inductive DecodeReject
  /-- Neither one byte (a channel code) nor at least 32 (a header). -/
  | badLength
  /-- Header bytes 0..3 differ from `MAGIC` (R132). -/
  | badMagic
  /-- None of the seven channel codes (R110). -/
  | unknownChannelCode
deriving DecidableEq, Repr

/-- The header fields at their offsets (R91). -/
def headerFields (bs : List Byte) : Header :=
  let b := fun i => bs.getD i 0
  { reservedA := join3 (b 4) (b 5) (b 6)
    name := join8 (b 8) (b 9) (b 10) (b 11) (b 12) (b 13) (b 14) (b 15)
    company := join8 (b 16) (b 17) (b 18) (b 19) (b 20) (b 21) (b 22) (b 23)
    count := u16be (b 24) (b 25)
    frameIndex := u16be (b 26) (b 27)
    totalFrames := u16be (b 28) (b 29)
    srcid := b 30
    reservedB := b 31 }

/-- The opcode map (R95): the count is tested before the format code (R96), and the selection uses
all 8 bits of the format code. -/
def selectBlock (f : Byte) (h : Header) : Instr :=
  if h.count = 0 then .endBlock f h
  else if f = 0 then .idx3d h
  else if f = 1 then .idx2d h
  else if f = 2 then .pal h
  else if f = 4 then .tc3d h
  else if f = 5 then .tc2d h
  else .illegal f h

/-- A block header (R91): the magic tag is tested first (R96). -/
def decodeHeader (p : Params) (bs : List Byte) : Except DecodeReject Instr :=
  if bs.length < 32 then .error .badLength
  else if join4 (bs.getD 0 0) (bs.getD 1 0) (bs.getD 2 0) (bs.getD 3 0) ≠ p.magic then .error .badMagic
  else .ok (selectBlock (bs.getD 7 0) (headerFields bs))

/-- A channel code (R110). -/
def decodeChannel (c : Byte) : Except DecodeReject Instr :=
  if c = 0x78 then .ok .sigX
  else if c = 0x79 then .ok .sigY
  else if c = 0x7A then .ok .sigZ
  else if c = 0x6C then .ok .sigL
  else if c = 0x72 then .ok .sigR
  else if c = 0x67 then .ok .sigG
  else if c = 0x62 then .ok .sigB
  else .error .unknownChannelCode

/-- Any bytes: one byte is the contents of a channel register, 32 or more begin with a header (log
entry 4). -/
def decode (p : Params) : List Byte → Except DecodeReject Instr
  | [c] => decodeChannel c
  | bs => decodeHeader p bs

/-- The 32 bytes of a header (R91). -/
def encodeHeader (p : Params) (f : Byte) (h : Header) : List Byte :=
  split4 p.magic ++ split3 h.reservedA ++ [f] ++ split8 h.name ++ split8 h.company ++ split2 h.count
    ++ split2 h.frameIndex ++ split2 h.totalFrames ++ [h.srcid, h.reservedB]

/-- The bytes of an instruction (R91, R95, R110). -/
def encode (p : Params) : Instr → List Byte
  | .endBlock f h => encodeHeader p f h
  | .idx3d h => encodeHeader p 0 h
  | .idx2d h => encodeHeader p 1 h
  | .pal h => encodeHeader p 2 h
  | .tc3d h => encodeHeader p 4 h
  | .tc2d h => encodeHeader p 5 h
  | .illegal f h => encodeHeader p f h
  | .sigX => [0x78]
  | .sigY => [0x79]
  | .sigZ => [0x7A]
  | .sigL => [0x6C]
  | .sigR => [0x72]
  | .sigG => [0x67]
  | .sigB => [0x62]

/-- The bytes of a table word. A row of at most 8 bits is a channel code (CHSEL8). Any other is a
header whose first `nbits` bits are `w` read as one big-endian number, byte 0 most significant
(spec/INDEX.md, conventions of the table), the rest zero (log entry 5). -/
def tableBytes (nbits w : Nat) : List Byte :=
  if nbits ≤ 8 then [BitVec.ofNat 8 w]
  else (beBytes ((nbits + 7) / 8) w ++ List.replicate 32 0).take 32

/-- The instruction the decoder reads from a table word, at the default parameters. -/
def decodeTableWord (nbits w : Nat) : Option Instr :=
  match decode Params.default (tableBytes nbits w) with
  | .ok i => some i
  | .error _ => none

end Sys2Proof
end

