-- ==== Sys2Proof/Machine/Blocks.lean ====
section
/-! DEFINITION. The meanings of the block instructions. The header has been read: `IN_POS` is at the
first record. What follows is R131 from its test of the count on, with the body of R160. -/

namespace Sys2Proof.Machine

/-- The loop of R160: `n` more records of `size` bytes, each stored by `store` and counted in `REC_IDX`. A
short read ends it with the state after the fault entry; `ERR_INFO` is the format code (R280). -/
def bodyLoop (size : Nat) (f : Byte) (store : State → List Byte → State) : Nat → State → Except State State
  | 0, s => .ok s
  | n + 1, s =>
    match s.srcRead size .body f with
    | .error t => .error t
    | .ok (rec, t) => bodyLoop size f store n ((store t rec).setRecIdx (t.dec.recIdx + 1))

/-- The state in which the body starts: R133 and the next line of R131. -/
def State.enterBody (s : State) (f : Byte) (h : Header) : State :=
  (s.latchHeader f h.count h.srcid).setDecState .dispatchingBody

/-- The last two lines of R131. -/
def State.leaveBody (s : State) (r : PullResult) : State := (s.setDecState .awaitHeader).setResult r

/-- A point record of kind `k` for source `src`: decoded and stored at its own index (R160). -/
def storePointRecord (k : PointKind) (src : Byte) (s : State) (rec : List Byte) : State :=
  s.storePoint (decodePoint s.params.fmt1Layout s.pal src rec k)

/-- A palette record for source `src` (R166). -/
def storePalRecord (src : Byte) (s : State) (rec : List Byte) : State := s.palStore src (decodePalRecord rec)

/-- A block of points: R131 and R160 for the format codes 0, 1, 4 and 5. -/
def pointBlock (k : PointKind) (h : Header) (s : State) : State :=
  let s1 := s.enterBody k.format h
  let s2 := s1.setFb { s1.fb with srcid := h.srcid, count := h.count }
  match bodyLoop (k.recSize s.params.fmt1Layout) k.format (storePointRecord k h.srcid) h.count.toNat s2 with
  | .ok t => t.leaveBody .frame
  | .error t => t.freeFrame

/-- A palette load: R131, R160 and R166 for the format code 2. -/
def palBlock (h : Header) (s : State) : State :=
  match bodyLoop palRecSize 2 (storePalRecord h.srcid) h.count.toNat (s.enterBody 2 h) with
  | .ok t => (t.palCommit h.srcid h.count).leaveBody .palette
  | .error t => t.freePalette h.srcid

/-- END (R135): the end of the stream; the format code and the source are not examined. -/
def execEndBlock (_f : Byte) (_h : Header) (s : State) : Host.Outcome State Fault Refusal :=
  .next ((s.setDecState .exhausted).setResult .endOfStream)

/-- IDX3D (R161). -/
def execIdx3d (h : Header) (s : State) : Host.Outcome State Fault Refusal := .next (pointBlock .idx3d h s)

/-- IDX2D (R162; R99 under AS3D8). -/
def execIdx2d (h : Header) (s : State) : Host.Outcome State Fault Refusal := .next (pointBlock .idx2d h s)

/-- PAL (R166). -/
def execPal (h : Header) (s : State) : Host.Outcome State Fault Refusal := .next (palBlock h s)

/-- TC3D (R164). -/
def execTc3d (h : Header) (s : State) : Host.Outcome State Fault Refusal := .next (pointBlock .tc3d h s)

/-- TC2D (R165). -/
def execTc2d (h : Header) (s : State) : Host.Outcome State Fault Refusal := .next (pointBlock .tc2d h s)

/-- ILLEGAL (R136): `raise UnsupportedFormat(f)`; `ERR_POS` is the header's first byte (R281). -/
def execIllegal (f : Byte) (_h : Header) (s : State) : Host.Outcome State Fault Refusal :=
  .next (s.raise .unsupportedFormat .header f (s.dec.inPos - Config.hdrSize) false)

end Sys2Proof.Machine
end

