-- ==== Sys2Proof/Machine/Interp.lean ====
section
/-! DEFINITION. Axis inversion and the linear interpolator INT (R220 to R224). -/

namespace Sys2Proof.Machine

/-- One axis of `Invert` (R220): the negation is exact in 17 bits. -/
def invertAxis (inv : Bool) (v : BitVec 16) : BitVec 17 :=
  if inv then -(v.signExtend 17) else v.signExtend 17

/-- `Invert(x, y, z)` (R220): bit 0 of `INV` for x, bit 1 for y, bit 2 for z (R42). -/
def invertPoint (inv : BitVec 3) (p : Point) : Position :=
  ⟨invertAxis (inv.getLsbD 0) p.x, invertAxis (inv.getLsbD 1) p.y, invertAxis (inv.getLsbD 2) p.z⟩

/-- One axis of R222: `last + tdiv((cur - last) * p, k)`, the product exact, the quotient truncated toward
zero (R8). -/
def interpAxis (last cur : BitVec 17) (p k : Nat) : BitVec 17 :=
  BitVec.ofInt 17 (last.toInt + Int.tdiv ((cur.toInt - last.toInt) * p) k)

/-- The three axes are independent (R222). -/
def interpolate (last cur : Position) (p k : Nat) : Position :=
  ⟨interpAxis last.x cur.x p k, interpAxis last.y cur.y p k, interpAxis last.z cur.z p k⟩

/-- The location being drawn: `FB_PT[LOC_IDX]`. -/
def State.location (s : State) : Point := Cells.get Point.zero s.fb.pt s.wrk.locIdx.toNat

/-- The first line of `DrawLocation` (R221); `SUB_P` starts at 1. -/
def State.beginLocation (s : State) : State :=
  s.setWrk { s.wrk with cur := invertPoint s.lat.invert s.location, subP := 1 }

/-- The first three lines of `SubSample` (R222). -/
def State.setPosition (s : State) : State :=
  s.setWrk { s.wrk with pos := interpolate s.hid.last s.wrk.cur s.wrk.subP.toNat s.wrk.locK.toNat }

/-- R224: the last position becomes the location's own inverted coordinates. -/
def State.endLocation (s : State) : State := s.setHid { s.hid with last := s.wrk.cur }

end Sys2Proof.Machine
end

