-- ==== Sys2Proof/Machine/Mux.lean ====
section
/-! DEFINITION. The multi-channel multiplexer MUX (R230 to R233): the meanings of the channel
selectors. A selector writes the sample of the channel that is next and moves on to the one after it. -/

namespace Sys2Proof.Machine

/-- `Clip16(v)` (R230). -/
def clip16 (o : OutOverflow) (v : BitVec 17) : BitVec 16 :=
  if v.toInt = 32768 then
    match o with
    | .saturate => 32767
    | .wrap => 0x8000
  else v.setWidth 16

/-- Laser-on (R231). -/
def laserOn (c : Rgb) : BitVec 16 := if c = Rgb.black then 0 else 32767

/-- `(v * 32767) div 255` (R232). -/
def scaleColour (v : Byte) : BitVec 16 := BitVec.ofNat 16 (v.toNat * 32767 / 255)

/-- `SAMPLE[muxCh] <- v`, and the next channel is next (R222, R233). -/
def State.putSample (s : State) (v : BitVec 16) : State :=
  (s.setWrk { s.wrk with sample := Cells.set 0 s.wrk.sample s.muxCh v }).setMuxCh (s.muxCh + 1)

/-- SIG.X (R230). -/
def execSigX (s : State) : Host.Outcome State Fault Refusal :=
  .next (s.putSample (clip16 s.params.outOverflow s.wrk.pos.x))

/-- SIG.Y (R230). -/
def execSigY (s : State) : Host.Outcome State Fault Refusal :=
  .next (s.putSample (clip16 s.params.outOverflow s.wrk.pos.y))

/-- SIG.Z (R230). -/
def execSigZ (s : State) : Host.Outcome State Fault Refusal :=
  .next (s.putSample (clip16 s.params.outOverflow s.wrk.pos.z))

/-- SIG.L (R231): the colour tested is the location's resolved colour. -/
def execSigL (s : State) : Host.Outcome State Fault Refusal :=
  .next (s.putSample (laserOn s.location.colour))

/-- SIG.R (R232). -/
def execSigR (s : State) : Host.Outcome State Fault Refusal :=
  .next (s.putSample (scaleColour s.location.colour.r))

/-- SIG.G (R232). -/
def execSigG (s : State) : Host.Outcome State Fault Refusal :=
  .next (s.putSample (scaleColour s.location.colour.g))

/-- SIG.B (R232). -/
def execSigB (s : State) : Host.Outcome State Fault Refusal :=
  .next (s.putSample (scaleColour s.location.colour.b))

end Sys2Proof.Machine
end

