-- ==== Sys2Proof/Machine/Dispatch.lean ====
section
/-! DEFINITION. One arm per instruction, each a direct call of its meaning. -/

namespace Sys2Proof.Machine

def exec (i : Instr) (s : State) : Host.Outcome State Fault Refusal :=
  match i with
  | .endBlock f h => Sys2Proof.Machine.execEndBlock f h s
  | .idx3d h => Sys2Proof.Machine.execIdx3d h s
  | .idx2d h => Sys2Proof.Machine.execIdx2d h s
  | .pal h => Sys2Proof.Machine.execPal h s
  | .tc3d h => Sys2Proof.Machine.execTc3d h s
  | .tc2d h => Sys2Proof.Machine.execTc2d h s
  | .illegal f h => Sys2Proof.Machine.execIllegal f h s
  | .sigX => Sys2Proof.Machine.execSigX s
  | .sigY => Sys2Proof.Machine.execSigY s
  | .sigZ => Sys2Proof.Machine.execSigZ s
  | .sigL => Sys2Proof.Machine.execSigL s
  | .sigR => Sys2Proof.Machine.execSigR s
  | .sigG => Sys2Proof.Machine.execSigG s
  | .sigB => Sys2Proof.Machine.execSigB s

end Sys2Proof.Machine
end

