-- ==== Sys2Proof/Machine/Pull.lean ====
section
/-! DEFINITION. The pull operation `nextFrame` (R131): fetch a header, decode it, run its block. -/

namespace Sys2Proof.Machine

/-- The header's half of a pull in `AWAIT_HEADER` (R131, R132): read 32 bytes, test the magic tag, and run the
block the header selects. -/
def State.pullBlock (s : State) : Host.Outcome State Fault Refusal :=
  match s.srcRead Config.hdrSize .header 0 with
  | .error t => .next t
  | .ok (bs, t) =>
    match decodeHeader s.params bs with
    | .ok i => exec i t
    | .error _ => .next (t.raise .corruptFormat .header 0 s.dec.inPos false)

/-- `nextFrame` (R131): the terminal states read nothing (R137, R138). -/
def State.nextFrame (s : State) : Host.Outcome State Fault Refusal :=
  if s.dec.state = .faulted then .next (s.setResult .fault)
  else if s.dec.state = .exhausted then .next (s.setResult .endOfStream)
  else s.pullBlock

end Sys2Proof.Machine
end

