-- ==== Sys2Proof/Machine/Run.lean ====
section
/-! DEFINITION. The run of the scheduler in steps (R192, R193, R221, R222), the command START (R250), and
the host's other commands (R47). -/

namespace Sys2Proof.Machine

/-- What the run loop does with the result of a pull (R192): a frame gets its budget, a palette load is
followed by another pull, the end of the stream ends the run (R256), a fault has ended it (R258). -/
def State.afterPull (s : State) : State :=
  match s.dec.result with
  | .frame => s.beginFrame.setSch .location
  | .palette => s.setSch .pull
  | .endOfStream => s.endRun
  | .fault => s.setRunState .faulted
  | .none => s

/-- The next turn of the loop of R193, or the next pull when every location has had its turn. -/
def State.nextLocation (s : State) : State :=
  if s.wrk.locIdx.toNat + 1 < s.fb.count.toNat then
    (s.setWrk { s.wrk with locIdx := s.wrk.locIdx + 1 }).setSch .location
  else s.setSch .pull

/-- One turn of the loop of R193 up to the first sub-sample: a location allocated none is skipped (R194). -/
def State.startLocation (s : State) : State :=
  let s1 := s.allocLocation
  if s1.wrk.locK = 0 then s1.nextLocation else s1.beginLocation.setSch .subSample

/-- `SubSample` up to its channels (R222). -/
def State.startSubSample (s : State) : State := (s.setPosition.holdCount.setMuxCh 0).setSch .channels

/-- The emission of a sub-sample (R222), then the next turn of the loop of R221 or the end of the location
(R224). -/
def State.finishSubSample (s : State) : State :=
  let s1 := s.emitSampleFrames s.wrk.repN.toNat
  if s1.wrk.subP.toNat < s1.wrk.locK.toNat then
    (s1.setWrk { s1.wrk with subP := s1.wrk.subP + 1 }).setSch .subSample
  else s1.endLocation.nextLocation

/-- The channel that is next: its register is fetched and the selector it holds is run (R233). -/
def State.runChannel (s : State) : Host.Outcome State Fault Refusal :=
  match decodeChannel (Cells.get 0 s.lat.ch s.muxCh) with
  | .ok i => exec i s
  | .error _ => .fault .unknownChannelCode

/-- One step of a run in progress. -/
def State.runStep (s : State) : Host.Outcome State Fault Refusal :=
  match s.sch with
  | .pull =>
    match s.nextFrame with
    | .next t => .next t.afterPull
    | .fault f => .fault f
    | .refused r => .refused r
  | .location => .next s.startLocation
  | .subSample => .next s.startSubSample
  | .channels => if s.muxCh < s.lat.nch.toNat then s.runChannel else .next s.finishSubSample

/-- The condition of `BadConfig` (R286). -/
def State.badConfig (s : State) : Bool :=
  s.cfg.fps == 0 || s.cfg.pps == 0 || s.cfg.nch == 0 || decide (s.params.maxCh < s.cfg.nch.toNat)

/-- One of the seven codes of R110. -/
def isChannelCode (c : Byte) : Bool :=
  match decodeChannel c with
  | .ok _ => true
  | .error _ => false

/-- The first channel character in index order that is none of the seven (R284). -/
def State.firstBadChannel (s : State) : Option Byte :=
  ((List.range s.cfg.nch.toNat).map fun c => Cells.get 0 s.cfg.ch c).find? fun c => !isChannelCode c

/-- `CH[0..n-1] <- CFG_CH[0..n-1]` (R250): the registers from `n` on keep their contents. -/
def copyChannels (src dst : Cells Byte) : Nat → Cells Byte
  | 0 => dst
  | n + 1 => Cells.set 0 (copyChannels src dst n) n (Cells.get 0 src n)

/-- Step 2 of START (R250): latch the configuration and clear the counters and the last position. -/
def State.latchConfig (s : State) : State :=
  (s.setLat { s.cfg with ch := copyChannels s.cfg.ch s.lat.ch s.cfg.nch.toNat }).setHid
    { framePhase := 0, pointPhase := 0, last := Position.zero, dataLen := 0 }

/-- START up to its run loop (R250): accepted in `IDLE` without a recorded error (R47); the checks in
their order (R293), then latch, then the placeholder header. -/
def State.startCmd (s : State) : State :=
  if s.runState = .idle ∧ s.err.code = .none then
    if s.badConfig then s.raise .badConfig .config 0 0 true
    else match s.firstBadChannel with
      | some c => s.raise .invalidSignal .config c 0 true
      | none =>
        if s.sinkSeekable then ((s.latchConfig.setRunState .running).appendPlaceholder).setSch .pull
        else s.raise .nonSeekableSink .sink 0 0 true
  else s

/-- One host command (R40, R47). A command that is not accepted changes nothing. -/
def State.hostCmd (s : State) : HostCmd → Host.Outcome State Fault Refusal
  | .reset att => .next (s.resetCmd att)
  | .pull => if s.runState = .idle then s.nextFrame else .next s
  | .start => .next s.startCmd
  | .writeFps v => .next (s.setCfg { s.cfg with fps := v })
  | .writePps v => .next (s.setCfg { s.cfg with pps := v })
  | .writeRate v => .next (s.setCfg { s.cfg with rate := v })
  | .writeNch v => .next (s.setCfg { s.cfg with nch := v })
  | .writeCh c v => .next (s.writeCfgCh c v)
  | .writeInvert v => .next (s.setCfg { s.cfg with invert := v })

/-- The next step of the block: a run goes on until it ends (R47: START is one command), else the host's
oldest command is done, else the block waits. -/
def State.advance (s : State) : Host.Outcome State Fault Refusal :=
  if s.runState = .running then s.runStep
  else match s.host with
    | [] => .next s
    | c :: rest => (s.setHost rest).hostCmd c

end Sys2Proof.Machine
end

