-- ==== Sys2Proof/Machine/Step.lean ====
section
/-! DEFINITION. One step of the machine, and how an instruction is placed where the next step fetches. -/

namespace Sys2Proof.Machine

/-- One step (Machine/Run.lean says what it does). -/
def step (s : State) : Host.Outcome State Fault Refusal := s.advance

/-- `s` with the instruction of a table word where the next step fetches (log entry 5). A channel code goes
to channel register 0 of a run that is about to run channel 0. A header goes to `IN` at `IN_POS`, with a
PULL as the host's next command in a block that accepts it. -/
def State.withFetchWord (s : State) (nbits w : Nat) : State :=
  if nbits ≤ 8 then
    { s with
        runState := .running
        sch := .channels
        muxCh := 0
        lat := { s.lat with nch := if s.lat.nch = 0 then 1 else s.lat.nch
                            ch := Cells.set 0 s.lat.ch 0 (BitVec.ofNat 8 w) } }
  else
    { s with
        runState := .idle
        dec := { s.dec with state := .awaitHeader }
        inp := s.inp.writeBytes s.dec.inPos (tableBytes nbits w)
        host := .pull :: s.host }

end Sys2Proof.Machine
end

