-- ==== Sys2Proof/Machine/Atomic.lean ====
section
/-! DEFINITION. START as the one atomic command of the spec (R47, D25), in the loops of the spec's own
pseudocode (R250, R192, R193, R221, R222). `step` runs the same command in steps, which D25 allows if it
reaches the same end state; that it does is a statement about the two. -/

namespace Sys2Proof.Machine

/-- `Signal(code, ...)` (R230 to R232); START has rejected every other code (R233). -/
def signal (o : OutOverflow) (code : Byte) (pos : Position) (c : Rgb) : BitVec 16 :=
  if code = 0x78 then clip16 o pos.x
  else if code = 0x79 then clip16 o pos.y
  else if code = 0x7A then clip16 o pos.z
  else if code = 0x6C then laserOn c
  else if code = 0x72 then scaleColour c.r
  else if code = 0x67 then scaleColour c.g
  else if code = 0x62 then scaleColour c.b
  else 0

/-- `for c in 0 .. n-1: SAMPLE[c] <- Signal(CH[c], ...)` (R222). -/
def State.fillSamples (s : State) : Nat → State
  | 0 => s
  | c + 1 =>
    let t := s.fillSamples c
    let v := signal t.params.outOverflow (Cells.get 0 t.lat.ch c) t.wrk.pos t.location.colour
    t.setWrk { t.wrk with sample := Cells.set 0 t.wrk.sample c v }

/-- `SubSample(p, k, r, g, b)` (R222). -/
def State.drawSubSample (s : State) (p : Nat) : State :=
  let s1 := (s.setWrk { s.wrk with subP := BitVec.ofNat 32 p }).setPosition.holdCount
  let s2 := s1.fillSamples s1.lat.nch.toNat
  s2.emitSampleFrames s2.wrk.repN.toNat

/-- `for SUB_P in 1 .. k` (R221). -/
def State.drawSubSamples (s : State) : Nat → State
  | 0 => s
  | p + 1 => (s.drawSubSamples p).drawSubSample (p + 1)

/-- One turn of the loop of R193, with `DrawLocation` (R221) unless it is skipped (R194). -/
def State.drawLocation (s : State) (i : Nat) : State :=
  let s1 := (s.setWrk { s.wrk with locIdx := BitVec.ofNat 16 i }).allocLocation
  if s1.wrk.locK = 0 then s1
  else (s1.beginLocation.drawSubSamples s1.wrk.locK.toNat).endLocation

/-- The first `n` turns of the loop of R193. -/
def State.drawLocations (s : State) : Nat → State
  | 0 => s
  | i + 1 => (s.drawLocations i).drawLocation i

/-- `DrawFrame` (R193). -/
def State.drawFrame (s : State) : State := s.drawLocations s.fb.count.toNat

/-- `RunLoop` (R192) and what follows it in R250, for at most `n` pulls. -/
def State.runLoop : Nat → State → State
  | 0, s => s
  | n + 1, s =>
    match s.nextFrame with
    | .next t =>
      match t.dec.result with
      | .frame => State.runLoop n t.beginFrame.drawFrame
      | .palette => State.runLoop n t
      | .endOfStream => t.endRun
      | .fault => t.setRunState .faulted
      | .none => t
    | .fault _ => s
    | .refused _ => s

/-- START (R250) as one command. Each pull of a run takes at least 32 bytes or ends it (R340), so
`IN_LEN + 1` pulls are enough. -/
def State.startAtomic (s : State) : State :=
  let s1 := s.startCmd
  if s.runState ≠ .running ∧ s1.runState = .running then State.runLoop (s1.inp.len + 1) s1 else s1

/-- The state without the model's own record of where a run stands, which the spec does not have. -/
def State.forgetPlace (s : State) : State := { s with sch := .pull, muxCh := 0 }

end Sys2Proof.Machine
end

