-- ==== Sys2Proof/Safety.lean ====
section
/-! DEFINITION. What holds of the block between two steps: the invariant a safe run keeps, in parts. -/

namespace Sys2Proof.Machine

/-- A 17-bit position register holds -32768 to +32768 (R45, R223). -/
abbrev inRange (v : BitVec 17) : Prop := -32768 ≤ v.toInt ∧ v.toInt ≤ 32768

abbrev positionOk (p : Position) : Prop := inRange p.x ∧ inRange p.y ∧ inRange p.z

/-- `MAX_CH` has room for the three channels of R40 (log entry 1), and every store is in its canonical form and
holds no key its array does not have (R26, R29, R40, R46,
R50). -/
structure StoresOk (s : State) : Prop where
  maxCh : 3 ≤ s.params.maxCh ∧ s.params.maxCh ≤ 65535
  inp : s.inp.wf
  sink : s.sink.wf
  palValid : Cells.wf false s.pal.valid ∧ Cells.below 256 s.pal.valid
  palLen : Cells.wf 0 s.pal.len ∧ Cells.below 256 s.pal.len
  palRam : Cells.wf Rgb.black s.pal.ram ∧ Cells.below 65536 s.pal.ram
  fbPt : Cells.wf Point.zero s.fb.pt ∧ Cells.below Config.maxCount s.fb.pt
  cfgCh : Cells.wf 0 s.cfg.ch ∧ Cells.below s.params.maxCh s.cfg.ch
  latCh : Cells.wf 0 s.lat.ch ∧ Cells.below s.params.maxCh s.lat.ch
  sample : Cells.wf 0 s.wrk.sample ∧ Cells.below s.params.maxCh s.wrk.sample

/-- The error registers hold a row of the table of R280, or no error. -/
abbrev ErrRegs.ok (e : ErrRegs) : Prop :=
  match e.code with
  | .none => e.stage = .none ∧ e.info = 0 ∧ e.pos = 0
  | .corruptFormat => e.stage = .header ∧ e.info = 0
  | .unexpectedEof => (e.stage = .header ∧ e.info = 0) ∨ (e.stage = .body ∧ knownFormat e.info = true)
  | .unsupportedFormat => e.stage = .header ∧ knownFormat e.info = false
  | .invalidSignal => e.stage = .config ∧ isChannelCode e.info = false ∧ e.pos = 0
  | .nonSeekableSink => e.stage = .sink ∧ e.info = 0 ∧ e.pos = 0
  | .badConfig => e.stage = .config ∧ e.info = 0 ∧ e.pos = 0

/-- What `RESULT` says of `DEC_STATE` (R30, R141). -/
abbrev Decoder.resultOk (d : Decoder) : Prop :=
  match d.result with
  | .none => d.state = .awaitHeader
  | .frame => d.state = .awaitHeader
  | .palette => d.state = .awaitHeader
  | .endOfStream => d.state = .exhausted
  | .fault => d.state = .faulted

/-- The decoder between two pulls: the cursor is inside the stream (R24), no body is open (R22), a loaded
palette has 1 to 256 entries (R167), a frame has a point (R29). -/
structure DecoderOk (s : State) : Prop where
  cursor : s.dec.inPos ≤ s.inp.len
  result : s.dec.resultOk
  frame : s.dec.result = .frame → s.fb.count ≠ 0
  palettes : ∀ k, Cells.get false s.pal.valid k = true →
    1 ≤ (Cells.get 0 s.pal.len k).toNat ∧ (Cells.get 0 s.pal.len k).toNat ≤ 256

/-- The error registers and the states they go with (R280, R290, R323). -/
structure ErrorsOk (s : State) : Prop where
  row : s.err.ok
  decoder : s.dec.state = .faulted ↔ s.err.code.ofDecoder = true
  clear : s.err.code = .none → s.runState ≠ .faulted
  fatal : s.err.code ≠ .none → s.runState = .faulted ∨ (s.runState = .idle ∧ s.dec.state = .faulted)

/-- The latched configuration of a run (R43, R287) and its counters (R45). -/
structure ConfigOk (s : State) : Prop where
  fps : s.lat.fps ≠ 0
  pps : s.lat.pps ≠ 0
  nch : s.lat.nch ≠ 0 ∧ s.lat.nch.toNat ≤ s.params.maxCh
  codes : ∀ c < s.lat.nch.toNat, isChannelCode (Cells.get 0 s.lat.ch c) = true
  framePhase : s.hid.framePhase.toNat < s.lat.fps.toNat
  pointPhase : s.hid.pointPhase.toNat < s.lat.pps.toNat

/-- The working registers of a run at the place where it stands (R46). -/
abbrev State.placeOk (s : State) : Prop :=
  match s.sch with
  | .pull => True
  | .location => s.dec.result = .frame ∧ s.wrk.locIdx.toNat < s.fb.count.toNat
  | .subSample => s.dec.result = .frame ∧ s.wrk.locIdx.toNat < s.fb.count.toNat
      ∧ 1 ≤ s.wrk.subP.toNat ∧ s.wrk.subP.toNat ≤ s.wrk.locK.toNat
  | .channels => s.dec.result = .frame ∧ s.wrk.locIdx.toNat < s.fb.count.toNat
      ∧ 1 ≤ s.wrk.subP.toNat ∧ s.wrk.subP.toNat ≤ s.wrk.locK.toNat ∧ s.muxCh ≤ s.lat.nch.toNat

/-- The sink holds a container header that declares `len`, then `DATA_LEN` bytes of whole sample frames (R254,
R256). -/
structure SinkHolds (s : State) (len : Nat) : Prop where
  size : s.sink.len = 44 + s.hid.dataLen
  header : s.sink.readBytes 0 44 = some (containerHeader s.lat len)
  whole : 2 * s.lat.nch.toNat ∣ s.hid.dataLen

/-- The sink in each state of the run (R256, R258, R323): empty before START, the placeholder header
during a run and after a fault in it, the true header at the end. -/
abbrev State.sinkOk (s : State) : Prop :=
  match s.runState with
  | .idle => s.sink.len = 0 ∧ s.hid.dataLen = 0
  | .running => SinkHolds s 0
  | .done => SinkHolds s s.hid.dataLen ∧ s.dec.state = .exhausted
  | .faulted => s.sink.len = 0 ∨ SinkHolds s 0

/-- The positions are in their range (R45, R223). -/
structure PositionsOk (s : State) : Prop where
  last : positionOk s.hid.last
  cur : positionOk s.wrk.cur
  pos : positionOk s.wrk.pos

/-- The invariant of the block between two steps. -/
structure Inv (s : State) : Prop where
  stores : StoresOk s
  decoder : DecoderOk s
  errors : ErrorsOk s
  positions : PositionsOk s
  config : s.runState = .running → ConfigOk s
  place : s.runState = .running → s.placeOk
  sink : s.sinkOk

/-! Terms the statements use. -/

/-- A pull in a run or by the host that will read a header (R131): neither terminal state holds. -/
abbrev State.awaits (s : State) : Prop := s.dec.state = .awaitHeader

/-- The host's next command is `c` and the block is not in a run. -/
abbrev State.hostSends (s : State) (c : HostCmd) (rest : List HostCmd) : Prop :=
  s.runState ≠ .running ∧ s.host = c :: rest

/-- The next step is a RESET. -/
abbrev State.resetNext (s : State) : Prop := ∃ att rest, s.hostSends (.reset att) rest

/-- The error registers after a raise in `s` (R48, R290). -/
abbrev State.errAfter (s : State) (code : ErrCode) (stage : ErrStage) (info : Byte) (pos : Nat) : ErrRegs :=
  if s.err.code = .none then ⟨code, stage, info, pos⟩ else s.err

/-- `RUN_STATE` after a decoder error in `s` (R290). -/
abbrev State.runStateAfterError (s : State) : RunState := if s.runState = .running then .faulted else s.runState

/-- What no block instruction changes: the parameters, the configuration and its latched copies, the scheduler's
registers, both external stores byte by byte, and the model's own place and pending commands. -/
structure BlockFrame (s t : State) : Prop where
  params : t.params = s.params
  cfg : t.cfg = s.cfg
  lat : t.lat = s.lat
  hid : t.hid = s.hid
  wrk : t.wrk = s.wrk
  inpLen : t.inp.len = s.inp.len
  inp : ∀ a, t.inp.readByte a = s.inp.readByte a
  sinkLen : t.sink.len = s.sink.len
  sink : ∀ a, t.sink.readByte a = s.sink.readByte a
  sinkSeekable : t.sinkSeekable = s.sinkSeekable
  sch : t.sch = s.sch
  muxCh : t.muxCh = s.muxCh
  host : t.host = s.host

/-- A block that was read to its end: `RESULT` is `r`, the decoder awaits the next header at the byte after the
block, and there is no error (R131, R134). -/
structure BlockRead (s t : State) (r : PullResult) (size : Nat) : Prop where
  result : t.dec.result = r
  state : t.dec.state = .awaitHeader
  inPos : t.dec.inPos = s.dec.inPos + size
  err : t.err = s.err
  runState : t.runState = s.runState
  freeCtr : t.freeCtr = s.freeCtr

/-- A block of `count` records of `size` bytes whose stream ends inside its body (R62, R160, R281, R290): the error
names the first record that could not be read. -/
structure BlockCut (s t : State) (size count : Nat) (f : Byte) : Prop where
  result : t.dec.result = .fault
  state : t.dec.state = .faulted
  inPos : t.dec.inPos = s.inp.len
  err : ∃ j, j < count ∧ s.dec.inPos + j * size ≤ s.inp.len ∧ s.inp.len < s.dec.inPos + (j + 1) * size ∧
    t.err = s.errAfter .unexpectedEof .body f (s.dec.inPos + j * size)
  runState : t.runState = s.runStateAfterError

/-- The frame buffer after a block of points (R29, R134): the source, the count, and each point from its own record,
as `point` reads it. -/
structure FrameRead (s t : State) (h : Header) (size : Nat) (point : List Byte → Point) : Prop where
  srcid : t.fb.srcid = h.srcid
  count : t.fb.count = h.count
  points : ∀ i < h.count.toNat, ∀ rec, s.inp.readBytes (s.dec.inPos + i * size) size = some rec →
    Cells.get Point.zero t.fb.pt i = point rec
  rest : ∀ i, h.count.toNat ≤ i → Cells.get Point.zero t.fb.pt i = Cells.get Point.zero s.fb.pt i
  pal : t.pal = s.pal

end Sys2Proof.Machine
end

