-- ==== Sys2Proof/Certificates/Slice0/Obligations.lean ====
section
/-! DEFINITION. The statements about the block, for the provers. Each docstring names the rule it says. -/

open Sys2Proof Sys2Proof.Machine

/-! Encoding. -/

/-- R91, R95, R110: every operand of every well-formed instruction survives encoding and decoding, whatever the
parameters of the block. That the decoder tells a channel code from a header by the length is the model's (log entry
4). -/
def Obligations.DecodeUndoesEncode : Prop :=
  ∀ (p : Params) (i : Instr), wellFormed i = true → decode p (encode p i) = .ok i

/-- R91, R95: no two encodings decode to one instruction, and the decoder answers only well-formed ones. The two
lengths are the model's (log entry 4). -/
def Obligations.EncodeUndoesDecode : Prop :=
  ∀ (p : Params) (bs : List Byte) (i : Instr), bs.length = 1 ∨ bs.length = 32 → decode p bs = .ok i →
    wellFormed i = true ∧ encode p i = bs

/-- R91, R95, R96, R110: words written out from the spec's layouts decode to what they stand for. -/
def Obligations.SpecWordsDecode : Prop :=
  let z16 : List Byte := List.replicate 16 0
  let hdr := fun (f : Byte) (c0 c1 src : Byte) =>
    ([0x49, 0x4C, 0x44, 0x41, 0, 0, 0, f] : List Byte) ++ z16 ++ [c0, c1, 0, 0, 0, 0, src, 0]
  let head := fun (c : BitVec 16) (src : Byte) => (⟨0, 0, 0, c, 0, 0, src, 0⟩ : Header)
  decode Params.default (hdr 0 0 1 7) = .ok (.idx3d (head 1 7)) ∧
  decode Params.default (hdr 1 1 0 3) = .ok (.idx2d (head 256 3)) ∧
  decode Params.default (hdr 2 0 2 7) = .ok (.pal (head 2 7)) ∧
  decode Params.default (hdr 4 0 1 2) = .ok (.tc3d (head 1 2)) ∧
  decode Params.default (hdr 5 0xFF 0xFF 0) = .ok (.tc2d (head 65535 0)) ∧
  decode Params.default (hdr 9 0 0 0) = .ok (.endBlock 9 (head 0 0)) ∧
  decode Params.default (hdr 3 0 1 0) = .ok (.illegal 3 (head 1 0)) ∧
  decode Params.default (hdr 0x80 0 1 0) = .ok (.illegal 0x80 (head 1 0)) ∧
  decode Params.default (List.replicate 32 0) = .error .badMagic ∧
  decode Params.default [0x78] = .ok .sigX ∧ decode Params.default [0x6C] = .ok .sigL ∧
  decode Params.default [0x62] = .ok .sigB ∧ decode Params.default [0x58] = .error .unknownChannelCode

/-- R95, R96 and the opcode table's rows: masks and matches over header bytes 0..7 as one big-endian number, with
the count condition. -/
def Obligations.DecoderFollowsOpcodeTable : Prop :=
  ∀ (bs : List Byte), bs.length = 32 →
    let b := fun i => bs.getD i 0
    let first8 := join8 (b 0) (b 1) (b 2) (b 3) (b 4) (b 5) (b 6) (b 7)
    let count := u16be (b 24) (b 25)
    let row := fun (m : BitVec 64) => first8 &&& 0xFFFFFFFF000000FF = m ∧ count ≠ 0
    let h := headerFields bs
    let answers := fun i => decode Params.default bs = .ok i
    (answers (.endBlock (b 7) h) ↔ first8 &&& 0xFFFFFFFF00000000 = 0x494C444100000000 ∧ count = 0) ∧
    (answers (.idx3d h) ↔ row 0x494C444100000000) ∧ (answers (.idx2d h) ↔ row 0x494C444100000001) ∧
    (answers (.pal h) ↔ row 0x494C444100000002) ∧ (answers (.tc3d h) ↔ row 0x494C444100000004) ∧
    (answers (.tc2d h) ↔ row 0x494C444100000005) ∧
    (answers (.illegal (b 7) h) ↔ first8 &&& 0xFFFFFFFF00000000 = 0x494C444100000000 ∧ count ≠ 0 ∧
      ¬ row 0x494C444100000000 ∧ ¬ row 0x494C444100000001 ∧ ¬ row 0x494C444100000002 ∧
      ¬ row 0x494C444100000004 ∧ ¬ row 0x494C444100000005)

/-- R9, R65, R101: input fields are big-endian, the first byte high; the sign is two's complement. -/
def Obligations.FieldAssembly : Prop :=
  ∀ (b0 b1 : Byte), (u16be b0 b1).toNat = 256 * b0.toNat + b1.toNat ∧
    (u16be b0 b1).toInt = (if 256 * b0.toNat + b1.toNat < 32768 then (256 * b0.toNat + b1.toNat : Int)
      else (256 * b0.toNat + b1.toNat : Int) - 65536)

/-- R98: two headers that differ only in ignored bytes are the same to the block, and so are two records that differ
only in the ignored status bits or in the colour bytes of a blanked point. -/
def Obligations.IgnoredBitsHaveNoEffect : Prop :=
  (∀ (p : Params) (bs bs' : List Byte), bs.length = 32 → bs'.length = 32 →
    (∀ i ∈ [0, 1, 2, 3, 7, 24, 25, 30], bs.getD i 0 = bs'.getD i 0) →
    (∃ e, decode p bs = .error e ∧ decode p bs' = .error e) ∨
    (∃ i i', decode p bs = .ok i ∧ decode p bs' = .ok i' ∧ ∀ s, exec i s = exec i' s)) ∧
  (∀ (p : PaletteTable) (s status status' idx : Byte), status.getLsbD 6 = status'.getLsbD 6 →
    indexedColour p s status idx = indexedColour p s status' idx) ∧
  (∀ (status status' b g r : Byte), status.getLsbD 6 = status'.getLsbD 6 →
    trueColour status b g r = trueColour status' b g r) ∧
  (∀ (p : PaletteTable) (s status idx idx' b g r b' g' r' : Byte), status.getLsbD 6 = true →
    indexedColour p s status idx = indexedColour p s status idx' ∧
    trueColour status b g r = trueColour status b' g' r')

/-! A step runs the decoded instruction. -/

/-- R131: the host's PULL runs the block whose header stands at `IN_POS`, with the cursor past the header. That the
host's commands stand in a list is the model's (log entry 7). -/
def Obligations.PullStepRunsDecodedBlock : Prop :=
  ∀ (s : State) (rest : List HostCmd) (bs : List Byte) (i : Instr), s.runState = .idle → s.host = .pull :: rest →
    s.awaits → s.inp.readBytes s.dec.inPos 32 = some bs → decode s.params bs = .ok i →
    step s = exec i ((s.setHost rest).setInPos (s.dec.inPos + 32))

/-- R131, R192: the run's pull runs the block whose header stands at `IN_POS`, with the cursor past the header, and
goes on as the result of the pull says. The places of a run between two steps are the model's (log entry 6). -/
def Obligations.RunPullStepRunsDecodedBlock : Prop :=
  ∀ (s : State) (bs : List Byte) (i : Instr), s.runState = .running → s.sch = .pull → s.awaits →
    s.inp.readBytes s.dec.inPos 32 = some bs → decode s.params bs = .ok i →
    ∃ t, exec i (s.setInPos (s.dec.inPos + 32)) = .next t ∧ step s = .next t.afterPull

/-- R222, R233: the selector in the register of the channel that is next is what the step runs. The places of a run
between two steps are the model's (log entry 6). -/
def Obligations.ChannelStepRunsSelector : Prop :=
  ∀ (s : State) (i : Instr), s.runState = .running → s.sch = .channels → s.muxCh < s.lat.nch.toNat →
    decode s.params [Cells.get 0 s.lat.ch s.muxCh] = .ok i → step s = exec i s

/-! The host's commands. -/

/-- R47: when each of the three commands is accepted, what it does then, and that it changes nothing otherwise. That
the host's commands stand in a list is the model's (log entry 7). That the step of START ends where its run begins is
the model's too (log entry 6), and StepsReachAtomicStart says where the run ends. -/
def Obligations.HostCommandsAccepted : Prop :=
  ∀ (s : State) (rest : List HostCmd), s.runState ≠ .running →
    (∀ att, s.host = .reset att :: rest → step s = .next ((s.setHost rest).resetCmd att)) ∧
    (s.host = .pull :: rest → s.runState = .idle → step s = (s.setHost rest).nextFrame) ∧
    (s.host = .pull :: rest → s.runState ≠ .idle → step s = .next (s.setHost rest)) ∧
    (s.host = .start :: rest → s.runState = .idle → s.err.code = .none →
      ∃ t, step s = .next t ∧ (t.runState = .running ∨ t.runState = .faulted)) ∧
    (s.host = .start :: rest → ¬ (s.runState = .idle ∧ s.err.code = .none) → step s = .next (s.setHost rest))

/-- R40: the host's writes of the configuration registers; every value is written, legal or not, and nothing else
changes. The model also writes outside `IDLE` (log entry 13), and a channel register that does not exist is not
written (log entry 10). That the host's commands stand in a list is the model's (log entry 7). -/
def Obligations.ConfigurationWrites : Prop :=
  ∀ (s : State) (rest : List HostCmd),
    (∀ v, s.hostSends (.writeFps v) rest → step s = .next { s with host := rest, cfg := { s.cfg with fps := v } }) ∧
    (∀ v, s.hostSends (.writePps v) rest → step s = .next { s with host := rest, cfg := { s.cfg with pps := v } }) ∧
    (∀ v, s.hostSends (.writeRate v) rest → step s = .next { s with host := rest, cfg := { s.cfg with rate := v } }) ∧
    (∀ v, s.hostSends (.writeNch v) rest → step s = .next { s with host := rest, cfg := { s.cfg with nch := v } }) ∧
    (∀ v, s.hostSends (.writeInvert v) rest →
      step s = .next { s with host := rest, cfg := { s.cfg with invert := v } }) ∧
    (∀ c v, s.hostSends (.writeCh c v) rest → c < s.params.maxCh →
      ∃ t, step s = .next t ∧ Cells.get 0 t.cfg.ch c = v ∧
        (∀ d, d ≠ c → Cells.get 0 t.cfg.ch d = Cells.get 0 s.cfg.ch d) ∧
        t = { s with host := rest, cfg := { s.cfg with ch := t.cfg.ch } }) ∧
    (∀ c v, s.hostSends (.writeCh c v) rest → s.params.maxCh ≤ c → step s = .next (s.setHost rest))

/-- R320: what RESET leaves outside a run, where the spec gives the value, for any attachment. A RESET during a run
waits for its end (log entry 7). That the parameters and the later commands stay is log entries 1 and 7, and that a
RESET without an attachment keeps `IN` and `SINK_SEEKABLE` is log entries 9 and 14. -/
def Obligations.ResetCommandRestores : Prop :=
  ∀ (s : State) (att : Option Attachment) (rest : List HostCmd), s.hostSends (.reset att) rest →
    ∃ t, step s = .next t ∧ t.dec.state = .awaitHeader ∧ t.dec.inPos = 0 ∧ t.dec.result = .none ∧
      (∀ k, Cells.get false t.pal.valid k = false) ∧
      t.cfg.fps = 20 ∧ t.cfg.rate = 44100 ∧ t.cfg.pps = 20000 ∧ t.cfg.nch = 3 ∧
      Cells.get 0 t.cfg.ch 0 = 0x78 ∧ Cells.get 0 t.cfg.ch 1 = 0x79 ∧ Cells.get 0 t.cfg.ch 2 = 0x6C ∧
      t.cfg.invert = 0 ∧ t.runState = .idle ∧ t.hid = ⟨0, 0, ⟨0, 0, 0⟩, 0⟩ ∧ t.err = ⟨.none, .none, 0, 0⟩ ∧
      t.sink.len = 0 ∧ t.params = s.params ∧ t.host = rest ∧
      (att = none → t.inp = s.inp ∧ t.sinkSeekable = s.sinkSeekable) ∧
      (∀ a, att = some a → t.sinkSeekable = a.seekable ∧ t.inp.wf ∧
        t.inp.readBytes 0 a.stream.length = some a.stream ∧ t.inp.len = a.stream.length)

/-- R320: the state the machine starts in, where the spec gives the value. -/
def Obligations.ResetStateAsSpec : Prop :=
  let t := State.reset
  t.dec.state = .awaitHeader ∧ t.dec.inPos = 0 ∧ t.dec.result = .none ∧
    (∀ k, Cells.get false t.pal.valid k = false) ∧
    t.cfg.fps = 20 ∧ t.cfg.rate = 44100 ∧ t.cfg.pps = 20000 ∧ t.cfg.nch = 3 ∧
    Cells.get 0 t.cfg.ch 0 = 0x78 ∧ Cells.get 0 t.cfg.ch 1 = 0x79 ∧ Cells.get 0 t.cfg.ch 2 = 0x6C ∧
    t.cfg.invert = 0 ∧ t.runState = .idle ∧
    t.hid = ⟨0, 0, ⟨0, 0, 0⟩, 0⟩ ∧ t.err = ⟨.none, .none, 0, 0⟩ ∧ t.sink.len = 0 ∧
    t.dec.state.code = 0 ∧ t.dec.result.code = 0 ∧ t.runState.code = 0 ∧ t.err.code.code = 0 ∧
    t.err.stage.code = 0 ∧ t.doneOut = false ∧ t.faultOut = false

/-! The decoder. -/

/-- R137, R138: a pull in a terminal state reads nothing and changes nothing but `RESULT`. Whoever pulls, the host
among them. That the host's commands stand in a list is the model's (log entry 7). -/
def Obligations.PullInTerminalState : Prop :=
  ∀ s : State,
    (s.dec.state = .exhausted → s.nextFrame = .next { s with dec := { s.dec with result := .endOfStream } }) ∧
    (s.dec.state = .faulted → s.nextFrame = .next { s with dec := { s.dec with result := .fault } }) ∧
    ∀ rest : List HostCmd, s.runState = .idle → s.host = .pull :: rest →
      (s.dec.state = .exhausted → step s = .next { s with host := rest, dec := { s.dec with result := .endOfStream } }) ∧
      (s.dec.state = .faulted → step s = .next { s with host := rest, dec := { s.dec with result := .fault } })

/-- R62, R132, R282, R290: fewer than 32 bytes at a header, none included, raise UnexpectedEof, whatever the bytes
are; the whole next state. Whoever pulls: the host, or a run, which ends in `FAULTED`. The list of commands and the
places of a run are the model's (log entries 7 and 6). -/
def Obligations.ShortHeaderFaults : Prop :=
  ∀ s : State, s.awaits → s.inp.len < s.dec.inPos + 32 →
    let after := fun (run : RunState) => { s with
      dec := { s.dec with state := .faulted, result := .fault, inPos := s.inp.len }
      err := s.errAfter .unexpectedEof .header 0 s.dec.inPos
      runState := run }
    s.nextFrame = .next (after s.runStateAfterError) ∧
    (∀ rest : List HostCmd, s.runState = .idle → s.host = .pull :: rest →
      step s = .next { after .idle with host := rest }) ∧
    (s.runState = .running → s.sch = .pull → step s = .next (after .faulted))

/-- R132, R281, R290: a header whose first four bytes are not MAGIC raises CorruptFormat, whatever the rest holds; the
whole next state. Whoever pulls: the host, or a run, which ends in `FAULTED`. The list of commands and the places of a
run are the model's (log entries 7 and 6). -/
def Obligations.WrongMagicFaults : Prop :=
  ∀ (s : State) (bs : List Byte), s.awaits → s.inp.readBytes s.dec.inPos 32 = some bs →
    bs.take 4 ≠ split4 s.params.magic →
    let after := fun (run : RunState) => { s with
      dec := { s.dec with state := .faulted, result := .fault, inPos := s.dec.inPos + 32 }
      err := s.errAfter .corruptFormat .header 0 s.dec.inPos
      runState := run }
    s.nextFrame = .next (after s.runStateAfterError) ∧
    (∀ rest : List HostCmd, s.runState = .idle → s.host = .pull :: rest →
      step s = .next { after .idle with host := rest }) ∧
    (s.runState = .running → s.sch = .pull → step s = .next (after .faulted))

/-- R135: END ends the stream; nothing else changes, whatever the format code and the source. -/
def Obligations.EndBlockEndsStream : Prop :=
  ∀ (f : Byte) (h : Header) (s : State), exec (.endBlock f h) s =
    .next { s with dec := { s.dec with state := .exhausted, result := .endOfStream } }

/-- R136, R281, R290: an unsupported format code raises UnsupportedFormat with the code, at the header's first byte,
with no record read; the whole next state. -/
def Obligations.IllegalBlockFaults : Prop :=
  ∀ (f : Byte) (h : Header) (s : State), exec (.illegal f h) s = .next { s with
    dec := { s.dec with state := .faulted, result := .fault }
    runState := s.runStateAfterError
    err := s.errAfter .unsupportedFormat .header f (s.dec.inPos - 32) }

/-- R161, R163, R134: an IDX3D block with all its records in the stream is a frame of its points. The header latches
and `REC_IDX` are written too and left unstated, since R25 gives them no value after a pull. That entries at or above
the count stay is the model's (log entry 16). -/
def Obligations.Idx3dReadsFrame : Prop :=
  ∀ (h : Header) (s : State), s.dec.inPos + h.count.toNat * 8 ≤ s.inp.len →
    ∃ t, exec (.idx3d h) s = .next t ∧ BlockRead s t .frame (h.count.toNat * 8) ∧ BlockFrame s t ∧
      FrameRead s t h 8 fun r => ⟨u16be (r.getD 0 0) (r.getD 1 0), u16be (r.getD 2 0) (r.getD 3 0),
        u16be (r.getD 4 0) (r.getD 5 0),
        if (r.getD 6 0).getLsbD 6 then Rgb.black else s.pal.resolve h.srcid (r.getD 7 0)⟩

/-- R162, R163, R99, R134: an IDX2D block under either layout of format code 1. The header latches and `REC_IDX` are
written too and left unstated, since R25 gives them no value after a pull. That entries at or above the count stay is
the model's (log entry 16). -/
def Obligations.Idx2dReadsFrame : Prop :=
  ∀ (h : Header) (s : State),
    (s.params.fmt1Layout = .own6 → s.dec.inPos + h.count.toNat * 6 ≤ s.inp.len →
      ∃ t, exec (.idx2d h) s = .next t ∧ BlockRead s t .frame (h.count.toNat * 6) ∧ BlockFrame s t ∧
        FrameRead s t h 6 fun r => ⟨u16be (r.getD 0 0) (r.getD 1 0), u16be (r.getD 2 0) (r.getD 3 0), 0,
          if (r.getD 4 0).getLsbD 6 then Rgb.black else s.pal.resolve h.srcid (r.getD 5 0)⟩) ∧
    (s.params.fmt1Layout = .as3d8 → s.dec.inPos + h.count.toNat * 8 ≤ s.inp.len →
      ∃ t, exec (.idx2d h) s = .next t ∧ BlockRead s t .frame (h.count.toNat * 8) ∧ BlockFrame s t ∧
        FrameRead s t h 8 fun r => ⟨u16be (r.getD 0 0) (r.getD 1 0), u16be (r.getD 2 0) (r.getD 3 0),
          u16be (r.getD 4 0) (r.getD 5 0),
          if (r.getD 6 0).getLsbD 6 then Rgb.black else s.pal.resolve h.srcid (r.getD 7 0)⟩)

/-- R164, R134: a TC3D block; the colour bytes are blue, green, red. The header latches and `REC_IDX` are written too
and left unstated, since R25 gives them no value after a pull. That entries at or above the count stay is the model's
(log entry 16). -/
def Obligations.Tc3dReadsFrame : Prop :=
  ∀ (h : Header) (s : State), s.dec.inPos + h.count.toNat * 10 ≤ s.inp.len →
    ∃ t, exec (.tc3d h) s = .next t ∧ BlockRead s t .frame (h.count.toNat * 10) ∧ BlockFrame s t ∧
      FrameRead s t h 10 fun r => ⟨u16be (r.getD 0 0) (r.getD 1 0), u16be (r.getD 2 0) (r.getD 3 0),
        u16be (r.getD 4 0) (r.getD 5 0),
        if (r.getD 6 0).getLsbD 6 then Rgb.black else ⟨r.getD 9 0, r.getD 8 0, r.getD 7 0⟩⟩

/-- R165, R134: a TC2D block; z is 0. The header latches and `REC_IDX` are written too and left unstated, since R25
gives them no value after a pull. That entries at or above the count stay is the model's (log entry 16). -/
def Obligations.Tc2dReadsFrame : Prop :=
  ∀ (h : Header) (s : State), s.dec.inPos + h.count.toNat * 8 ≤ s.inp.len →
    ∃ t, exec (.tc2d h) s = .next t ∧ BlockRead s t .frame (h.count.toNat * 8) ∧ BlockFrame s t ∧
      FrameRead s t h 8 fun r => ⟨u16be (r.getD 0 0) (r.getD 1 0), u16be (r.getD 2 0) (r.getD 3 0), 0,
        if (r.getD 4 0).getLsbD 6 then Rgb.black else ⟨r.getD 7 0, r.getD 6 0, r.getD 5 0⟩⟩

/-- R166: a PAL block with all its records in the stream replaces the palette of its source and no other; the frame
buffer is not written. The header latches and `REC_IDX` are written too and left unstated, since R25 gives them no
value after a pull. -/
def Obligations.PalReplacesPalette : Prop :=
  ∀ (h : Header) (s : State), s.dec.inPos + h.count.toNat * 3 ≤ s.inp.len →
    ∃ t, exec (.pal h) s = .next t ∧ BlockRead s t .palette (h.count.toNat * 3) ∧ BlockFrame s t ∧ t.fb = s.fb ∧
      Cells.get false t.pal.valid h.srcid.toNat = true ∧
      (Cells.get 0 t.pal.len h.srcid.toNat).toNat = min h.count.toNat 256 ∧
      (∀ i < min h.count.toNat 256, ∀ rec, s.inp.readBytes (s.dec.inPos + i * 3) 3 = some rec →
        Cells.get Rgb.black t.pal.ram (256 * h.srcid.toNat + i) = ⟨rec.getD 0 0, rec.getD 1 0, rec.getD 2 0⟩) ∧
      ∀ k, k ≠ h.srcid.toNat →
        Cells.get false t.pal.valid k = Cells.get false s.pal.valid k ∧
        Cells.get 0 t.pal.len k = Cells.get 0 s.pal.len k ∧
        ∀ i < 256, Cells.get Rgb.black t.pal.ram (256 * k + i) = Cells.get Rgb.black s.pal.ram (256 * k + i)

/-- R72, R163, R166, R334: after a palette load every index of its source resolves through the new palette alone, black
from its length on, and no other source's colours change. -/
def Obligations.PaletteLoadIsSeenByLaterLookups : Prop :=
  ∀ (h : Header) (s t : State), h.count ≠ 0 → s.dec.inPos + h.count.toNat * 3 ≤ s.inp.len →
    exec (.pal h) s = .next t →
    (∀ idx : Byte, idx.toNat < h.count.toNat → ∀ rec, s.inp.readBytes (s.dec.inPos + idx.toNat * 3) 3 = some rec →
      t.pal.resolve h.srcid idx = ⟨rec.getD 0 0, rec.getD 1 0, rec.getD 2 0⟩) ∧
    (∀ idx : Byte, h.count.toNat ≤ idx.toNat → t.pal.resolve h.srcid idx = Rgb.black) ∧
    (∀ src idx : Byte, src ≠ h.srcid → t.pal.resolve src idx = s.pal.resolve src idx)

/-- R62, R160, R281, R282, R290: where the stream ends inside a body, the five record formats raise
UnexpectedEof(BODY) with the format code, at the first record that could not be read. The header latches, `REC_IDX`
and what U2 and U3 leave open are left unstated (log entry 3). -/
def Obligations.ShortBodyFaults : Prop :=
  ∀ (h : Header) (s : State), s.dec.inPos ≤ s.inp.len →
    (∀ k : PointKind, s.inp.len < s.dec.inPos + h.count.toNat * k.recSize s.params.fmt1Layout →
      ∃ t, exec (match k with | .idx3d => .idx3d h | .idx2d => .idx2d h | .tc3d => .tc3d h | .tc2d => .tc2d h) s = .next t ∧
        BlockCut s t (k.recSize s.params.fmt1Layout) h.count.toNat k.format ∧ BlockFrame s t ∧ t.pal = s.pal) ∧
    (s.inp.len < s.dec.inPos + h.count.toNat * 3 →
      ∃ t, exec (.pal h) s = .next t ∧ BlockCut s t 3 h.count.toNat 2 ∧ BlockFrame s t ∧ t.fb = s.fb ∧
        ∀ k, k ≠ h.srcid.toNat →
          Cells.get false t.pal.valid k = Cells.get false s.pal.valid k ∧
          Cells.get 0 t.pal.len k = Cells.get 0 s.pal.len k ∧
          ∀ i < 256, Cells.get Rgb.black t.pal.ram (256 * k + i) = Cells.get Rgb.black s.pal.ram (256 * k + i))

/-- R24, R60: no step but RESET moves the cursor back or past the end, and none changes the stream. -/
def Obligations.CursorOnlyGrows : Prop :=
  ∀ s t : State, s.dec.inPos ≤ s.inp.len → ¬ s.resetNext → step s = .next t →
    s.dec.inPos ≤ t.dec.inPos ∧ t.dec.inPos ≤ t.inp.len ∧ t.inp = s.inp

/-- R290, R48: fault entry, register by register, for each of the six errors. -/
def Obligations.FaultEntry : Prop :=
  ∀ (s : State) (code : ErrCode) (stage : ErrStage) (info : Byte) (pos : Nat) (inStart : Bool),
    s.raise code stage info pos inStart = { s with
      err := s.errAfter code stage info pos
      dec := if code = .corruptFormat ∨ code = .unexpectedEof ∨ code = .unsupportedFormat then
          { s.dec with state := .faulted, result := .fault } else s.dec
      runState := if s.runState = .running ∨ inStart = true then .faulted else s.runState }

/-- R48, R292: once an error is recorded, no step but RESET changes the error registers, moves the cursor, touches the
palette table or the frame buffer, or writes the sink. -/
def Obligations.OnlyResetLeavesFault : Prop :=
  ∀ s t : State, Inv s → s.err.code ≠ .none → ¬ s.resetNext → step s = .next t →
    t.err = s.err ∧ t.runState = s.runState ∧ t.dec.state = s.dec.state ∧ t.dec.inPos = s.dec.inPos ∧
      t.pal = s.pal ∧ t.fb = s.fb ∧ t.sink = s.sink ∧ t.hid = s.hid

/-! The arbiter. -/

/-- R191 (a): the groups of a fair distribution sum to the total. -/
def Obligations.GroupSizesSumToTotal : Prop :=
  ∀ T G : Nat, 0 < G → ((List.range G).map (groupSize T G)).sum = T

/-- R191 (b), (d), (e), (f), (g): the bounds, the period, the first and last group, the small totals, and the
accumulator form. -/
def Obligations.GroupSizeLaws : Prop :=
  ∀ T G i : Nat, 0 < G →
    T / G ≤ groupSize T G i ∧ groupSize T G i ≤ T / G + 1 ∧
    (T % G = 0 → groupSize T G i = T / G) ∧
    groupSize T G (i + G) = groupSize T G i ∧
    groupSize T G 0 = T / G ∧
    (0 < T % G → groupSize T G (G - 1) = T / G + 1) ∧
    groupSize T 1 0 = T ∧ groupSize 0 G i = 0 ∧
    (groupSize T G i = T / G + 1 ↔ G ≤ (i * (T % G)) % G + T % G ∧ 0 < T % G) ∧
    ((i + 1) * (T % G)) % G = (if G ≤ (i * (T % G)) % G + T % G then (i * (T % G)) % G + T % G - G
      else (i * (T % G)) % G + T % G)

/-- R191 (f), R194: with fewer units than groups, exactly `G - T` groups get none. -/
def Obligations.SkippedLocationCount : Prop :=
  ∀ T G : Nat, 0 < G → T ≤ G → ((List.range G).filter fun i => groupSize T G i = 0).length = G - T

/-- R192: what the run does after a pull: a frame gets its budget and the frame phase moves on modulo FPS; a palette
load is followed by a pull; a fault ends the run with the sink as it is (R258). The places of a run between two steps
are the model's (log entry 6). -/
def Obligations.RunGoesOnAfterPull : Prop :=
  ∀ s t : State, s.runState = .running → s.sch = .pull → s.nextFrame = .next t →
    (t.dec.result = .frame → step s = .next { t with
      wrk := { t.wrk with
        budget := BitVec.ofNat 32 (groupSize t.lat.pps.toNat t.lat.fps.toNat t.hid.framePhase.toNat), locIdx := 0 }
      hid := { t.hid with framePhase := BitVec.ofNat 32 ((t.hid.framePhase.toNat + 1) % t.lat.fps.toNat) }
      sch := .location }) ∧
    (t.dec.result = .palette → step s = .next { t with sch := .pull }) ∧
    (t.dec.result = .fault → step s = .next { t with runState := .faulted } ∧ t.sink = s.sink)

/-- R193, R194: a location's share of the budget; a location with none is skipped and writes only `LOC_K`, `LOC_IDX`
and the place; a location with some starts with its inverted coordinates. The places of a run between two steps are
the model's (log entry 6). -/
def Obligations.LocationStep : Prop :=
  ∀ s : State, s.runState = .running → s.sch = .location →
    let location := Cells.get Point.zero s.fb.pt s.wrk.locIdx.toNat
    let k := BitVec.ofNat 32 (groupSize s.wrk.budget.toNat s.fb.count.toNat s.wrk.locIdx.toNat)
    (k ≠ 0 → step s = .next { s with
      wrk := { s.wrk with locK := k, subP := 1, cur := invertPoint s.lat.invert location }
      sch := .subSample }) ∧
    (k = 0 → s.wrk.locIdx.toNat + 1 < s.fb.count.toNat → step s = .next { s with
      wrk := { s.wrk with locK := k, locIdx := s.wrk.locIdx + 1 }, sch := .location }) ∧
    (k = 0 → s.fb.count.toNat ≤ s.wrk.locIdx.toNat + 1 → step s = .next { s with
      wrk := { s.wrk with locK := k }, sch := .pull })

/-- R222, R196: a sub-sample's position and hold count; the point phase moves on modulo PPS. The places of a run
between two steps are the model's (log entry 6). The three axes are independent. -/
def Obligations.SubSampleStep : Prop :=
  ∀ s : State, s.runState = .running → s.sch = .subSample →
    let axis := fun last cur => interpAxis last cur s.wrk.subP.toNat s.wrk.locK.toNat
    step s = .next { s with
    wrk := { s.wrk with
      pos := ⟨axis s.hid.last.x s.wrk.cur.x, axis s.hid.last.y s.wrk.cur.y, axis s.hid.last.z s.wrk.cur.z⟩
      repN := BitVec.ofNat 32 (groupSize s.lat.rate.toNat s.lat.pps.toNat s.hid.pointPhase.toNat) }
    hid := { s.hid with pointPhase := BitVec.ofNat 32 ((s.hid.pointPhase.toNat + 1) % s.lat.pps.toNat) }
    sch := .channels
    muxCh := 0 }

/-- R254, R222, R224: when every channel has its sample the sink gets `REP_N` copies of the sample frame after what it
held, and the last position changes only after the location's last sub-sample. The places of a run between two steps
are the model's (log entry 6). -/
def Obligations.EmissionStep : Prop :=
  ∀ s : State, s.runState = .running → s.sch = .channels → s.lat.nch.toNat ≤ s.muxCh →
    ∃ t, step s = .next t ∧
      t.sink.len = s.sink.len + s.wrk.repN.toNat * (2 * s.lat.nch.toNat) ∧
      (∀ a < s.sink.len, t.sink.readByte a = s.sink.readByte a) ∧
      (∀ j < s.wrk.repN.toNat, ∀ c < s.lat.nch.toNat,
        let at_ := s.sink.len + j * (2 * s.lat.nch.toNat) + 2 * c
        t.sink.readByte at_ = some (byteOf (Cells.get 0 s.wrk.sample c) 0) ∧
        t.sink.readByte (at_ + 1) = some (byteOf (Cells.get 0 s.wrk.sample c) 1)) ∧
      t.hid.dataLen = s.hid.dataLen + s.wrk.repN.toNat * (2 * s.lat.nch.toNat) ∧
      t.hid.last = (if s.wrk.subP.toNat < s.wrk.locK.toNat then s.hid.last else s.wrk.cur) ∧
      (s.wrk.subP.toNat < s.wrk.locK.toNat →
        t.sch = .subSample ∧ t.wrk = { s.wrk with subP := s.wrk.subP + 1 }) ∧
      (s.wrk.locK.toNat ≤ s.wrk.subP.toNat → s.wrk.locIdx.toNat + 1 < s.fb.count.toNat →
        t.sch = .location ∧ t.wrk = { s.wrk with locIdx := s.wrk.locIdx + 1 }) ∧
      (s.wrk.locK.toNat ≤ s.wrk.subP.toNat → s.fb.count.toNat ≤ s.wrk.locIdx.toNat + 1 →
        t.sch = .pull ∧ t.wrk = s.wrk) ∧
      t = { s with sink := t.sink, hid := { s.hid with dataLen := t.hid.dataLen, last := t.hid.last }, sch := t.sch,
                   wrk := t.wrk }

/-! The interpolator and the multiplexer. -/

/-- R220, R42: inversion is exact in 17 bits, axis by axis, by the bits of `INV`. -/
def Obligations.InversionIsExact : Prop :=
  ∀ (inv : BitVec 3) (p : Point),
    (invertPoint inv p).x.toInt = (if inv.getLsbD 0 then -p.x.toInt else p.x.toInt) ∧
    (invertPoint inv p).y.toInt = (if inv.getLsbD 1 then -p.y.toInt else p.y.toInt) ∧
    (invertPoint inv p).z.toInt = (if inv.getLsbD 2 then -p.z.toInt else p.z.toInt)

/-- R223: the interpolated position is the rule's integer, it ends at the location, it lies between the last position
and the location, it stays in the range of the register, and one sub-sample is the location itself; and the rule's own
examples. -/
def Obligations.InterpolationLaws : Prop :=
  (∀ (last cur : BitVec 17) (p k : Nat), inRange last → inRange cur → 1 ≤ p → p ≤ k →
    (interpAxis last cur p k).toInt = last.toInt + Int.tdiv ((cur.toInt - last.toInt) * p) k ∧
    interpAxis last cur k k = cur ∧
    min last.toInt cur.toInt ≤ (interpAxis last cur p k).toInt ∧
    (interpAxis last cur p k).toInt ≤ max last.toInt cur.toInt ∧
    inRange (interpAxis last cur p k) ∧
    (last = cur → interpAxis last cur p k = cur) ∧
    interpAxis last cur 1 1 = cur) ∧
  (let positions := fun (last cur : BitVec 17) (k : Nat) =>
      (List.range k).map fun p => (interpAxis last cur (p + 1) k).toInt
   positions 0 (-7) 2 = [-3, -7] ∧ positions 5 (-5) 3 = [2, -1, -5] ∧ positions 0 (-1) 3 = [0, 0, -1] ∧
   positions 0 1 3 = [0, 0, 1] ∧ positions (-32768) 32767 4 = [-16385, -1, 16383, 32767])

/-- R230, R233: the three position selectors write the sample of the channel that is next, and nothing else changes; a
position in range is emitted as it is but for +32768. The register of the channel that is next is the model's (log
entry 6). -/
def Obligations.PositionSelectors : Prop :=
  ∀ s : State,
    let put := fun (v : BitVec 17) => Host.Outcome.next (φ := Machine.Fault) (ρ := Refusal) { s with
      wrk := { s.wrk with sample := Cells.set 0 s.wrk.sample s.muxCh (clip16 s.params.outOverflow v) }
      muxCh := s.muxCh + 1 }
    exec .sigX s = put s.wrk.pos.x ∧ exec .sigY s = put s.wrk.pos.y ∧ exec .sigZ s = put s.wrk.pos.z ∧
    ∀ v : BitVec 17, inRange v →
      (v.toInt ≠ 32768 → (clip16 s.params.outOverflow v).toInt = v.toInt) ∧
      (v.toInt = 32768 → s.params.outOverflow = .saturate → (clip16 s.params.outOverflow v).toInt = 32767) ∧
      (v.toInt = 32768 → s.params.outOverflow = .wrap → (clip16 s.params.outOverflow v).toInt = -32768)

/-- R231: laser-on is the largest sample unless the location's resolved colour is black; nothing else changes. The
register of the channel that is next is the model's (log entry 6). -/
def Obligations.LaserSelector : Prop :=
  ∀ s : State,
    let colour := (Cells.get Point.zero s.fb.pt s.wrk.locIdx.toNat).colour
    let v := if colour.r = 0 ∧ colour.g = 0 ∧ colour.b = 0 then 0 else 32767
    exec .sigL s = .next { s with
      wrk := { s.wrk with sample := Cells.set 0 s.wrk.sample s.muxCh v }, muxCh := s.muxCh + 1 }

/-- R232: the colour selectors scale the location's resolved colour to 0..32767; nothing else changes. The register of
the channel that is next is the model's (log entry 6). -/
def Obligations.ColourSelectors : Prop :=
  ∀ s : State,
    let colour := (Cells.get Point.zero s.fb.pt s.wrk.locIdx.toNat).colour
    let put := fun (v : BitVec 16) => Host.Outcome.next (φ := Machine.Fault) (ρ := Refusal) { s with
      wrk := { s.wrk with sample := Cells.set 0 s.wrk.sample s.muxCh v }, muxCh := s.muxCh + 1 }
    ∃ r g b : BitVec 16, exec .sigR s = put r ∧ exec .sigG s = put g ∧ exec .sigB s = put b ∧
      r.toInt = colour.r.toNat * 32767 / 255 ∧ g.toInt = colour.g.toNat * 32767 / 255 ∧
      b.toInt = colour.b.toNat * 32767 / 255 ∧ 0 ≤ r.toInt ∧ 0 ≤ g.toInt ∧ 0 ≤ b.toInt

/-- R230 to R233: running the selector a channel code stands for writes the `Signal` of that code. The register of the
channel that is next is the model's (log entry 6). -/
def Obligations.SelectorsAgreeWithSignal : Prop :=
  ∀ (s : State) (c : Byte) (i : Instr), decode s.params [c] = .ok i →
    exec i s = .next (s.putSample (signal s.params.outOverflow c s.wrk.pos
      (Cells.get Point.zero s.fb.pt s.wrk.locIdx.toNat).colour))

/-! START and the framer. -/

/-- R283 to R286, R293: the checks of START in their order, before anything is written; the whole next state of each.
That the host's commands stand in a list is the model's (log entry 7). -/
def Obligations.StartChecksInOrder : Prop :=
  ∀ (s : State) (rest : List HostCmd), s.runState = .idle → s.err.code = .none → s.host = .start :: rest →
    let fails := fun code stage info => step s = .next { s with
      host := rest, runState := .faulted, err := ⟨code, stage, info, 0⟩ }
    let bad := s.cfg.fps = 0 ∨ s.cfg.pps = 0 ∨ s.cfg.nch = 0 ∨ s.params.maxCh < s.cfg.nch.toNat
    let ch := fun c => Cells.get 0 s.cfg.ch c
    let known := fun c => ch c ∈ ([0x78, 0x79, 0x7A, 0x6C, 0x72, 0x67, 0x62] : List Byte)
    (bad → fails .badConfig .config 0) ∧
    (¬ bad → ∀ c < s.cfg.nch.toNat, ¬ known c → (∀ d < c, known d) → fails .invalidSignal .config (ch c)) ∧
    (¬ bad → (∀ c < s.cfg.nch.toNat, known c) → s.sinkSeekable = false → fails .nonSeekableSink .sink 0)

/-- R250, R43, R252: a START that passes its checks latches the configuration, clears the counters, appends the
placeholder header, and leaves the decoder where it is. That the host's commands stand in a list is the model's (log
entry 7). The places of a run between two steps are the model's (log entry 6). The working registers are left unstated
(R46). -/
def Obligations.StartLatchesConfiguration : Prop :=
  ∀ (s : State) (rest : List HostCmd), s.runState = .idle → s.err.code = .none → s.host = .start :: rest →
    s.cfg.fps ≠ 0 → s.cfg.pps ≠ 0 → s.cfg.nch ≠ 0 → s.cfg.nch.toNat ≤ s.params.maxCh →
    (∀ c < s.cfg.nch.toNat, Cells.get 0 s.cfg.ch c ∈ ([0x78, 0x79, 0x7A, 0x6C, 0x72, 0x67, 0x62] : List Byte)) →
    s.sinkSeekable = true →
    ∃ t, step s = .next t ∧ t.runState = .running ∧ t.lat.fps = s.cfg.fps ∧ t.lat.pps = s.cfg.pps ∧
      t.lat.rate = s.cfg.rate ∧ t.lat.nch = s.cfg.nch ∧ t.lat.invert = s.cfg.invert ∧
      (∀ c < s.cfg.nch.toNat, Cells.get 0 t.lat.ch c = Cells.get 0 s.cfg.ch c) ∧
      t.hid = ⟨0, 0, ⟨0, 0, 0⟩, 0⟩ ∧ t.sink.len = s.sink.len + 44 ∧
      (∀ a < s.sink.len, t.sink.readByte a = s.sink.readByte a) ∧
      t.sink.readBytes s.sink.len 44 = some (containerHeader t.lat 0) ∧
      t = { s with host := rest, runState := .running, lat := t.lat, hid := t.hid, wrk := t.wrk, sink := t.sink,
                   sch := .pull }

/-- R251, R253: the 44 bytes of the container header, field by field; what does not fit keeps its low bits. The four
tags and the widths are the spec's own addition to its source (log entry 19). -/
def Obligations.ContainerHeaderLayout : Prop :=
  ∀ (l : ConfigRegs) (len : Nat),
    let hd := containerHeader l len
    let le2 := fun a => (hd.getD a 0).toNat + 256 * (hd.getD (a + 1) 0).toNat
    let le4 := fun a => le2 a + 65536 * le2 (a + 2)
    hd.length = 44 ∧
    hd.take 4 = [0x52, 0x49, 0x46, 0x46] ∧ le4 4 = (len + 36) % 4294967296 ∧
    (hd.drop 8).take 8 = [0x57, 0x41, 0x56, 0x45, 0x66, 0x6D, 0x74, 0x20] ∧ le4 16 = 16 ∧ le2 20 = 1 ∧
    le2 22 = l.nch.toNat ∧ le4 24 = l.rate.toNat ∧ le4 28 = (l.rate.toNat * l.nch.toNat * 2) % 4294967296 ∧
    le2 32 = (l.nch.toNat * 2) % 65536 ∧ le2 34 = 16 ∧
    (hd.drop 36).take 4 = [0x64, 0x61, 0x74, 0x61] ∧ le4 40 = len % 4294967296

/-- R255, R256: the pull that meets the end of the stream rewrites bytes 0..43 of the sink with the true data length,
leaves every other byte and the length, and ends the run. The places of a run between two steps, and that one step
pulls, patches and ends, are the model's (log entry 6). -/
def Obligations.EndOfStreamPatchesHeader : Prop :=
  ∀ s t : State, s.runState = .running → s.sch = .pull → s.nextFrame = .next t → t.dec.result = .endOfStream →
    44 ≤ s.sink.len →
    ∃ u, step s = .next u ∧ u.runState = .done ∧ u.sink.len = s.sink.len ∧
      u.sink.readBytes 0 44 = some (containerHeader s.lat s.hid.dataLen) ∧
      (∀ a, 44 ≤ a → u.sink.readByte a = s.sink.readByte a) ∧ u = { t with sink := u.sink, runState := .done }

/-- R257, R191, R196: a frame generates exactly its budget of sub-samples, and they take `2 * NCH` bytes for each sample
frame of their hold counts, whatever the number of locations. -/
def Obligations.FrameOutputSize : Prop :=
  ∀ s : State, s.lat.pps ≠ 0 → s.fb.count ≠ 0 → s.hid.pointPhase.toNat < s.lat.pps.toNat →
    let t := s.drawFrame
    t.hid.pointPhase.toNat = (s.hid.pointPhase.toNat + s.wrk.budget.toNat) % s.lat.pps.toNat ∧
    t.hid.dataLen = s.hid.dataLen + 2 * s.lat.nch.toNat * ((List.range s.wrk.budget.toNat).map fun j =>
      groupSize s.lat.rate.toNat s.lat.pps.toNat (s.hid.pointPhase.toNat + j)).sum

/-! The whole machine. -/

/-- The invariant holds after reset. It rests on the values log entries 8 and 9 choose where the spec gives none. -/
def Obligations.ResetMeetsInvariant : Prop := Inv State.reset

/-- R22, R24, R30, R45, R141, R167, R223, R254, R256, R258, R280, R287, R323: every step from a state that meets the
invariant, by the host or in a run, answers a state that meets it. The invariant speaks of the model's places of a run
(log entry 6) and takes `MAX_CH` to be at least 3 (log entry 1). -/
def Obligations.StepKeepsInvariant : Prop := ∀ s t : State, Inv s → step s = .next t → Inv t

/-- R233, R287, R289: from a state that meets the invariant no step stops. The steps of a run are the model's (log
entry 6). -/
def Obligations.NoStepStops : Prop := ∀ s : State, Inv s → ∃ t, step s = .next t

/-- R6, R43, R321: no step changes the parameters; only a host write or RESET changes the configuration registers;
only START or RESET changes the latched copies. That a block with nothing to do waits unchanged is the model's (log
entry 7). -/
def Obligations.ConfigurationIsStable : Prop :=
  ∀ s t : State, step s = .next t →
    t.params = s.params ∧
    (s.runState = .running → t.cfg = s.cfg ∧ t.lat = s.lat) ∧
    (∀ rest, s.hostSends .pull rest → t.cfg = s.cfg ∧ t.lat = s.lat) ∧
    (∀ rest, s.hostSends .start rest → t.cfg = s.cfg) ∧
    (s.runState ≠ .running → s.host = [] → t = s) ∧
    (¬ s.resetNext → (∀ rest, ¬ s.hostSends .start rest) → t.lat = s.lat)

/-- R340: every run ends, in DONE or in FAULTED. That no command comes during a run is the model's (log entry 7), as
are the steps of one (log entry 6). -/
def Obligations.RunTerminates : Prop :=
  ∀ s : State, Inv s → s.runState = .running →
    ∃ n t, Host.Core.run core n s = .next t ∧ (t.runState = .done ∨ t.runState = .faulted)

/-- D25, R250, R192, R193, R221, R222: the steps of a run reach the state that START reaches as one atomic command in
the spec's own loops, but for the model's own record of where a run stands. The steps of a run are the model's (log
entry 6), and so is the list of commands (log entry 7). -/
def Obligations.StepsReachAtomicStart : Prop :=
  ∀ (s : State) (rest : List HostCmd), Inv s → s.runState = .idle → s.host = .start :: rest →
    ∃ n t, Host.Core.run core n s = .next t ∧ t.runState ≠ .running ∧
      t.forgetPlace = (State.startAtomic (s.setHost rest)).forgetPlace

/-! Rules over the whole decoder, and the two functions the rules above rest on. -/

/-- R141: every row of the decoder's state machine: the state before a pull, what the pull meets, the state after and
`RESULT`, with the error it records. -/
def Obligations.DecoderStateMachine : Prop :=
  ∀ s : State,
    let ends := fun (d : DecState) (r : PullResult) =>
      ∃ t, s.nextFrame = .next t ∧ t.dec.state = d ∧ t.dec.result = r ∧ t.err = s.err
    let faults := fun (code : ErrCode) (stage : ErrStage) =>
      ∃ t, s.nextFrame = .next t ∧ t.dec.state = .faulted ∧ t.dec.result = .fault ∧
        ∃ info pos, t.err = s.errAfter code stage info pos
    (s.awaits → s.inp.len < s.dec.inPos + 32 → faults .unexpectedEof .header) ∧
    (s.awaits → ∀ bs, s.inp.readBytes s.dec.inPos 32 = some bs →
      let f := bs.getD 7 0
      let count := (u16be (bs.getD 24 0) (bs.getD 25 0)).toNat
      let known := f ∈ ([0, 1, 2, 4, 5] : List Byte)
      let size := if f = 2 then 3 else if f = 4 then 10
        else if f = 1 ∧ s.params.fmt1Layout = .own6 then 6 else 8
      let body := s.dec.inPos + 32 + count * size
      (bs.take 4 ≠ split4 s.params.magic → faults .corruptFormat .header) ∧
      (bs.take 4 = split4 s.params.magic →
        (count = 0 → ends .exhausted .endOfStream) ∧
        (count ≠ 0 → ¬ known → faults .unsupportedFormat .header) ∧
        (count ≠ 0 → known → s.inp.len < body → faults .unexpectedEof .body) ∧
        (count ≠ 0 → known → f ≠ 2 → body ≤ s.inp.len → ends .awaitHeader .frame) ∧
        (count ≠ 0 → f = 2 → body ≤ s.inp.len → ends .awaitHeader .palette))) ∧
    (s.dec.state = .exhausted → ends .exhausted .endOfStream) ∧
    (s.dec.state = .faulted → ends .faulted .fault)

/-- R28, R163: the colour of an indexed record, by the blanked bit, the palette of its source and the index. The entries
of the default palette are open (log entry 2). -/
def Obligations.IndexedColourLookup : Prop :=
  ∀ (p : PaletteTable) (s status idx : Byte),
    let loaded := Cells.get false p.valid s.toNat = true
    let len := (Cells.get 0 p.len s.toNat).toNat
    (status.getLsbD 6 = true → indexedColour p s status idx = ⟨0, 0, 0⟩) ∧
    (status.getLsbD 6 = false → indexedColour p s status idx = p.resolve s idx) ∧
    (loaded → idx.toNat < len → p.resolve s idx = Cells.get Rgb.black p.ram (256 * s.toNat + idx.toNat)) ∧
    (loaded → len ≤ idx.toNat → p.resolve s idx = ⟨0, 0, 0⟩) ∧
    (¬ loaded → idx.toNat < 64 → p.resolve s idx = Config.defaultPalette idx.toNat) ∧
    (¬ loaded → 64 ≤ idx.toNat → p.resolve s idx = ⟨0, 0, 0⟩)

/-- R190: the size of a group of the fair distribution, and the rule's worked example. -/
def Obligations.FairDistributionFormula : Prop :=
  (∀ T G i : Nat, 1 ≤ G →
    let r := T % G
    let extra := (i * r) % G > ((i + 1) * r) % G
    (extra → groupSize T G i = T / G + 1) ∧ (¬ extra → groupSize T G i = T / G)) ∧
  groupSize 10 3 0 = 3 ∧ groupSize 10 3 1 = 3 ∧ groupSize 10 3 2 = 4
end

