-- ==== Sys2Proof/Laws/State.lean ====
section
/-! SUPPORT. What each named update of the state sets and what it leaves: one equation per field, so that no
later proof unfolds a record update. -/

namespace Sys2Proof.Machine

@[simp] theorem State.setDecState_fields (s : State) (d : DecState) :
    (s.setDecState d).dec.state = d ∧ (s.setDecState d).dec.inPos = s.dec.inPos ∧
    (s.setDecState d).dec.hdrFormat = s.dec.hdrFormat ∧ (s.setDecState d).dec.hdrCount = s.dec.hdrCount ∧
    (s.setDecState d).dec.hdrSrcid = s.dec.hdrSrcid ∧ (s.setDecState d).dec.recIdx = s.dec.recIdx ∧
    (s.setDecState d).dec.result = s.dec.result ∧ (s.setDecState d).params = s.params ∧
    (s.setDecState d).pal = s.pal ∧ (s.setDecState d).fb = s.fb ∧ (s.setDecState d).cfg = s.cfg ∧
    (s.setDecState d).lat = s.lat ∧ (s.setDecState d).runState = s.runState ∧ (s.setDecState d).hid = s.hid ∧
    (s.setDecState d).wrk = s.wrk ∧ (s.setDecState d).err = s.err ∧ (s.setDecState d).inp = s.inp ∧
    (s.setDecState d).sink = s.sink ∧ (s.setDecState d).sinkSeekable = s.sinkSeekable ∧
    (s.setDecState d).sch = s.sch ∧ (s.setDecState d).muxCh = s.muxCh ∧ (s.setDecState d).host = s.host ∧
    (s.setDecState d).freeCtr = s.freeCtr := by
  and_intros <;> rfl

@[simp] theorem State.setInPos_fields (s : State) (n : Nat) :
    (s.setInPos n).dec.state = s.dec.state ∧ (s.setInPos n).dec.inPos = n ∧
    (s.setInPos n).dec.hdrFormat = s.dec.hdrFormat ∧ (s.setInPos n).dec.hdrCount = s.dec.hdrCount ∧
    (s.setInPos n).dec.hdrSrcid = s.dec.hdrSrcid ∧ (s.setInPos n).dec.recIdx = s.dec.recIdx ∧
    (s.setInPos n).dec.result = s.dec.result ∧ (s.setInPos n).params = s.params ∧ (s.setInPos n).pal = s.pal ∧
    (s.setInPos n).fb = s.fb ∧ (s.setInPos n).cfg = s.cfg ∧ (s.setInPos n).lat = s.lat ∧
    (s.setInPos n).runState = s.runState ∧ (s.setInPos n).hid = s.hid ∧ (s.setInPos n).wrk = s.wrk ∧
    (s.setInPos n).err = s.err ∧ (s.setInPos n).inp = s.inp ∧ (s.setInPos n).sink = s.sink ∧
    (s.setInPos n).sinkSeekable = s.sinkSeekable ∧ (s.setInPos n).sch = s.sch ∧
    (s.setInPos n).muxCh = s.muxCh ∧ (s.setInPos n).host = s.host ∧ (s.setInPos n).freeCtr = s.freeCtr := by
  and_intros <;> rfl

@[simp] theorem State.setResult_fields (s : State) (r : PullResult) :
    (s.setResult r).dec.state = s.dec.state ∧ (s.setResult r).dec.inPos = s.dec.inPos ∧
    (s.setResult r).dec.hdrFormat = s.dec.hdrFormat ∧ (s.setResult r).dec.hdrCount = s.dec.hdrCount ∧
    (s.setResult r).dec.hdrSrcid = s.dec.hdrSrcid ∧ (s.setResult r).dec.recIdx = s.dec.recIdx ∧
    (s.setResult r).dec.result = r ∧ (s.setResult r).params = s.params ∧ (s.setResult r).pal = s.pal ∧
    (s.setResult r).fb = s.fb ∧ (s.setResult r).cfg = s.cfg ∧ (s.setResult r).lat = s.lat ∧
    (s.setResult r).runState = s.runState ∧ (s.setResult r).hid = s.hid ∧ (s.setResult r).wrk = s.wrk ∧
    (s.setResult r).err = s.err ∧ (s.setResult r).inp = s.inp ∧ (s.setResult r).sink = s.sink ∧
    (s.setResult r).sinkSeekable = s.sinkSeekable ∧ (s.setResult r).sch = s.sch ∧
    (s.setResult r).muxCh = s.muxCh ∧ (s.setResult r).host = s.host ∧ (s.setResult r).freeCtr = s.freeCtr := by
  and_intros <;> rfl

@[simp] theorem State.setRecIdx_fields (s : State) (n : BitVec 16) :
    (s.setRecIdx n).dec.state = s.dec.state ∧ (s.setRecIdx n).dec.inPos = s.dec.inPos ∧
    (s.setRecIdx n).dec.hdrFormat = s.dec.hdrFormat ∧ (s.setRecIdx n).dec.hdrCount = s.dec.hdrCount ∧
    (s.setRecIdx n).dec.hdrSrcid = s.dec.hdrSrcid ∧ (s.setRecIdx n).dec.recIdx = n ∧
    (s.setRecIdx n).dec.result = s.dec.result ∧ (s.setRecIdx n).params = s.params ∧
    (s.setRecIdx n).pal = s.pal ∧ (s.setRecIdx n).fb = s.fb ∧ (s.setRecIdx n).cfg = s.cfg ∧
    (s.setRecIdx n).lat = s.lat ∧ (s.setRecIdx n).runState = s.runState ∧ (s.setRecIdx n).hid = s.hid ∧
    (s.setRecIdx n).wrk = s.wrk ∧ (s.setRecIdx n).err = s.err ∧ (s.setRecIdx n).inp = s.inp ∧
    (s.setRecIdx n).sink = s.sink ∧ (s.setRecIdx n).sinkSeekable = s.sinkSeekable ∧
    (s.setRecIdx n).sch = s.sch ∧ (s.setRecIdx n).muxCh = s.muxCh ∧ (s.setRecIdx n).host = s.host ∧
    (s.setRecIdx n).freeCtr = s.freeCtr := by
  and_intros <;> rfl

@[simp] theorem State.latchHeader_fields (s : State) (f : Byte) (c : BitVec 16) (i : Byte) :
    (s.latchHeader f c i).dec.state = s.dec.state ∧ (s.latchHeader f c i).dec.inPos = s.dec.inPos ∧
    (s.latchHeader f c i).dec.hdrFormat = f ∧ (s.latchHeader f c i).dec.hdrCount = c ∧
    (s.latchHeader f c i).dec.hdrSrcid = i ∧ (s.latchHeader f c i).dec.recIdx = 0 ∧
    (s.latchHeader f c i).dec.result = s.dec.result ∧ (s.latchHeader f c i).params = s.params ∧
    (s.latchHeader f c i).pal = s.pal ∧ (s.latchHeader f c i).fb = s.fb ∧ (s.latchHeader f c i).cfg = s.cfg ∧
    (s.latchHeader f c i).lat = s.lat ∧ (s.latchHeader f c i).runState = s.runState ∧
    (s.latchHeader f c i).hid = s.hid ∧ (s.latchHeader f c i).wrk = s.wrk ∧ (s.latchHeader f c i).err = s.err ∧
    (s.latchHeader f c i).inp = s.inp ∧ (s.latchHeader f c i).sink = s.sink ∧
    (s.latchHeader f c i).sinkSeekable = s.sinkSeekable ∧ (s.latchHeader f c i).sch = s.sch ∧
    (s.latchHeader f c i).muxCh = s.muxCh ∧ (s.latchHeader f c i).host = s.host ∧
    (s.latchHeader f c i).freeCtr = s.freeCtr := by
  and_intros <;> rfl

@[simp] theorem State.setPal_fields (s : State) (p : PaletteTable) :
    (s.setPal p).params = s.params ∧ (s.setPal p).dec = s.dec ∧ (s.setPal p).pal = p ∧ (s.setPal p).fb = s.fb ∧
    (s.setPal p).cfg = s.cfg ∧ (s.setPal p).lat = s.lat ∧ (s.setPal p).runState = s.runState ∧
    (s.setPal p).hid = s.hid ∧ (s.setPal p).wrk = s.wrk ∧ (s.setPal p).err = s.err ∧ (s.setPal p).inp = s.inp ∧
    (s.setPal p).sink = s.sink ∧ (s.setPal p).sinkSeekable = s.sinkSeekable ∧ (s.setPal p).sch = s.sch ∧
    (s.setPal p).muxCh = s.muxCh ∧ (s.setPal p).host = s.host ∧ (s.setPal p).freeCtr = s.freeCtr := by
  and_intros <;> rfl

@[simp] theorem State.setFb_fields (s : State) (f : FrameBuffer) :
    (s.setFb f).params = s.params ∧ (s.setFb f).dec = s.dec ∧ (s.setFb f).pal = s.pal ∧ (s.setFb f).fb = f ∧
    (s.setFb f).cfg = s.cfg ∧ (s.setFb f).lat = s.lat ∧ (s.setFb f).runState = s.runState ∧
    (s.setFb f).hid = s.hid ∧ (s.setFb f).wrk = s.wrk ∧ (s.setFb f).err = s.err ∧ (s.setFb f).inp = s.inp ∧
    (s.setFb f).sink = s.sink ∧ (s.setFb f).sinkSeekable = s.sinkSeekable ∧ (s.setFb f).sch = s.sch ∧
    (s.setFb f).muxCh = s.muxCh ∧ (s.setFb f).host = s.host ∧ (s.setFb f).freeCtr = s.freeCtr := by
  and_intros <;> rfl

@[simp] theorem State.setCfg_fields (s : State) (c : ConfigRegs) :
    (s.setCfg c).params = s.params ∧ (s.setCfg c).dec = s.dec ∧ (s.setCfg c).pal = s.pal ∧
    (s.setCfg c).fb = s.fb ∧ (s.setCfg c).cfg = c ∧ (s.setCfg c).lat = s.lat ∧
    (s.setCfg c).runState = s.runState ∧ (s.setCfg c).hid = s.hid ∧ (s.setCfg c).wrk = s.wrk ∧
    (s.setCfg c).err = s.err ∧ (s.setCfg c).inp = s.inp ∧ (s.setCfg c).sink = s.sink ∧
    (s.setCfg c).sinkSeekable = s.sinkSeekable ∧ (s.setCfg c).sch = s.sch ∧ (s.setCfg c).muxCh = s.muxCh ∧
    (s.setCfg c).host = s.host ∧ (s.setCfg c).freeCtr = s.freeCtr := by
  and_intros <;> rfl

@[simp] theorem State.setLat_fields (s : State) (c : ConfigRegs) :
    (s.setLat c).params = s.params ∧ (s.setLat c).dec = s.dec ∧ (s.setLat c).pal = s.pal ∧
    (s.setLat c).fb = s.fb ∧ (s.setLat c).cfg = s.cfg ∧ (s.setLat c).lat = c ∧
    (s.setLat c).runState = s.runState ∧ (s.setLat c).hid = s.hid ∧ (s.setLat c).wrk = s.wrk ∧
    (s.setLat c).err = s.err ∧ (s.setLat c).inp = s.inp ∧ (s.setLat c).sink = s.sink ∧
    (s.setLat c).sinkSeekable = s.sinkSeekable ∧ (s.setLat c).sch = s.sch ∧ (s.setLat c).muxCh = s.muxCh ∧
    (s.setLat c).host = s.host ∧ (s.setLat c).freeCtr = s.freeCtr := by
  and_intros <;> rfl

@[simp] theorem State.setRunState_fields (s : State) (r : RunState) :
    (s.setRunState r).params = s.params ∧ (s.setRunState r).dec = s.dec ∧ (s.setRunState r).pal = s.pal ∧
    (s.setRunState r).fb = s.fb ∧ (s.setRunState r).cfg = s.cfg ∧ (s.setRunState r).lat = s.lat ∧
    (s.setRunState r).runState = r ∧ (s.setRunState r).hid = s.hid ∧ (s.setRunState r).wrk = s.wrk ∧
    (s.setRunState r).err = s.err ∧ (s.setRunState r).inp = s.inp ∧ (s.setRunState r).sink = s.sink ∧
    (s.setRunState r).sinkSeekable = s.sinkSeekable ∧ (s.setRunState r).sch = s.sch ∧
    (s.setRunState r).muxCh = s.muxCh ∧ (s.setRunState r).host = s.host ∧ (s.setRunState r).freeCtr = s.freeCtr := by
  and_intros <;> rfl

@[simp] theorem State.setHid_fields (s : State) (h : Hidden) :
    (s.setHid h).params = s.params ∧ (s.setHid h).dec = s.dec ∧ (s.setHid h).pal = s.pal ∧
    (s.setHid h).fb = s.fb ∧ (s.setHid h).cfg = s.cfg ∧ (s.setHid h).lat = s.lat ∧
    (s.setHid h).runState = s.runState ∧ (s.setHid h).hid = h ∧ (s.setHid h).wrk = s.wrk ∧
    (s.setHid h).err = s.err ∧ (s.setHid h).inp = s.inp ∧ (s.setHid h).sink = s.sink ∧
    (s.setHid h).sinkSeekable = s.sinkSeekable ∧ (s.setHid h).sch = s.sch ∧ (s.setHid h).muxCh = s.muxCh ∧
    (s.setHid h).host = s.host ∧ (s.setHid h).freeCtr = s.freeCtr := by
  and_intros <;> rfl

@[simp] theorem State.setWrk_fields (s : State) (w : Working) :
    (s.setWrk w).params = s.params ∧ (s.setWrk w).dec = s.dec ∧ (s.setWrk w).pal = s.pal ∧
    (s.setWrk w).fb = s.fb ∧ (s.setWrk w).cfg = s.cfg ∧ (s.setWrk w).lat = s.lat ∧
    (s.setWrk w).runState = s.runState ∧ (s.setWrk w).hid = s.hid ∧ (s.setWrk w).wrk = w ∧
    (s.setWrk w).err = s.err ∧ (s.setWrk w).inp = s.inp ∧ (s.setWrk w).sink = s.sink ∧
    (s.setWrk w).sinkSeekable = s.sinkSeekable ∧ (s.setWrk w).sch = s.sch ∧ (s.setWrk w).muxCh = s.muxCh ∧
    (s.setWrk w).host = s.host ∧ (s.setWrk w).freeCtr = s.freeCtr := by
  and_intros <;> rfl

@[simp] theorem State.setErr_fields (s : State) (e : ErrRegs) :
    (s.setErr e).params = s.params ∧ (s.setErr e).dec = s.dec ∧ (s.setErr e).pal = s.pal ∧
    (s.setErr e).fb = s.fb ∧ (s.setErr e).cfg = s.cfg ∧ (s.setErr e).lat = s.lat ∧
    (s.setErr e).runState = s.runState ∧ (s.setErr e).hid = s.hid ∧ (s.setErr e).wrk = s.wrk ∧
    (s.setErr e).err = e ∧ (s.setErr e).inp = s.inp ∧ (s.setErr e).sink = s.sink ∧
    (s.setErr e).sinkSeekable = s.sinkSeekable ∧ (s.setErr e).sch = s.sch ∧ (s.setErr e).muxCh = s.muxCh ∧
    (s.setErr e).host = s.host ∧ (s.setErr e).freeCtr = s.freeCtr := by
  and_intros <;> rfl

@[simp] theorem State.setSink_fields (s : State) (m : Memory) :
    (s.setSink m).params = s.params ∧ (s.setSink m).dec = s.dec ∧ (s.setSink m).pal = s.pal ∧
    (s.setSink m).fb = s.fb ∧ (s.setSink m).cfg = s.cfg ∧ (s.setSink m).lat = s.lat ∧
    (s.setSink m).runState = s.runState ∧ (s.setSink m).hid = s.hid ∧ (s.setSink m).wrk = s.wrk ∧
    (s.setSink m).err = s.err ∧ (s.setSink m).inp = s.inp ∧ (s.setSink m).sink = m ∧
    (s.setSink m).sinkSeekable = s.sinkSeekable ∧ (s.setSink m).sch = s.sch ∧ (s.setSink m).muxCh = s.muxCh ∧
    (s.setSink m).host = s.host ∧ (s.setSink m).freeCtr = s.freeCtr := by
  and_intros <;> rfl

@[simp] theorem State.setSch_fields (s : State) (p : SchPhase) :
    (s.setSch p).params = s.params ∧ (s.setSch p).dec = s.dec ∧ (s.setSch p).pal = s.pal ∧
    (s.setSch p).fb = s.fb ∧ (s.setSch p).cfg = s.cfg ∧ (s.setSch p).lat = s.lat ∧
    (s.setSch p).runState = s.runState ∧ (s.setSch p).hid = s.hid ∧ (s.setSch p).wrk = s.wrk ∧
    (s.setSch p).err = s.err ∧ (s.setSch p).inp = s.inp ∧ (s.setSch p).sink = s.sink ∧
    (s.setSch p).sinkSeekable = s.sinkSeekable ∧ (s.setSch p).sch = p ∧ (s.setSch p).muxCh = s.muxCh ∧
    (s.setSch p).host = s.host ∧ (s.setSch p).freeCtr = s.freeCtr := by
  and_intros <;> rfl

@[simp] theorem State.setMuxCh_fields (s : State) (c : Nat) :
    (s.setMuxCh c).params = s.params ∧ (s.setMuxCh c).dec = s.dec ∧ (s.setMuxCh c).pal = s.pal ∧
    (s.setMuxCh c).fb = s.fb ∧ (s.setMuxCh c).cfg = s.cfg ∧ (s.setMuxCh c).lat = s.lat ∧
    (s.setMuxCh c).runState = s.runState ∧ (s.setMuxCh c).hid = s.hid ∧ (s.setMuxCh c).wrk = s.wrk ∧
    (s.setMuxCh c).err = s.err ∧ (s.setMuxCh c).inp = s.inp ∧ (s.setMuxCh c).sink = s.sink ∧
    (s.setMuxCh c).sinkSeekable = s.sinkSeekable ∧ (s.setMuxCh c).sch = s.sch ∧ (s.setMuxCh c).muxCh = c ∧
    (s.setMuxCh c).host = s.host ∧ (s.setMuxCh c).freeCtr = s.freeCtr := by
  and_intros <;> rfl

@[simp] theorem State.setHost_fields (s : State) (h : List HostCmd) :
    (s.setHost h).params = s.params ∧ (s.setHost h).dec = s.dec ∧ (s.setHost h).pal = s.pal ∧
    (s.setHost h).fb = s.fb ∧ (s.setHost h).cfg = s.cfg ∧ (s.setHost h).lat = s.lat ∧
    (s.setHost h).runState = s.runState ∧ (s.setHost h).hid = s.hid ∧ (s.setHost h).wrk = s.wrk ∧
    (s.setHost h).err = s.err ∧ (s.setHost h).inp = s.inp ∧ (s.setHost h).sink = s.sink ∧
    (s.setHost h).sinkSeekable = s.sinkSeekable ∧ (s.setHost h).sch = s.sch ∧ (s.setHost h).muxCh = s.muxCh ∧
    (s.setHost h).host = h ∧ (s.setHost h).freeCtr = s.freeCtr := by
  and_intros <;> rfl

@[simp] theorem State.spendDraw_fields (s : State) :
    (s.spendDraw).params = s.params ∧ (s.spendDraw).dec = s.dec ∧ (s.spendDraw).pal = s.pal ∧
    (s.spendDraw).fb = s.fb ∧ (s.spendDraw).cfg = s.cfg ∧ (s.spendDraw).lat = s.lat ∧
    (s.spendDraw).runState = s.runState ∧ (s.spendDraw).hid = s.hid ∧ (s.spendDraw).wrk = s.wrk ∧
    (s.spendDraw).err = s.err ∧ (s.spendDraw).inp = s.inp ∧ (s.spendDraw).sink = s.sink ∧
    (s.spendDraw).sinkSeekable = s.sinkSeekable ∧ (s.spendDraw).sch = s.sch ∧ (s.spendDraw).muxCh = s.muxCh ∧
    (s.spendDraw).host = s.host ∧ (s.spendDraw).freeCtr = s.freeCtr + 1 := by
  and_intros <;> rfl

end Sys2Proof.Machine
end

