-- ==== Sys2Proof/Laws/Store.lean ====
section
/-! SUPPORT. The laws of the sparse stores and of the byte stores: a read after a write, the canonical
form, and that equal contents are equal data. -/

namespace Sys2Proof.Machine

section Cells
variable {α : Type}

@[simp] theorem Cells.get_nil (d : α) (k : Nat) : Cells.get d [] k = d := rfl

theorem Cells.get_of_forall_ne (d : α) (k : Nat) :
    ∀ m : Cells α, (∀ e ∈ m, e.1 ≠ k) → Cells.get d m k = d
  | [], _ => rfl
  | (j, w) :: m, h => by
    rw [Cells.get, if_neg (h (j, w) (by simp))]
    exact Cells.get_of_forall_ne d k m fun e he => h e (by simp [he])

theorem Cells.get_insert (d : α) (k j : Nat) (v : α) :
    ∀ m : Cells α, Cells.get d (Cells.insert k v m) j = if k = j then v else Cells.get d m j
  | [] => by simp [Cells.insert, Cells.get]
  | (i, w) :: m => by
    have ih := Cells.get_insert d k j v m
    unfold Cells.insert
    split
    · simp [Cells.get]
    · split
      · subst k
        by_cases hj : i = j <;> simp [Cells.get, hj]
      · rw [Cells.get, ih, Cells.get]
        by_cases hi : i = j
        · subst hi; simp [*]
        · simp [hi]

theorem Cells.get_erase (d : α) (k j : Nat) :
    ∀ m : Cells α, Cells.get d (Cells.erase k m) j = if k = j then d else Cells.get d m j
  | [] => by simp [Cells.erase]
  | (i, w) :: m => by
    have ih := Cells.get_erase d k j m
    simp only [Cells.erase] at ih ⊢
    by_cases hi : i = k
    · subst hi
      rw [List.filter_cons_of_neg (by simp), ih, Cells.get]
      split <;> rfl
    · rw [List.filter_cons_of_pos (by simp [hi]), Cells.get, ih, Cells.get]
      by_cases hj : i = j
      · subst hj; simp [Ne.symm hi]
      · simp [hj]

theorem Cells.mem_insert (k : Nat) (v : α) (e : Nat × α) :
    ∀ m : Cells α, e ∈ Cells.insert k v m → e = (k, v) ∨ e ∈ m
  | [], h => by simpa [Cells.insert] using h
  | (j, w) :: m, h => by
    unfold Cells.insert at h
    split at h
    · simpa using h
    · split at h
      · rcases List.mem_cons.1 h with h | h
        · exact .inl h
        · exact .inr (by simp [h])
      · rcases List.mem_cons.1 h with h | h
        · exact .inr (by simp [h])
        · rcases Cells.mem_insert k v e m h with h | h
          · exact .inl h
          · exact .inr (by simp [h])

theorem Cells.insert_rising (k : Nat) (v : α) :
    ∀ m : Cells α, m.Pairwise (fun a b => a.1 < b.1) → (Cells.insert k v m).Pairwise (fun a b => a.1 < b.1)
  | [], _ => by simp [Cells.insert]
  | (j, w) :: m, h => by
    obtain ⟨hj, hm⟩ := List.pairwise_cons.1 h
    unfold Cells.insert
    split
    · rename_i hk
      refine List.pairwise_cons.2 ⟨?_, h⟩
      intro e he
      rcases List.mem_cons.1 he with rfl | he
      · exact hk
      · exact Nat.lt_trans hk (hj e he)
    · split
      · subst k
        exact List.pairwise_cons.2 ⟨hj, hm⟩
      · refine List.pairwise_cons.2 ⟨?_, Cells.insert_rising k v m hm⟩
        intro e he
        rcases Cells.mem_insert k v e m he with rfl | he
        · show j < k
          omega
        · exact hj e he

theorem Cells.below_mono {m : Cells α} {a b : Nat} (h : Cells.below a m) (hab : a ≤ b) : Cells.below b m :=
  fun e he => Nat.lt_of_lt_of_le (h e he) hab

theorem Cells.get_of_below {d : α} {m : Cells α} {n k : Nat} (h : Cells.below n m) (hk : n ≤ k) :
    Cells.get d m k = d :=
  Cells.get_of_forall_ne d k m fun e he => Nat.ne_of_lt (Nat.lt_of_lt_of_le (h e he) hk)

variable [DecidableEq α]

/-- A read after a write: the value at the key written, what was there at every other key. -/
theorem Cells.get_set (d : α) (m : Cells α) (k j : Nat) (v : α) :
    Cells.get d (Cells.set d m k v) j = if k = j then v else Cells.get d m j := by
  unfold Cells.set
  split
  · next h => rw [Cells.get_erase, h]
  · rw [Cells.get_insert]

@[simp] theorem Cells.get_set_same (d : α) (m : Cells α) (k : Nat) (v : α) :
    Cells.get d (Cells.set d m k v) k = v := by simp [Cells.get_set]

theorem Cells.get_set_other (d : α) (m : Cells α) {k j : Nat} (v : α) (h : k ≠ j) :
    Cells.get d (Cells.set d m k v) j = Cells.get d m j := by simp [Cells.get_set, h]

/-- A write keeps the canonical form. -/
theorem Cells.wf_set {d : α} {m : Cells α} (h : Cells.wf d m) (k : Nat) (v : α) : Cells.wf d (Cells.set d m k v) := by
  unfold Cells.set
  split
  · exact ⟨h.1.sublist List.filter_sublist, fun e he => h.2 e (List.mem_filter.1 he).1⟩
  · next hv =>
    refine ⟨Cells.insert_rising k v m h.1, fun e he => ?_⟩
    rcases Cells.mem_insert k v e m he with rfl | he
    · exact hv
    · exact h.2 e he

theorem Cells.below_set {d : α} {m : Cells α} {n k : Nat} (h : Cells.below n m) (hk : k < n) (v : α) :
    Cells.below n (Cells.set d m k v) := by
  intro e he
  unfold Cells.set at he
  split at he
  · exact h e (List.mem_filter.1 he).1
  · rcases Cells.mem_insert k v e m he with rfl | he
    · exact hk
    · exact h e he

theorem Cells.wf_nil (d : α) : Cells.wf d ([] : Cells α) := ⟨List.Pairwise.nil, fun _ h => by cases h⟩

theorem Cells.wf_tabulate (d : α) (f : Nat → α) (n : Nat) : Cells.wf d (Cells.tabulate d f n) := by
  unfold Cells.tabulate
  constructor
  · refine List.Pairwise.filterMap _ ?_ List.pairwise_lt_range
    intro a b hab x hx y hy
    simp only [Option.ite_none_left_eq_some, Option.some.injEq] at hx hy
    rw [← hx.2, ← hy.2]
    exact hab
  · intro e he
    obtain ⟨i, -, hi⟩ := List.mem_filterMap.1 he
    simp only [Option.ite_none_left_eq_some, Option.some.injEq] at hi
    rw [← hi.2]
    exact hi.1

theorem Cells.below_tabulate (d : α) (f : Nat → α) (n : Nat) : Cells.below n (Cells.tabulate d f n) := by
  intro e he
  obtain ⟨i, h, hi⟩ := List.mem_filterMap.1 he
  simp only [Option.ite_none_left_eq_some, Option.some.injEq] at hi
  rw [← hi.2]
  exact List.mem_range.1 h

/-- In canonical form, equal reads are equal stores. -/
theorem Cells.ext_get {d : α} :
    ∀ {m n : Cells α}, Cells.wf d m → Cells.wf d n → (∀ k, Cells.get d m k = Cells.get d n k) → m = n
  | [], [], _, _, _ => rfl
  | [], (j, w) :: n, _, hn, h => by
    have := h j
    simp [Cells.get] at this
    exact absurd this.symm (hn.2 (j, w) (by simp))
  | (j, w) :: m, [], hm, _, h => by
    have := h j
    simp [Cells.get] at this
    exact absurd this (hm.2 (j, w) (by simp))
  | (i, v) :: m, (j, w) :: n, hm, hn, h => by
    have hi := fun e he => (List.pairwise_cons.1 hm.1).1 e he
    have hj := fun e he => (List.pairwise_cons.1 hn.1).1 e he
    have notBefore : ∀ {a b : Nat} {x y : α} {p q : Cells α}, (∀ e ∈ q, b < e.1) → x ≠ d →
        (∀ k, Cells.get d ((a, x) :: p) k = Cells.get d ((b, y) :: q) k) → ¬ a < b := by
      intro a b x y p q hq hx he hab
      have := he a
      rw [Cells.get, if_pos rfl, Cells.get, if_neg (by omega),
        Cells.get_of_forall_ne d a q (fun e hm => by have := hq e hm; omega)] at this
      exact hx this
    have hij : i = j := by
      have h1 := notBefore hj (hm.2 (i, v) (by simp)) h
      have h2 := notBefore hi (hn.2 (j, w) (by simp)) (fun k => (h k).symm)
      omega
    subst hij
    have hvw : v = w := by simpa [Cells.get] using h i
    subst hvw
    have : m = n := by
      refine Cells.ext_get (d := d) ⟨(List.pairwise_cons.1 hm.1).2, fun e he => hm.2 e (by simp [he])⟩
        ⟨(List.pairwise_cons.1 hn.1).2, fun e he => hn.2 e (by simp [he])⟩ fun k => ?_
      by_cases hk : i = k
      · subst hk
        rw [Cells.get_of_forall_ne d i m (fun e he => by have := hi e he; simp at this; omega),
          Cells.get_of_forall_ne d i n (fun e he => by have := hj e he; simp at this; omega)]
      · simpa [Cells.get, hk] using h k
    rw [this]

end Cells

/-! The byte stores. -/

theorem Memory.readByte_eq (m : Memory) {a : Nat} (h : a < m.len) :
    m.readByte a = some (Cells.get 0 m.cells a) := if_pos h

theorem Memory.readByte_none (m : Memory) {a : Nat} (h : m.len ≤ a) : m.readByte a = none :=
  if_neg (by omega)

theorem Memory.readByte_writeByte (m : Memory) (a : Nat) (v : Byte) (b : Nat) (h : a ≤ m.len) :
    (m.writeByte a v).readByte b = if a = b then some v else m.readByte b := by
  unfold Memory.readByte Memory.writeByte
  simp only [Cells.get_set]
  by_cases hb : a = b
  · subst hb; simp
  · simp only [hb, if_false]
    by_cases hl : b < m.len
    · rw [if_pos (by omega), if_pos hl]
    · rw [if_neg (by omega), if_neg hl]

theorem Memory.wf_writeByte {m : Memory} (h : m.wf) (a : Nat) (v : Byte) : (m.writeByte a v).wf :=
  ⟨Cells.wf_set h.1 a v,
    Cells.below_set (Cells.below_mono h.2 (Nat.le_max_left _ _)) (Nat.lt_of_lt_of_le (Nat.lt_succ_self a) (Nat.le_max_right _ _)) v⟩

/-- Every write keeps the canonical form. -/
theorem Memory.wf_writeBytes (bs : List Byte) : ∀ {m : Memory}, m.wf → ∀ a, (m.writeBytes a bs).wf := by
  induction bs with
  | nil => intro m h a; exact h
  | cons b bs ih => intro m h a; exact ih (Memory.wf_writeByte h a b) (a + 1)

theorem Memory.wf_append {m : Memory} (h : m.wf) (bs : List Byte) : (m.append bs).wf :=
  Memory.wf_writeBytes bs h m.len

theorem Memory.wf_ofBytes (bs : List Byte) : (Memory.ofBytes bs).wf :=
  Memory.wf_append (m := { len := 0, cells := [] }) ⟨Cells.wf_nil 0, by simp⟩ bs

theorem Memory.len_writeBytes (bs : List Byte) :
    ∀ (m : Memory) (a : Nat), a ≤ m.len → (m.writeBytes a bs).len = max m.len (a + bs.length) := by
  induction bs with
  | nil => intro m a h; simp only [Memory.writeBytes, List.length_nil]; omega
  | cons b bs ih =>
    intro m a h
    have hl : (m.writeByte a b).len = max m.len (a + 1) := rfl
    rw [Memory.writeBytes, ih _ _ (by omega), hl, List.length_cons]
    omega

@[simp] theorem Memory.len_append (m : Memory) (bs : List Byte) : (m.append bs).len = m.len + bs.length := by
  rw [Memory.append, Memory.len_writeBytes bs m m.len (Nat.le_refl _)]
  omega

/-- A read after a write of bytes: the bytes written where they were, what was there elsewhere. -/
theorem Memory.readByte_writeBytes (bs : List Byte) :
    ∀ (m : Memory) (a b : Nat), a ≤ m.len → (m.writeBytes a bs).readByte b =
      if a ≤ b ∧ b < a + bs.length then bs[b - a]? else m.readByte b := by
  induction bs with
  | nil => intro m a b h; simp only [Memory.writeBytes, List.length_nil]; rw [if_neg (by omega)]
  | cons c bs ih =>
    intro m a b h
    have hl : (m.writeByte a c).len = max m.len (a + 1) := rfl
    rw [Memory.writeBytes, ih _ _ _ (by omega), Memory.readByte_writeByte m a c b h, List.length_cons]
    by_cases hb : a = b
    · subst hb
      rw [if_neg (by omega), if_pos rfl, if_pos (by omega)]
      simp
    · by_cases hin : a + 1 ≤ b ∧ b < a + 1 + bs.length
      · rw [if_pos hin, if_pos (by omega)]
        obtain ⟨d, hd⟩ : ∃ d, b - a = d + 1 := ⟨b - a - 1, by omega⟩
        rw [hd, List.getElem?_cons_succ]
        congr 1
        omega
      · rw [if_neg hin, if_neg hb, if_neg (by omega)]

theorem Memory.readByte_append (m : Memory) (bs : List Byte) (b : Nat) :
    (m.append bs).readByte b = if b < m.len then m.readByte b else bs[b - m.len]? := by
  rw [Memory.append, Memory.readByte_writeBytes bs m m.len b (Nat.le_refl _)]
  by_cases h : b < m.len
  · rw [if_neg (by omega), if_pos h]
  · rw [if_neg h]
    by_cases h2 : b < m.len + bs.length
    · rw [if_pos (by omega)]
    · rw [if_neg (by omega), Memory.readByte_none m (by omega), List.getElem?_eq_none (by omega)]

/-- `readBytes` byte by byte. -/
theorem Memory.readBytes_eq_some (m : Memory) (a n : Nat) (bs : List Byte) :
    m.readBytes a n = some bs ↔ a + n ≤ m.len ∧ bs.length = n ∧ ∀ i < n, m.readByte (a + i) = bs[i]? := by
  unfold Memory.readBytes
  split
  · next h =>
    simp only [Option.some.injEq, h, true_and]
    constructor
    · rintro rfl
      refine ⟨by simp, fun i hi => ?_⟩
      rw [Memory.readByte_eq m (by omega), List.getElem?_map, List.getElem?_range hi]
      rfl
    · rintro ⟨hl, hb⟩
      refine List.ext_getElem? fun i => ?_
      by_cases hi : i < n
      · rw [List.getElem?_map, List.getElem?_range hi, ← hb i hi, Memory.readByte_eq m (by omega)]
        rfl
      · rw [List.getElem?_eq_none (by simp; omega), List.getElem?_eq_none (by omega)]
  · next h => simp [h]

theorem Memory.readBytes_none (m : Memory) (a n : Nat) : m.readBytes a n = none ↔ m.len < a + n := by
  unfold Memory.readBytes
  split <;> simp <;> omega

/-- What an append adds is what it wrote. -/
theorem Memory.readBytes_append_new (m : Memory) (bs : List Byte) :
    (m.append bs).readBytes m.len bs.length = some bs := by
  rw [Memory.readBytes_eq_some]
  refine ⟨by simp, rfl, fun i hi => ?_⟩
  rw [Memory.readByte_append, if_neg (by omega)]
  congr 1
  omega

/-- And what was there before reads as it did. -/
theorem Memory.readBytes_append_old {m : Memory} {a n : Nat} {v : List Byte} (h : m.readBytes a n = some v)
    (bs : List Byte) : (m.append bs).readBytes a n = some v := by
  rw [Memory.readBytes_eq_some] at *
  obtain ⟨hl, hv, hb⟩ := h
  refine ⟨by simp; omega, hv, fun i hi => ?_⟩
  rw [Memory.readByte_append, if_pos (by omega), hb i hi]

/-- The two byte stores have the form after reset. -/
theorem State.reset_memory_wf : State.reset.inp.wf ∧ State.reset.sink.wf := by decide

/-- In canonical form, equal byte strings are equal data. -/
theorem Memory.ext_readByte {m n : Memory} (hm : m.wf) (hn : n.wf) (hl : m.len = n.len)
    (h : ∀ a, m.readByte a = n.readByte a) : m = n := by
  have hc : m.cells = n.cells := by
    refine Cells.ext_get hm.1 hn.1 fun k => ?_
    by_cases hk : k < m.len
    · have := h k
      rw [Memory.readByte_eq m hk, Memory.readByte_eq n (by omega)] at this
      simpa using this
    · rw [Cells.get_of_below hm.2 (by omega), Cells.get_of_below hn.2 (by omega)]
  cases m; cases n; simp_all

end Sys2Proof.Machine
end

