-- ==== Sys2Proof/Laws/Ops.lean ====
section
/-! SUPPORT. What the shared operations can do, once: the sequential read (R62), fault entry (R290), the record
stores, the free values of a faulted body, and the body loop (R160). -/

namespace Sys2Proof.Machine

/-! Fault entry. -/

/-- Fault entry leaves everything but the error registers, `DEC_STATE`, `RESULT` and `RUN_STATE`. -/
@[simp] theorem State.raise_fields (s : State) (c : ErrCode) (g : ErrStage) (i : Byte) (p : Nat) (b : Bool) :
    (s.raise c g i p b).params = s.params ∧ (s.raise c g i p b).pal = s.pal ∧ (s.raise c g i p b).fb = s.fb ∧
    (s.raise c g i p b).cfg = s.cfg ∧ (s.raise c g i p b).lat = s.lat ∧ (s.raise c g i p b).hid = s.hid ∧
    (s.raise c g i p b).wrk = s.wrk ∧ (s.raise c g i p b).inp = s.inp ∧ (s.raise c g i p b).sink = s.sink ∧
    (s.raise c g i p b).sinkSeekable = s.sinkSeekable ∧ (s.raise c g i p b).sch = s.sch ∧
    (s.raise c g i p b).muxCh = s.muxCh ∧ (s.raise c g i p b).host = s.host ∧
    (s.raise c g i p b).freeCtr = s.freeCtr ∧ (s.raise c g i p b).dec.inPos = s.dec.inPos ∧
    (s.raise c g i p b).dec.hdrFormat = s.dec.hdrFormat ∧ (s.raise c g i p b).dec.hdrCount = s.dec.hdrCount ∧
    (s.raise c g i p b).dec.hdrSrcid = s.dec.hdrSrcid ∧ (s.raise c g i p b).dec.recIdx = s.dec.recIdx ∧
    (s.raise c g i p b).err = s.err.record c g i p := by
  unfold State.raise
  and_intros <;> split <;> split <;> rfl

/-- A decoder error freezes the decoder and shows in `RESULT`; the other errors leave both. -/
theorem State.raise_dec (s : State) (c : ErrCode) (g : ErrStage) (i : Byte) (p : Nat) (b : Bool) :
    (s.raise c g i p b).dec.state = (if c.ofDecoder then .faulted else s.dec.state) ∧
    (s.raise c g i p b).dec.result = (if c.ofDecoder then .fault else s.dec.result) := by
  unfold State.raise
  and_intros <;> split <;> split <;> rfl

/-- A raise inside a run or inside START ends in `RUN_STATE = FAULTED`. -/
theorem State.raise_runState (s : State) (c : ErrCode) (g : ErrStage) (i : Byte) (p : Nat) (b : Bool) :
    (s.raise c g i p b).runState = if s.runState = .running ∨ b = true then .faulted else s.runState := by
  unfold State.raise
  split <;> split <;> simp_all

/-! The sequential read. -/

theorem State.srcRead_ok (s : State) (n : Nat) (g : ErrStage) (i : Byte) (h : s.dec.inPos + n ≤ s.inp.len) :
    ∃ bs, s.inp.readBytes s.dec.inPos n = some bs ∧ s.srcRead n g i = .ok (bs, s.setInPos (s.dec.inPos + n)) := by
  unfold State.srcRead
  cases hr : s.inp.readBytes s.dec.inPos n with
  | none => rw [Memory.readBytes_none] at hr; omega
  | some bs => exact ⟨bs, rfl, rfl⟩

theorem State.srcRead_short (s : State) (n : Nat) (g : ErrStage) (i : Byte) (h : s.inp.len < s.dec.inPos + n) :
    s.srcRead n g i = .error ((s.setInPos s.inp.len).raise .unexpectedEof g i s.dec.inPos false) := by
  unfold State.srcRead
  rw [(Memory.readBytes_none _ _ _).2 h]

/-- The two ways a read ends. -/
theorem State.srcRead_cases (s : State) (n : Nat) (g : ErrStage) (i : Byte) :
    (∃ bs, s.dec.inPos + n ≤ s.inp.len ∧ s.inp.readBytes s.dec.inPos n = some bs ∧
      s.srcRead n g i = .ok (bs, s.setInPos (s.dec.inPos + n))) ∨
    (s.inp.len < s.dec.inPos + n ∧
      s.srcRead n g i = .error ((s.setInPos s.inp.len).raise .unexpectedEof g i s.dec.inPos false)) := by
  by_cases h : s.dec.inPos + n ≤ s.inp.len
  · obtain ⟨bs, hr, hs⟩ := s.srcRead_ok n g i h
    exact .inl ⟨bs, h, hr, hs⟩
  · exact .inr ⟨by omega, s.srcRead_short n g i (by omega)⟩

/-! Free values. -/

/-- U3: the frame buffer, and the count of draws. -/
@[simp] theorem State.freeFrame_fields (s : State) :
    s.freeFrame.params = s.params ∧ s.freeFrame.dec = s.dec ∧ s.freeFrame.pal = s.pal ∧ s.freeFrame.cfg = s.cfg ∧
    s.freeFrame.lat = s.lat ∧ s.freeFrame.runState = s.runState ∧ s.freeFrame.hid = s.hid ∧
    s.freeFrame.wrk = s.wrk ∧ s.freeFrame.err = s.err ∧ s.freeFrame.inp = s.inp ∧ s.freeFrame.sink = s.sink ∧
    s.freeFrame.sinkSeekable = s.sinkSeekable ∧ s.freeFrame.sch = s.sch ∧ s.freeFrame.muxCh = s.muxCh ∧
    s.freeFrame.host = s.host ∧ s.freeFrame.freeCtr = s.freeCtr + 1 := by
  simp [State.freeFrame]

theorem State.freeFrame_pt_wf (s : State) :
    Cells.wf Point.zero s.freeFrame.fb.pt ∧ Cells.below Config.maxCount s.freeFrame.fb.pt :=
  ⟨Cells.wf_tabulate _ _ _, Cells.below_tabulate _ _ _⟩

/-- U2: the palette table, and the count of draws. -/
@[simp] theorem State.freePalette_fields (s : State) (src : Byte) :
    (s.freePalette src).params = s.params ∧ (s.freePalette src).dec = s.dec ∧ (s.freePalette src).fb = s.fb ∧
    (s.freePalette src).cfg = s.cfg ∧ (s.freePalette src).lat = s.lat ∧
    (s.freePalette src).runState = s.runState ∧ (s.freePalette src).hid = s.hid ∧
    (s.freePalette src).wrk = s.wrk ∧ (s.freePalette src).err = s.err ∧ (s.freePalette src).inp = s.inp ∧
    (s.freePalette src).sink = s.sink ∧ (s.freePalette src).sinkSeekable = s.sinkSeekable ∧
    (s.freePalette src).sch = s.sch ∧ (s.freePalette src).muxCh = s.muxCh ∧
    (s.freePalette src).host = s.host ∧ (s.freePalette src).freeCtr = s.freeCtr + 1 := by
  and_intros <;> rfl

theorem PaletteTable.freeRam_wf (p : PaletteTable) (src : Byte) (n : Nat)
    (h : Cells.wf Rgb.black p.ram ∧ Cells.below 65536 p.ram) :
    ∀ i ≤ 256, Cells.wf Rgb.black (p.freeRam src n i) ∧ Cells.below 65536 (p.freeRam src n i)
  | 0, _ => h
  | i + 1, hi => by
    have ih := PaletteTable.freeRam_wf p src n h i (by omega)
    have := src.isLt
    exact ⟨Cells.wf_set ih.1 _ _, Cells.below_set ih.2 (by omega) _⟩

/-- The entries of every other source are what they were. -/
theorem PaletteTable.get_freeRam (p : PaletteTable) (src : Byte) (n k : Nat) :
    ∀ i, k < 256 * src.toNat ∨ 256 * src.toNat + i ≤ k →
      Cells.get Rgb.black (p.freeRam src n i) k = Cells.get Rgb.black p.ram k
  | 0, _ => rfl
  | i + 1, h => by
    rw [PaletteTable.freeRam, Cells.get_set_other _ _ _ (by omega)]
    exact PaletteTable.get_freeRam p src n k i (by omega)

/-! Storing a record. -/

@[simp] theorem State.storePoint_fields (s : State) (p : Point) :
    (s.storePoint p).params = s.params ∧ (s.storePoint p).dec = s.dec ∧ (s.storePoint p).pal = s.pal ∧
    (s.storePoint p).cfg = s.cfg ∧ (s.storePoint p).lat = s.lat ∧ (s.storePoint p).runState = s.runState ∧
    (s.storePoint p).hid = s.hid ∧ (s.storePoint p).wrk = s.wrk ∧ (s.storePoint p).err = s.err ∧
    (s.storePoint p).inp = s.inp ∧ (s.storePoint p).sink = s.sink ∧
    (s.storePoint p).sinkSeekable = s.sinkSeekable ∧ (s.storePoint p).sch = s.sch ∧
    (s.storePoint p).muxCh = s.muxCh ∧ (s.storePoint p).host = s.host ∧ (s.storePoint p).freeCtr = s.freeCtr ∧
    (s.storePoint p).fb.srcid = s.fb.srcid ∧ (s.storePoint p).fb.count = s.fb.count ∧
    (s.storePoint p).fb.pt = Cells.set Point.zero s.fb.pt s.dec.recIdx.toNat p := by
  and_intros <;> rfl

@[simp] theorem State.palStore_fields (s : State) (src : Byte) (c : Rgb) :
    (s.palStore src c).params = s.params ∧ (s.palStore src c).dec = s.dec ∧ (s.palStore src c).fb = s.fb ∧
    (s.palStore src c).cfg = s.cfg ∧ (s.palStore src c).lat = s.lat ∧
    (s.palStore src c).runState = s.runState ∧ (s.palStore src c).hid = s.hid ∧
    (s.palStore src c).wrk = s.wrk ∧ (s.palStore src c).err = s.err ∧ (s.palStore src c).inp = s.inp ∧
    (s.palStore src c).sink = s.sink ∧ (s.palStore src c).sinkSeekable = s.sinkSeekable ∧
    (s.palStore src c).sch = s.sch ∧ (s.palStore src c).muxCh = s.muxCh ∧
    (s.palStore src c).host = s.host ∧ (s.palStore src c).freeCtr = s.freeCtr ∧
    (s.palStore src c).pal.valid = s.pal.valid ∧ (s.palStore src c).pal.len = s.pal.len := by
  unfold State.palStore
  split <;> (and_intros <;> rfl)

/-! The body loop. -/

/-- What holds before the loop and is kept by reading and storing one record holds where the loop ends: of the
state it answers, or of the state in which the short read's fault entry begins. -/
theorem bodyLoop_keeps {size : Nat} {f : Byte} {store : State → List Byte → State} {P : State → Prop}
    (hstep : ∀ s bs, P s → s.inp.readBytes s.dec.inPos size = some bs →
      P ((store (s.setInPos (s.dec.inPos + size)) bs).setRecIdx
        ((s.setInPos (s.dec.inPos + size)).dec.recIdx + 1))) :
    ∀ (n : Nat) (s : State), P s →
      (∃ t, bodyLoop size f store n s = .ok t ∧ P t) ∨
      (∃ u, P u ∧ u.inp.len < u.dec.inPos + size ∧ bodyLoop size f store n s =
        .error ((u.setInPos u.inp.len).raise .unexpectedEof .body f u.dec.inPos false))
  | 0, s, h => .inl ⟨s, rfl, h⟩
  | n + 1, s, h => by
    rcases s.srcRead_cases size .body f with ⟨bs, -, hr, he⟩ | ⟨hlt, he⟩
    · rcases bodyLoop_keeps hstep n _ (hstep s bs h hr) with ⟨t, ht, hp⟩ | ⟨u, hp, hu, hu2⟩
      · exact .inl ⟨t, by rw [bodyLoop, he]; exact ht, hp⟩
      · exact .inr ⟨u, hp, hu, by rw [bodyLoop, he]; exact hu2⟩
    · exact .inr ⟨s, h, hlt, by rw [bodyLoop, he]⟩

/-- With all its records in the stream the loop answers a state. -/
theorem bodyLoop_complete {size : Nat} {f : Byte} {store : State → List Byte → State}
    (hpos : ∀ s bs, (store s bs).dec.inPos = s.dec.inPos) (hinp : ∀ s bs, (store s bs).inp = s.inp) :
    ∀ (n : Nat) (s : State), s.dec.inPos + n * size ≤ s.inp.len → ∃ t, bodyLoop size f store n s = .ok t
  | 0, s, _ => ⟨s, rfl⟩
  | n + 1, s, h => by
    have hm : (n + 1) * size = n * size + size := Nat.succ_mul n size
    obtain ⟨bs, -, he⟩ := s.srcRead_ok size .body f (by omega)
    rw [bodyLoop, he]
    refine bodyLoop_complete hpos hinp n _ ?_
    simp only [State.setRecIdx_fields, hpos, hinp, State.setInPos_fields]
    omega

end Sys2Proof.Machine
end

