-- ==== Sys2Proof/Laws/Step.lean ====
section
/-! SUPPORT. What a step is, by where the block stands; and that blocks, selectors and pulls answer a next
state. -/

namespace Sys2Proof.Machine

theorem step_of_running {s : State} (h : s.runState = .running) : step s = s.runStep := by
  rw [step, State.advance, if_pos h]

theorem step_of_command {s : State} {c : HostCmd} {rest : List HostCmd} (h : s.runState ≠ .running)
    (hc : s.host = c :: rest) : step s = (s.setHost rest).hostCmd c := by
  rw [step, State.advance, if_neg h, hc]

theorem step_of_waiting {s : State} (h : s.runState ≠ .running) (hc : s.host = []) : step s = .next s := by
  rw [step, State.advance, if_neg h, hc]

theorem exec_answers_next (i : Instr) (s : State) : ∃ t, exec i s = .next t := by
  cases i <;> exact ⟨_, rfl⟩

/-- The decoder's answers to a header that was read whole. -/
theorem decodeHeader_cases (p : Params) (bs : List Byte) (h : bs.length = 32) :
    decodeHeader p bs = .error .badMagic ∨
    decodeHeader p bs = .ok (selectBlock (bs.getD 7 0) (headerFields bs)) := by
  unfold decodeHeader
  rw [if_neg (by omega)]
  split
  · exact .inl rfl
  · exact .inr rfl

/-- The ways a pull goes (R141): the two terminal states, the short header, the wrong tag, and the block that the
header selects. -/
theorem nextFrame_cases (s : State) :
    (s.dec.state = .faulted ∧ s.nextFrame = .next (s.setResult .fault)) ∨
    (s.dec.state = .exhausted ∧ s.nextFrame = .next (s.setResult .endOfStream)) ∨
    (s.dec.state ≠ .faulted ∧ s.dec.state ≠ .exhausted ∧
      ((s.inp.len < s.dec.inPos + 32 ∧ s.nextFrame =
          .next ((s.setInPos s.inp.len).raise .unexpectedEof .header 0 s.dec.inPos false)) ∨
       (s.dec.inPos + 32 ≤ s.inp.len ∧ s.nextFrame =
          .next ((s.setInPos (s.dec.inPos + 32)).raise .corruptFormat .header 0 s.dec.inPos false)) ∨
       (s.dec.inPos + 32 ≤ s.inp.len ∧ ∃ f h, s.nextFrame =
          exec (selectBlock f h) (s.setInPos (s.dec.inPos + 32))))) := by
  unfold State.nextFrame
  by_cases hf : s.dec.state = .faulted
  · exact .inl ⟨hf, if_pos hf⟩
  by_cases he : s.dec.state = .exhausted
  · exact .inr (.inl ⟨he, by rw [if_neg hf, if_pos he]⟩)
  refine .inr (.inr ⟨hf, he, ?_⟩)
  rw [if_neg hf, if_neg he, State.pullBlock]
  rcases s.srcRead_cases Config.hdrSize .header 0 with ⟨bs, hl, hr, hs⟩ | ⟨hl, hs⟩
  · have hb := ((Memory.readBytes_eq_some _ _ _ _).1 hr).2.1
    rcases decodeHeader_cases s.params bs hb with hd | hd
    · exact .inr (.inl ⟨hl, by rw [hs]; simp only [hd]; rfl⟩)
    · exact .inr (.inr ⟨hl, _, _, by rw [hs]; simp only [hd]; rfl⟩)
  · exact .inl ⟨hl, by rw [hs]⟩

theorem nextFrame_answers_next (s : State) : ∃ t, s.nextFrame = .next t := by
  rcases nextFrame_cases s with ⟨-, h⟩ | ⟨-, h⟩ | ⟨-, -, ⟨-, h⟩ | ⟨-, h⟩ | ⟨-, f, hd, h⟩⟩
  · exact ⟨_, h⟩
  · exact ⟨_, h⟩
  · exact ⟨_, h⟩
  · exact ⟨_, h⟩
  · obtain ⟨t, ht⟩ := exec_answers_next (selectBlock f hd) (s.setInPos (s.dec.inPos + 32))
    exact ⟨t, h.trans ht⟩

end Sys2Proof.Machine
end

