-- ==== Sys2Proof/Laws/Blocks.lean ====
section
/-! SUPPORT. What a block and a pull leave alone, whether they end well or in a fault, and how each ends. -/

namespace Sys2Proof.Machine

/-- What no block and no pull changes. -/
structure BlockKeeps (s t : State) : Prop where
  params : t.params = s.params
  cfg : t.cfg = s.cfg
  lat : t.lat = s.lat
  hid : t.hid = s.hid
  wrk : t.wrk = s.wrk
  inp : t.inp = s.inp
  sink : t.sink = s.sink
  sinkSeekable : t.sinkSeekable = s.sinkSeekable
  sch : t.sch = s.sch
  muxCh : t.muxCh = s.muxCh
  host : t.host = s.host

theorem BlockKeeps.refl (s : State) : BlockKeeps s s := ⟨rfl, rfl, rfl, rfl, rfl, rfl, rfl, rfl, rfl, rfl, rfl⟩

theorem BlockKeeps.trans {s t u : State} (h : BlockKeeps s t) (k : BlockKeeps t u) : BlockKeeps s u :=
  ⟨k.params.trans h.params, k.cfg.trans h.cfg, k.lat.trans h.lat, k.hid.trans h.hid, k.wrk.trans h.wrk,
    k.inp.trans h.inp, k.sink.trans h.sink, k.sinkSeekable.trans h.sinkSeekable, k.sch.trans h.sch,
    k.muxCh.trans h.muxCh, k.host.trans h.host⟩

theorem State.raise_keeps (s : State) (c : ErrCode) (g : ErrStage) (i : Byte) (p : Nat) (b : Bool) :
    BlockKeeps s (s.raise c g i p b) := by
  constructor <;> simp

theorem State.setInPos_keeps (s : State) (n : Nat) : BlockKeeps s (s.setInPos n) := by
  constructor <;> simp

/-- How a block of points ends: with all its records read, or by the fault entry at a record that is not whole, with
the frame buffer then free. What the body loop keeps is `BlockKeeps`, the palette, the errors and the run state. -/
theorem pointBlock_ends (k : PointKind) (h : Header) (s : State) :
    ∃ u, BlockKeeps s u ∧ u.pal = s.pal ∧ u.err = s.err ∧ u.runState = s.runState ∧ u.freeCtr = s.freeCtr ∧
      s.dec.inPos ≤ u.dec.inPos ∧ u.fb.count = h.count ∧
      (pointBlock k h s = u.leaveBody .frame ∨
       (u.inp.len < u.dec.inPos + k.recSize s.params.fmt1Layout ∧ pointBlock k h s =
         ((u.setInPos u.inp.len).raise .unexpectedEof .body k.format u.dec.inPos false).freeFrame)) := by
  let s1 := s.enterBody k.format h
  let s2 := s1.setFb { s1.fb with srcid := h.srcid, count := h.count }
  have hb : pointBlock k h s = match bodyLoop (k.recSize s.params.fmt1Layout) k.format
      (storePointRecord k h.srcid) h.count.toNat s2 with
    | .ok t => t.leaveBody .frame
    | .error t => t.freeFrame := rfl
  rw [hb]
  let P : State → Prop := fun u => BlockKeeps s u ∧ u.pal = s.pal ∧ u.err = s.err ∧ u.runState = s.runState ∧
    u.freeCtr = s.freeCtr ∧ s.dec.inPos ≤ u.dec.inPos ∧ u.fb.count = h.count
  have h2 : P s2 := by
    refine ⟨⟨?_, ?_, ?_, ?_, ?_, ?_, ?_, ?_, ?_, ?_, ?_⟩, ?_⟩ <;> simp [s2, s1, State.enterBody]
  have keep := bodyLoop_keeps (size := k.recSize s.params.fmt1Layout) (f := k.format)
    (store := storePointRecord k h.srcid) (P := P) (by
      rintro u bs ⟨hk, h3, h4, h5, h6, h7, h8⟩ -
      refine ⟨hk.trans ?_, ?_⟩
      · constructor <;> simp [storePointRecord]
      · simp only [storePointRecord, State.setRecIdx_fields, State.storePoint_fields, State.setInPos_fields]
        exact ⟨h3, h4, h5, h6, by omega, h8⟩) h.count.toNat s2 h2
  rcases keep with ⟨t, ht, hp⟩ | ⟨u, hp, hlt, hu⟩
  · rw [ht]
    obtain ⟨hk, h3, h4, h5, h6, h7, h8⟩ := hp
    exact ⟨t, hk, h3, h4, h5, h6, h7, h8, .inl rfl⟩
  · rw [hu]
    obtain ⟨hk, h3, h4, h5, h6, h7, h8⟩ := hp
    exact ⟨u, hk, h3, h4, h5, h6, h7, h8, .inr ⟨hlt, rfl⟩⟩

/-- How a palette load ends; the body loop keeps `BlockKeeps`, the frame buffer, the errors, the run state, and
which palettes are loaded and how long they are. -/
theorem palBlock_ends (h : Header) (s : State) :
    ∃ u, BlockKeeps s u ∧ u.fb = s.fb ∧ u.pal.valid = s.pal.valid ∧ u.pal.len = s.pal.len ∧ u.err = s.err ∧
      u.runState = s.runState ∧ u.freeCtr = s.freeCtr ∧ s.dec.inPos ≤ u.dec.inPos ∧
      (palBlock h s = (u.palCommit h.srcid h.count).leaveBody .palette ∨
       (u.inp.len < u.dec.inPos + palRecSize ∧ palBlock h s =
         ((u.setInPos u.inp.len).raise .unexpectedEof .body 2 u.dec.inPos false).freePalette h.srcid)) := by
  have hb : palBlock h s = match bodyLoop palRecSize 2 (storePalRecord h.srcid) h.count.toNat (s.enterBody 2 h) with
    | .ok t => (t.palCommit h.srcid h.count).leaveBody .palette
    | .error t => t.freePalette h.srcid := rfl
  rw [hb]
  let P : State → Prop := fun u => BlockKeeps s u ∧ u.fb = s.fb ∧ u.pal.valid = s.pal.valid ∧
    u.pal.len = s.pal.len ∧ u.err = s.err ∧ u.runState = s.runState ∧ u.freeCtr = s.freeCtr ∧
    s.dec.inPos ≤ u.dec.inPos
  have h2 : P (s.enterBody 2 h) := by
    refine ⟨⟨?_, ?_, ?_, ?_, ?_, ?_, ?_, ?_, ?_, ?_, ?_⟩, ?_⟩ <;> simp [State.enterBody]
  have keep := bodyLoop_keeps (size := palRecSize) (f := 2) (store := storePalRecord h.srcid) (P := P) (by
      rintro u bs ⟨hk, h3, h4, h5, h6, h7, h8, h9⟩ -
      refine ⟨hk.trans ?_, ?_⟩
      · constructor <;> simp [storePalRecord]
      · simp only [storePalRecord, State.setRecIdx_fields, State.palStore_fields, State.setInPos_fields]
        exact ⟨h3, h4, h5, h6, h7, h8, by omega⟩) h.count.toNat (s.enterBody 2 h) h2
  rcases keep with ⟨t, ht, hp⟩ | ⟨u, hp, hlt, hu⟩
  · rw [ht]
    obtain ⟨hk, h3, h4, h5, h6, h7, h8, h9⟩ := hp
    exact ⟨t, hk, h3, h4, h5, h6, h7, h8, h9, .inl rfl⟩
  · rw [hu]
    obtain ⟨hk, h3, h4, h5, h6, h7, h8, h9⟩ := hp
    exact ⟨u, hk, h3, h4, h5, h6, h7, h8, h9, .inr ⟨hlt, rfl⟩⟩

theorem pointBlock_keeps (k : PointKind) (h : Header) (s : State) : BlockKeeps s (pointBlock k h s) := by
  obtain ⟨u, hk, -, -, -, -, -, -, he | ⟨-, he⟩⟩ := pointBlock_ends k h s <;> rw [he] <;> refine hk.trans ?_
  · constructor <;> simp [State.leaveBody]
  · constructor <;> simp

theorem palBlock_keeps (h : Header) (s : State) : BlockKeeps s (palBlock h s) := by
  obtain ⟨u, hk, -, -, -, -, -, -, -, he | ⟨-, he⟩⟩ := palBlock_ends h s <;> rw [he] <;> refine hk.trans ?_
  · constructor <;> simp [State.leaveBody, State.palCommit]
  · constructor <;> simp

/-- What the block a header selects leaves alone. -/
theorem exec_selectBlock_keeps (f : Byte) (h : Header) (s t : State) (e : exec (selectBlock f h) s = .next t) :
    BlockKeeps s t := by
  unfold selectBlock at e
  repeat' split at e
  all_goals
    simp only [exec, execEndBlock, execIdx3d, execIdx2d, execPal, execTc3d, execTc2d, execIllegal,
      Host.Outcome.next.injEq] at e
    subst e
  · constructor <;> simp
  · exact pointBlock_keeps _ _ _
  · exact pointBlock_keeps _ _ _
  · exact palBlock_keeps _ _
  · exact pointBlock_keeps _ _ _
  · exact pointBlock_keeps _ _ _
  · exact State.raise_keeps _ _ _ _ _ _

/-- What a pull leaves alone. -/
theorem nextFrame_keeps (s t : State) (e : s.nextFrame = .next t) : BlockKeeps s t := by
  rcases nextFrame_cases s with ⟨-, h⟩ | ⟨-, h⟩ | ⟨-, -, ⟨-, h⟩ | ⟨-, h⟩ | ⟨-, f, hd, h⟩⟩ <;> rw [h] at e
  · cases e; constructor <;> simp
  · cases e; constructor <;> simp
  · cases e; exact (s.setInPos_keeps _).trans (State.raise_keeps _ _ _ _ _ _)
  · cases e; exact (s.setInPos_keeps _).trans (State.raise_keeps _ _ _ _ _ _)
  · exact (s.setInPos_keeps _).trans (exec_selectBlock_keeps f hd _ _ e)

end Sys2Proof.Machine
end

