-- ==== Sys2Proof/Laws/Bytes.lean ====
section
/-! SUPPORT. Joining bytes and splitting into bytes are inverse. -/

namespace Sys2Proof

theorem byteOf_getLsbD {w : Nat} (v : BitVec w) (i j : Nat) :
    (byteOf v i).getLsbD j = (decide (j < 8) && v.getLsbD (8 * i + j)) := by
  simp [byteOf]

theorem join2_split (v : BitVec 16) : u16be (byteOf v 1) (byteOf v 0) = v := by
  apply BitVec.eq_of_getLsbD_eq
  intro i hi
  simp only [u16be, BitVec.getLsbD_append, byteOf_getLsbD]
  split
  · simp [*]
  · simp only [decide_eq_true (show i - 8 < 8 by omega), Bool.true_and]
    congr 1; omega

theorem byteOf_u16be (a b : Byte) : byteOf (u16be a b) 1 = a ∧ byteOf (u16be a b) 0 = b := by
  constructor <;> apply BitVec.eq_of_getLsbD_eq <;> intro i hi <;>
    simp only [u16be, BitVec.getLsbD_append, byteOf_getLsbD, decide_eq_true hi, Bool.true_and]
  · rw [if_neg (by omega)]; congr 1; omega
  · rw [if_pos (by omega)]; congr 1; omega

/-- `u16be(b0, b1) = 256 * u8(b0) + u8(b1)`, as R9 writes it. -/
theorem u16be_toNat (a b : Byte) : (u16be a b).toNat = 256 * a.toNat + b.toNat := by
  have := b.isLt
  rw [u16be, BitVec.toNat_append, ← Nat.shiftLeft_add_eq_or_of_lt (by simpa using b.isLt), Nat.shiftLeft_eq]
  omega

end Sys2Proof
end

