-- ==== Sys2Proof/Laws/PerInstr.lean ====
section
/-! SUPPORT. One lemma per instruction: how long its encoding is (R91, R110). -/

namespace Sys2Proof.Laws.EncodeSize

/-- A channel selector is one byte, every other instruction a 32-byte header. -/
def Statement (i : Instr) : Prop :=
  ∀ p : Params, (encode p i).length = match i with
    | .sigX => 1
    | .sigY => 1
    | .sigZ => 1
    | .sigL => 1
    | .sigR => 1
    | .sigG => 1
    | .sigB => 1
    | .endBlock _ _ => 32
    | .idx3d _ => 32
    | .idx2d _ => 32
    | .pal _ => 32
    | .tc3d _ => 32
    | .tc2d _ => 32
    | .illegal _ _ => 32

theorem endBlock (f : Byte) (h : Header) : Statement (.endBlock f h) := fun _ => rfl

theorem idx3d (h : Header) : Statement (.idx3d h) := fun _ => rfl

theorem idx2d (h : Header) : Statement (.idx2d h) := fun _ => rfl

theorem pal (h : Header) : Statement (.pal h) := fun _ => rfl

theorem tc3d (h : Header) : Statement (.tc3d h) := fun _ => rfl

theorem tc2d (h : Header) : Statement (.tc2d h) := fun _ => rfl

theorem illegal (f : Byte) (h : Header) : Statement (.illegal f h) := fun _ => rfl

theorem sigX : Statement .sigX := fun _ => rfl

theorem sigY : Statement .sigY := fun _ => rfl

theorem sigZ : Statement .sigZ := fun _ => rfl

theorem sigL : Statement .sigL := fun _ => rfl

theorem sigR : Statement .sigR := fun _ => rfl

theorem sigG : Statement .sigG := fun _ => rfl

theorem sigB : Statement .sigB := fun _ => rfl

end Sys2Proof.Laws.EncodeSize
end

