-- ==== Sys2Proof/Laws/Run.lean ====
section
/-! SUPPORT. What the operations of a run and of START can do, each once, and what a step can do at all. -/

namespace Sys2Proof.Machine

/-! Appending (R66). -/

theorem Memory.append_nil (m : Memory) : m.append [] = m := rfl

theorem Memory.writeBytes_append (bs cs : List Byte) :
    ∀ (m : Memory) (a : Nat), m.writeBytes a (bs ++ cs) = (m.writeBytes a bs).writeBytes (a + bs.length) cs := by
  induction bs with
  | nil => intro m a; rfl
  | cons b bs ih =>
    intro m a
    rw [List.cons_append, Memory.writeBytes, ih, Memory.writeBytes, List.length_cons, Nat.add_assoc a 1,
      Nat.add_comm 1]

/-- Two appends are one. -/
theorem Memory.append_append (m : Memory) (bs cs : List Byte) : (m.append bs).append cs = m.append (bs ++ cs) := by
  rw [Memory.append, Memory.len_append, Memory.append, Memory.append, Memory.writeBytes_append]

/-! Sample frames (R254). -/

theorem sampleFrame_length (n : Nat) (sm : Cells (BitVec 16)) : (sampleFrame n sm).length = 2 * n := by
  induction n with
  | zero => rfl
  | succ n ih =>
    rw [sampleFrame, List.range_succ, List.flatMap_append, List.length_append]
    rw [sampleFrame] at ih
    rw [ih]
    simp [le16]
    omega

/-- The two bytes of channel `c` in a sample frame. -/
theorem sampleFrame_getElem (n : Nat) (sm : Cells (BitVec 16)) (c : Nat) (h : c < n) :
    (sampleFrame n sm)[2 * c]? = some (byteOf (Cells.get 0 sm c) 0) ∧
    (sampleFrame n sm)[2 * c + 1]? = some (byteOf (Cells.get 0 sm c) 1) := by
  induction n with
  | zero => omega
  | succ n ih =>
    have hl := sampleFrame_length n sm
    have he : sampleFrame (n + 1) sm = sampleFrame n sm ++ le16 (Cells.get 0 sm n) := by
      rw [sampleFrame, List.range_succ, List.flatMap_append, sampleFrame]
      simp
    rw [he]
    by_cases hc : c < n
    · rw [List.getElem?_append_left (by omega), List.getElem?_append_left (by omega)]
      exact ih hc
    · have hcn : c = n := by omega
      subst hcn
      rw [List.getElem?_append_right (by omega), List.getElem?_append_right (by omega), hl,
        show 2 * c - 2 * c = 0 by omega, show 2 * c + 1 - 2 * c = 1 by omega]
      exact ⟨rfl, rfl⟩

/-- `n` sample frames are one append; nothing but the sink and `DATA_LEN` changes. -/
theorem State.emitSampleFrames_eq : ∀ (n : Nat) (s : State), s.emitSampleFrames n =
    (s.setSink (s.sink.append (List.replicate n (sampleFrame s.lat.nch.toNat s.wrk.sample)).flatten)).setHid
      { s.hid with dataLen := s.hid.dataLen + n * (2 * s.lat.nch.toNat) }
  | 0, s => by simp [State.emitSampleFrames, State.setSink, State.setHid, Memory.append_nil]
  | n + 1, s => by
    rw [State.emitSampleFrames, State.emitSampleFrames_eq n]
    simp only [State.emitSampleFrame, State.setHid_fields, State.setSink_fields, Memory.append_append,
      List.replicate_succ, List.flatten_cons]
    rw [Nat.add_assoc s.hid.dataLen, Nat.add_comm (2 * _), ← Nat.succ_mul n]
    rfl

/-! The channel registers (R43, R110, R284). -/

theorem isChannelCode_iff (c : Byte) :
    isChannelCode c = true ↔ c ∈ ([0x78, 0x79, 0x7A, 0x6C, 0x72, 0x67, 0x62] : List Byte) := by
  revert c
  decide

theorem get_copyChannels (src dst : Cells Byte) (c : Nat) :
    ∀ n, Cells.get 0 (copyChannels src dst n) c = if c < n then Cells.get 0 src c else Cells.get 0 dst c
  | 0 => by simp [copyChannels]
  | n + 1 => by
    rw [copyChannels, Cells.get_set, get_copyChannels src dst c n]
    by_cases h : n = c
    · subst h; simp
    · rw [if_neg h]
      by_cases h2 : c < n
      · rw [if_pos h2, if_pos (by omega)]
      · rw [if_neg h2, if_neg (by omega)]

theorem copyChannels_wf (src : Cells Byte) {dst : Cells Byte} {m : Nat} (h : Cells.wf 0 dst ∧ Cells.below m dst) :
    ∀ n ≤ m, Cells.wf 0 (copyChannels src dst n) ∧ Cells.below m (copyChannels src dst n)
  | 0, _ => h
  | n + 1, hn => by
    have ih := copyChannels_wf src h n (by omega)
    exact ⟨Cells.wf_set ih.1 _ _, Cells.below_set ih.2 (by omega) _⟩

/-- The first channel, in index order, whose code is none of the seven; or every code is one of them. -/
theorem State.firstBadChannel_cases (s : State) :
    (s.firstBadChannel = none ∧ ∀ c < s.cfg.nch.toNat, isChannelCode (Cells.get 0 s.cfg.ch c) = true) ∨
    (∃ c, c < s.cfg.nch.toNat ∧ s.firstBadChannel = some (Cells.get 0 s.cfg.ch c) ∧
      isChannelCode (Cells.get 0 s.cfg.ch c) = false ∧
      ∀ d < c, isChannelCode (Cells.get 0 s.cfg.ch d) = true) := by
  unfold State.firstBadChannel
  generalize s.cfg.nch.toNat = n
  induction n with
  | zero => exact .inl ⟨rfl, fun c h => absurd h (Nat.not_lt_zero c)⟩
  | succ n ih =>
    rw [List.range_succ, List.map_append, List.find?_append]
    rcases ih with ⟨h, ha⟩ | ⟨c, hc, h, hb, hd⟩
    · rw [h]
      by_cases hn : isChannelCode (Cells.get 0 s.cfg.ch n) = true
      · refine .inl ⟨by simpa using hn, fun c hc => ?_⟩
        by_cases he : c = n
        · rw [he]; exact hn
        · exact ha c (by omega)
      · exact .inr ⟨n, by omega, by simpa using hn, by simpa using hn, ha⟩
    · rw [h]
      exact .inr ⟨c, by omega, rfl, hb, hd⟩

/-! START (R250, R293). -/

/-- The condition of R286. -/
theorem State.badConfig_iff (s : State) : s.badConfig = true ↔
    s.cfg.fps = 0 ∨ s.cfg.pps = 0 ∨ s.cfg.nch = 0 ∨ s.params.maxCh < s.cfg.nch.toNat := by
  simp [State.badConfig, or_assoc]

/-- The ways START goes: not accepted, one of the three errors in the order of R293, or the start of a run. -/
theorem State.startCmd_cases (s : State) :
    (¬ (s.runState = .idle ∧ s.err.code = .none) ∧ s.startCmd = s) ∨
    (s.runState = .idle ∧ s.err.code = .none ∧
      ((s.badConfig = true ∧ s.startCmd = s.raise .badConfig .config 0 0 true) ∨
       (s.badConfig = false ∧
        ((∃ c, c < s.cfg.nch.toNat ∧ isChannelCode (Cells.get 0 s.cfg.ch c) = false ∧
            (∀ d < c, isChannelCode (Cells.get 0 s.cfg.ch d) = true) ∧
            s.startCmd = s.raise .invalidSignal .config (Cells.get 0 s.cfg.ch c) 0 true) ∨
         ((∀ c < s.cfg.nch.toNat, isChannelCode (Cells.get 0 s.cfg.ch c) = true) ∧
          ((s.sinkSeekable = false ∧ s.startCmd = s.raise .nonSeekableSink .sink 0 0 true) ∨
           (s.sinkSeekable = true ∧
            s.startCmd = ((s.latchConfig.setRunState .running).appendPlaceholder).setSch .pull))))))) := by
  unfold State.startCmd
  by_cases hi : s.runState = .idle ∧ s.err.code = .none
  · rw [if_pos hi]
    refine .inr ⟨hi.1, hi.2, ?_⟩
    by_cases hb : s.badConfig = true
    · exact .inl ⟨hb, by rw [if_pos hb]⟩
    · rw [if_neg hb]
      refine .inr ⟨by simpa using hb, ?_⟩
      rcases s.firstBadChannel_cases with ⟨hf, ha⟩ | ⟨c, hc, hf, hbad, hd⟩
      · rw [hf]
        refine .inr ⟨ha, ?_⟩
        cases hs : s.sinkSeekable
        · exact .inl ⟨rfl, by simp⟩
        · exact .inr ⟨rfl, by simp⟩
      · rw [hf]
        exact .inl ⟨c, hc, hbad, hd, rfl⟩
  · exact .inl ⟨hi, if_neg hi⟩

/-! What the steps of a run leave alone. -/

/-- What no step of a run changes but for its pull: the decoder and its tables, the configuration, the errors, the
input, and what is the host's. -/
structure RunKeeps (s t : State) : Prop where
  params : t.params = s.params
  dec : t.dec = s.dec
  pal : t.pal = s.pal
  fb : t.fb = s.fb
  cfg : t.cfg = s.cfg
  lat : t.lat = s.lat
  err : t.err = s.err
  inp : t.inp = s.inp
  sinkSeekable : t.sinkSeekable = s.sinkSeekable
  host : t.host = s.host
  freeCtr : t.freeCtr = s.freeCtr

theorem RunKeeps.trans {s t u : State} (h : RunKeeps s t) (k : RunKeeps t u) : RunKeeps s u :=
  ⟨k.params.trans h.params, k.dec.trans h.dec, k.pal.trans h.pal, k.fb.trans h.fb, k.cfg.trans h.cfg,
    k.lat.trans h.lat, k.err.trans h.err, k.inp.trans h.inp, k.sinkSeekable.trans h.sinkSeekable,
    k.host.trans h.host, k.freeCtr.trans h.freeCtr⟩

theorem State.nextLocation_keeps (s : State) :
    RunKeeps s s.nextLocation ∧ s.nextLocation.runState = s.runState ∧ s.nextLocation.hid = s.hid ∧
    s.nextLocation.sink = s.sink := by
  unfold State.nextLocation
  split <;> exact ⟨by constructor <;> simp, by simp, by simp, by simp⟩

theorem State.startLocation_keeps (s : State) :
    RunKeeps s s.startLocation ∧ s.startLocation.runState = s.runState ∧ s.startLocation.hid = s.hid ∧
    s.startLocation.sink = s.sink := by
  simp only [State.startLocation]
  split
  · obtain ⟨h, h1, h2, h3⟩ := s.allocLocation.nextLocation_keeps
    have a : RunKeeps s s.allocLocation := by constructor <;> simp [State.allocLocation]
    exact ⟨a.trans h, by rw [h1]; simp [State.allocLocation], by rw [h2]; simp [State.allocLocation],
      by rw [h3]; simp [State.allocLocation]⟩
  · exact ⟨by constructor <;> simp [State.beginLocation, State.allocLocation],
      by simp [State.beginLocation, State.allocLocation], by simp [State.beginLocation, State.allocLocation],
      by simp [State.beginLocation, State.allocLocation]⟩

theorem State.startSubSample_keeps (s : State) :
    RunKeeps s s.startSubSample ∧ s.startSubSample.runState = s.runState ∧ s.startSubSample.sink = s.sink :=
  ⟨by constructor <;> simp [State.startSubSample, State.setPosition, State.holdCount],
    by simp [State.startSubSample, State.setPosition, State.holdCount],
    by simp [State.startSubSample, State.setPosition, State.holdCount]⟩

theorem State.emitSampleFrames_keeps (s : State) (n : Nat) :
    RunKeeps s (s.emitSampleFrames n) ∧ (s.emitSampleFrames n).runState = s.runState := by
  rw [State.emitSampleFrames_eq]
  exact ⟨by constructor <;> simp, by simp⟩

theorem State.finishSubSample_keeps (s : State) :
    RunKeeps s s.finishSubSample ∧ s.finishSubSample.runState = s.runState := by
  obtain ⟨h, hr⟩ := s.emitSampleFrames_keeps s.wrk.repN.toNat
  simp only [State.finishSubSample]
  generalize s.emitSampleFrames s.wrk.repN.toNat = u at h hr ⊢
  split
  · exact ⟨h.trans (by constructor <;> simp), by simp [hr]⟩
  · obtain ⟨k, kr, -⟩ := u.endLocation.nextLocation_keeps
    have e : RunKeeps u u.endLocation := by constructor <;> simp [State.endLocation]
    exact ⟨(h.trans e).trans k, by rw [kr]; simp [State.endLocation, hr]⟩

theorem State.afterPull_keeps (s : State) : RunKeeps s s.afterPull := by
  unfold State.afterPull
  split <;> (constructor <;> simp [State.beginFrame, State.endRun])

theorem State.putSample_keeps (s : State) (v : BitVec 16) :
    RunKeeps s (s.putSample v) ∧ (s.putSample v).runState = s.runState ∧ (s.putSample v).hid = s.hid ∧
    (s.putSample v).sink = s.sink :=
  ⟨by constructor <;> simp [State.putSample], by simp [State.putSample], by simp [State.putSample],
    by simp [State.putSample]⟩

/-- What START leaves alone, however it goes. -/
theorem State.startCmd_keeps (s : State) : s.startCmd.params = s.params ∧ s.startCmd.cfg = s.cfg ∧
    s.startCmd.inp = s.inp ∧ s.startCmd.dec.inPos = s.dec.inPos ∧ s.startCmd.host = s.host ∧
    s.startCmd.pal = s.pal ∧ s.startCmd.fb = s.fb ∧ s.startCmd.wrk = s.wrk ∧
    s.startCmd.sinkSeekable = s.sinkSeekable ∧ s.startCmd.freeCtr = s.freeCtr := by
  rcases s.startCmd_cases with ⟨-, h⟩ | ⟨-, -, ⟨-, h⟩ | ⟨-, ⟨c, -, -, -, h⟩ | ⟨-, ⟨-, h⟩ | ⟨-, h⟩⟩⟩⟩ <;> rw [h] <;>
    simp [State.latchConfig, State.appendPlaceholder]

/-! What a step can do. -/

/-- A step of a run: a pull and what follows it, or one turn of the loops of R193, R221 and R222. -/
theorem step_running_cases {s t : State} (hr : s.runState = .running) (e : step s = .next t) :
    (s.sch = .pull ∧ ∃ u, s.nextFrame = .next u ∧ t = u.afterPull) ∨
    (s.sch = .location ∧ t = s.startLocation) ∨
    (s.sch = .subSample ∧ t = s.startSubSample) ∨
    (s.sch = .channels ∧ s.muxCh < s.lat.nch.toNat ∧
      ∃ i, decodeChannel (Cells.get 0 s.lat.ch s.muxCh) = .ok i ∧ exec i s = .next t) ∨
    (s.sch = .channels ∧ s.lat.nch.toNat ≤ s.muxCh ∧ t = s.finishSubSample) := by
  rw [step_of_running hr, State.runStep] at e
  cases hs : s.sch
  · obtain ⟨u, hu⟩ := nextFrame_answers_next s
    rw [hs, hu] at e
    cases e
    exact .inl ⟨rfl, u, hu, rfl⟩
  · rw [hs] at e; cases e; exact .inr (.inl ⟨rfl, rfl⟩)
  · rw [hs] at e; cases e; exact .inr (.inr (.inl ⟨rfl, rfl⟩))
  · rw [hs] at e
    by_cases hm : s.muxCh < s.lat.nch.toNat
    · simp only [hm, if_true, State.runChannel] at e
      cases hd : decodeChannel (Cells.get 0 s.lat.ch s.muxCh) with
      | error x => rw [hd] at e; cases e
      | ok i => rw [hd] at e; exact .inr (.inr (.inr (.inl ⟨rfl, hm, i, rfl, e⟩)))
    · simp only [hm, if_false] at e
      cases e
      exact .inr (.inr (.inr (.inr ⟨rfl, by omega, rfl⟩)))

/-- What the selector of a decoded channel code does: one sample, and the next channel is next. -/
theorem exec_channel {c : Byte} {i : Instr} (h : decodeChannel c = .ok i) (s : State) :
    ∃ v, exec i s = .next (s.putSample v) := by
  unfold decodeChannel at h
  repeat' split at h
  all_goals first | (cases h; done) | (cases h; exact ⟨_, rfl⟩)

/-- Every host command but RESET leaves the parameters, the input stream, the sink's ability to seek, the free
values, and, unless it is START, the latched configuration and the sink. -/
theorem step_idle_cases {s t : State} (hr : s.runState ≠ .running) (e : step s = .next t) :
    (s.host = [] ∧ t = s) ∨
    ∃ c rest, s.host = c :: rest ∧
      ((∃ att, c = .reset att ∧ t = (s.setHost rest).resetCmd att) ∨
       (c = .pull ∧ s.runState = .idle ∧ (s.setHost rest).nextFrame = .next t) ∨
       (c = .pull ∧ s.runState ≠ .idle ∧ t = s.setHost rest) ∨
       (c = .start ∧ t = (s.setHost rest).startCmd) ∨
       (c ≠ .pull ∧ c ≠ .start ∧ (∀ att, c ≠ .reset att) ∧ ∃ cfg, t = (s.setHost rest).setCfg cfg ∧
         (Cells.wf 0 s.cfg.ch ∧ Cells.below s.params.maxCh s.cfg.ch →
          Cells.wf 0 cfg.ch ∧ Cells.below s.params.maxCh cfg.ch))) := by
  cases hc : s.host with
  | nil => rw [step_of_waiting hr hc] at e; cases e; exact .inl ⟨rfl, rfl⟩
  | cons c rest =>
    rw [step_of_command hr hc] at e
    refine .inr ⟨c, rest, rfl, ?_⟩
    cases c with
    | reset att => cases e; exact .inl ⟨att, rfl, rfl⟩
    | pull =>
      by_cases hi : s.runState = .idle
      · exact .inr (.inl ⟨rfl, hi, by simpa [State.hostCmd, hi] using e⟩)
      · exact .inr (.inr (.inl ⟨rfl, hi, by simpa [State.hostCmd, hi] using e.symm⟩))
    | start => cases e; exact .inr (.inr (.inr (.inl ⟨rfl, rfl⟩)))
    | writeCh c v =>
      refine .inr (.inr (.inr (.inr ⟨by simp, by simp, by simp, ?_⟩)))
      simp only [State.hostCmd, Host.Outcome.next.injEq, State.writeCfgCh] at e
      split at e
      · next h => exact ⟨_, e.symm, fun hw => ⟨Cells.wf_set hw.1 _ _, Cells.below_set hw.2 h _⟩⟩
      · exact ⟨s.cfg, e.symm, id⟩
    | writeFps v => cases e; exact .inr (.inr (.inr (.inr ⟨by simp, by simp, by simp, _, rfl, id⟩)))
    | writePps v => cases e; exact .inr (.inr (.inr (.inr ⟨by simp, by simp, by simp, _, rfl, id⟩)))
    | writeRate v => cases e; exact .inr (.inr (.inr (.inr ⟨by simp, by simp, by simp, _, rfl, id⟩)))
    | writeNch v => cases e; exact .inr (.inr (.inr (.inr ⟨by simp, by simp, by simp, _, rfl, id⟩)))
    | writeInvert v => cases e; exact .inr (.inr (.inr (.inr ⟨by simp, by simp, by simp, _, rfl, id⟩)))

/-! Runs of many steps. -/

theorem run_of_step {s t : State} (h : step s = .next t) (n : Nat) :
    Host.Core.run core (n + 1) s = Host.Core.run core n t := by
  have gen : ∀ (M : Host.Core) (s t : M.State), M.step s = .next t → M.run (n + 1) s = M.run n t := by
    intro M s t h
    rw [Host.Core.run, h]
  exact gen core s t h

/-- A run of one step more begins with a step. -/
theorem run_succ_next {s t : State} {n : Nat} (h : Host.Core.run core (n + 1) s = .next t) :
    ∃ u, step s = .next u ∧ Host.Core.run core n u = .next t := by
  have gen : ∀ (M : Host.Core) (s t : M.State), M.run (n + 1) s = .next t →
      ∃ u, M.step s = .next u ∧ M.run n u = .next t := by
    intro M s t h
    rw [Host.Core.run] at h
    cases hs : M.step s with
    | next u => rw [hs] at h; exact ⟨u, rfl, h⟩
    | fault f => rw [hs] at h; cases h
    | refused r => rw [hs] at h; cases h
  exact gen core s t h

end Sys2Proof.Machine
end

