-- ==== Sys2Proof/Laws/Place.lean ====
section
/-! SUPPORT. The model's own record of where a run stands (log entry 6) is not read by a pull or by anything a pull
does. -/

namespace Sys2Proof.Machine

/-- `s` with another record of where a run stands. -/
def State.atPlace (s : State) (p : SchPhase) (m : Nat) : State := { s with sch := p, muxCh := m }

variable (s : State) (p : SchPhase) (m : Nat)

/-- Fault entry does not read it. -/
theorem raise_atPlace (c : ErrCode) (g : ErrStage) (i : Byte) (q : Nat) (b : Bool) :
    (s.atPlace p m).raise c g i q b = (s.raise c g i q b).atPlace p m := by
  unfold State.raise State.atPlace
  simp only
  split <;> split <;> rfl

/-- Nor does the sequential read. -/
theorem srcRead_atPlace (n : Nat) (g : ErrStage) (i : Byte) :
    (s.atPlace p m).srcRead n g i = match s.srcRead n g i with
      | .ok (bs, t) => .ok (bs, t.atPlace p m)
      | .error t => .error (t.atPlace p m) := by
  unfold State.srcRead
  have : (s.atPlace p m).inp.readBytes (s.atPlace p m).dec.inPos n = s.inp.readBytes s.dec.inPos n := rfl
  rw [this]
  cases s.inp.readBytes s.dec.inPos n with
  | some bs => rfl
  | none => simp only; congr 1; exact raise_atPlace (s.setInPos s.inp.len) p m _ _ _ _ _

/-- Nor does the body loop, if storing a record does not. -/
theorem bodyLoop_atPlace (size : Nat) (f : Byte) (store : State → List Byte → State) (p : SchPhase) (m : Nat)
    (hst : ∀ (s : State) bs, store (s.atPlace p m) bs = (store s bs).atPlace p m) :
    ∀ n (s : State), bodyLoop size f store n (s.atPlace p m) = match bodyLoop size f store n s with
      | .ok t => .ok (t.atPlace p m)
      | .error t => .error (t.atPlace p m)
  | 0, s => rfl
  | n + 1, s => by
    rw [bodyLoop, bodyLoop, srcRead_atPlace]
    cases s.srcRead size .body f with
    | error t => rfl
    | ok r =>
      obtain ⟨bs, t⟩ := r
      simp only
      rw [hst, ← bodyLoop_atPlace size f store p m hst n]
      rfl

/-- Nor does a block of points. -/
theorem pointBlock_atPlace (k : PointKind) (h : Header) :
    pointBlock k h (s.atPlace p m) = (pointBlock k h s).atPlace p m := by
  let start := fun s : State =>
    (s.enterBody k.format h).setFb { (s.enterBody k.format h).fb with srcid := h.srcid, count := h.count }
  have hb : ∀ s : State, pointBlock k h s = match bodyLoop (k.recSize s.params.fmt1Layout) k.format
      (storePointRecord k h.srcid) h.count.toNat (start s) with
    | .ok t => t.leaveBody .frame
    | .error t => t.freeFrame := fun _ => rfl
  rw [hb, hb, show start (s.atPlace p m) = (start s).atPlace p m from rfl, bodyLoop_atPlace _ _ _ _ _ fun _ _ => rfl,
    show (s.atPlace p m).params = s.params from rfl]
  cases bodyLoop (k.recSize s.params.fmt1Layout) k.format (storePointRecord k h.srcid) h.count.toNat (start s) <;> rfl

theorem storePalRecord_atPlace (src : Byte) (bs : List Byte) :
    storePalRecord src (s.atPlace p m) bs = (storePalRecord src s bs).atPlace p m := by
  unfold storePalRecord State.palStore
  rw [show (s.atPlace p m).dec = s.dec from rfl]
  split <;> rfl

/-- Nor does a palette load. -/
theorem palBlock_atPlace (h : Header) : palBlock h (s.atPlace p m) = (palBlock h s).atPlace p m := by
  unfold palBlock
  rw [show (s.atPlace p m).enterBody 2 h = (s.enterBody 2 h).atPlace p m from rfl,
    bodyLoop_atPlace _ _ _ _ _ fun _ _ => storePalRecord_atPlace _ _ _ _ _]
  cases bodyLoop palRecSize 2 (storePalRecord h.srcid) h.count.toNat (s.enterBody 2 h) <;> rfl

/-- Nor does the block a header selects. -/
theorem exec_selectBlock_atPlace (f : Byte) (h : Header) {t : State} (e : exec (selectBlock f h) s = .next t) :
    exec (selectBlock f h) (s.atPlace p m) = .next (t.atPlace p m) := by
  generalize hi : selectBlock f h = i at e ⊢
  cases i with
  | endBlock f h => cases e; rfl
  | idx3d h => cases e; exact congrArg _ (pointBlock_atPlace s p m .idx3d h)
  | idx2d h => cases e; exact congrArg _ (pointBlock_atPlace s p m .idx2d h)
  | pal h => cases e; exact congrArg _ (palBlock_atPlace s p m h)
  | tc3d h => cases e; exact congrArg _ (pointBlock_atPlace s p m .tc3d h)
  | tc2d h => cases e; exact congrArg _ (pointBlock_atPlace s p m .tc2d h)
  | illegal f h => cases e; exact congrArg _ (raise_atPlace s p m _ _ _ _ _)
  | _ =>
    unfold selectBlock at hi
    repeat' split at hi
    all_goals cases hi

/-- Nor does a pull: what it does is the same wherever the run stands. -/
theorem nextFrame_atPlace {t : State} (e : s.nextFrame = .next t) :
    (s.atPlace p m).nextFrame = .next (t.atPlace p m) := by
  have hx : (s.atPlace p m).inp = s.inp ∧ (s.atPlace p m).dec = s.dec ∧ (s.atPlace p m).params = s.params :=
    ⟨rfl, rfl, rfl⟩
  unfold State.nextFrame at *
  rw [hx.2.1]
  split
  · next h => rw [if_pos h] at e; cases e; rfl
  · next h =>
    rw [if_neg h] at e
    split
    · next h2 => rw [if_pos h2] at e; cases e; rfl
    · next h2 =>
      rw [if_neg h2] at e
      unfold State.pullBlock at *
      rw [srcRead_atPlace]
      cases hr : s.srcRead Config.hdrSize .header 0 with
      | error u => rw [hr] at e; cases e; rfl
      | ok r =>
        obtain ⟨bs, u⟩ := r
        rw [hr] at e
        simp only [hx] at e ⊢
        have hd : (∃ d, decodeHeader s.params bs = .error d) ∨
            ∃ f h, decodeHeader s.params bs = .ok (selectBlock f h) := by
          unfold decodeHeader
          repeat' split
          · exact .inl ⟨_, rfl⟩
          · exact .inl ⟨_, rfl⟩
          · exact .inr ⟨_, _, rfl⟩
        rcases hd with ⟨d, hd⟩ | ⟨f, h, hd⟩ <;> rw [hd] at e ⊢
        · simp only at e ⊢; cases e; rw [raise_atPlace]
        · exact exec_selectBlock_atPlace _ _ _ _ _ e

end Sys2Proof.Machine
end

