-- ==== Sys2Proof/Laws/Pull.lean ====
section
/-! SUPPORT. What a pull can do, once: how it ends (R131 to R141), and that it keeps the palette table and the
frame buffer in their canonical form with every loaded palette 1 to 256 long (R167). -/

namespace Sys2Proof.Machine

/-- The palette table's own part of the invariant. -/
structure PaletteTable.Ok (p : PaletteTable) : Prop where
  valid : Cells.wf false p.valid ∧ Cells.below 256 p.valid
  len : Cells.wf 0 p.len ∧ Cells.below 256 p.len
  ram : Cells.wf Rgb.black p.ram ∧ Cells.below 65536 p.ram
  sizes : ∀ k, Cells.get false p.valid k = true → 1 ≤ (Cells.get 0 p.len k).toNat ∧ (Cells.get 0 p.len k).toNat ≤ 256

/-- The frame buffer's own part of the invariant. -/
abbrev FrameBuffer.ok (f : FrameBuffer) : Prop := Cells.wf Point.zero f.pt ∧ Cells.below Config.maxCount f.pt

/-- A count or record index is at most `MAX_COUNT`. -/
theorem Config.maxCount_eq : Config.maxCount = 65535 := by unfold Config.maxCount; rfl

/-- A palette that is set, loaded or not, keeps the table's part of the invariant. -/
theorem PaletteTable.Ok.set {p : PaletteTable} (h : p.Ok) (src : Byte) (v : Bool) (n : BitVec 9) (ram : Cells Rgb)
    (hr : Cells.wf Rgb.black ram ∧ Cells.below 65536 ram) (hn : 1 ≤ n.toNat ∧ n.toNat ≤ 256) :
    PaletteTable.Ok { valid := Cells.set false p.valid src.toNat v, len := Cells.set 0 p.len src.toNat n, ram := ram } := by
  refine ⟨⟨Cells.wf_set h.valid.1 _ _, Cells.below_set h.valid.2 src.isLt _⟩,
    ⟨Cells.wf_set h.len.1 _ _, Cells.below_set h.len.2 src.isLt _⟩, hr, fun k hk => ?_⟩
  simp only [Cells.get_set] at hk ⊢
  split
  · exact hn
  · next hne => rw [if_neg hne] at hk; exact h.sizes k hk

theorem State.freePalette_ok {s : State} (h : s.pal.Ok) (src : Byte) : (s.freePalette src).pal.Ok := by
  refine h.set src _ _ _ (PaletteTable.freeRam_wf s.pal src s.freeCtr h.ram 256 (Nat.le_refl _)) ?_
  rw [BitVec.toNat_ofNat]
  have := (Config.freeBits 8 s.freeCtr 4).isLt
  omega

theorem State.palCommit_ok {s : State} (h : s.pal.Ok) (src : Byte) {n : BitVec 16} (hn : n ≠ 0) :
    (s.palCommit src n).pal.Ok := by
  refine h.set src _ _ _ h.ram ?_
  have : n.toNat ≠ 0 := fun h0 => hn (BitVec.eq_of_toNat_eq (by simpa using h0))
  rw [BitVec.toNat_ofNat, Config.palMax]
  omega

theorem pointBlock_fb_ok (k : PointKind) (h : Header) (s : State) (hf : s.fb.ok) : (pointBlock k h s).fb.ok := by
  let s1 := s.enterBody k.format h
  let s2 := s1.setFb { s1.fb with srcid := h.srcid, count := h.count }
  have hb : pointBlock k h s = match bodyLoop (k.recSize s.params.fmt1Layout) k.format
      (storePointRecord k h.srcid) h.count.toNat s2 with
    | .ok t => t.leaveBody .frame
    | .error t => t.freeFrame := rfl
  rw [hb]
  -- `REC_IDX` counts the records read, so the next one is below the count
  have loop : ∀ n (u : State), u.fb.ok → u.dec.recIdx.toNat + n ≤ 65535 →
      match bodyLoop (k.recSize s.params.fmt1Layout) k.format (storePointRecord k h.srcid) n u with
      | .ok t => t.fb.ok
      | .error _ => True := by
    intro n
    induction n with
    | zero => intro u hu _; exact hu
    | succ n ih =>
      intro u hu hn
      rcases u.srcRead_cases (k.recSize s.params.fmt1Layout) .body k.format with ⟨bs, -, -, he⟩ | ⟨-, he⟩
      · rw [bodyLoop, he]
        refine ih _ ?_ ?_
        · simp only [storePointRecord, State.setRecIdx_fields]
          refine ⟨Cells.wf_set hu.1 _ _, Cells.below_set hu.2 ?_ _⟩
          simp only [Config.maxCount_eq, State.setInPos_fields]; omega
        · simp only [State.setRecIdx_fields, State.setInPos_fields, BitVec.toNat_add]
          have : (1 : BitVec 16).toNat = 1 := rfl
          omega
      · rw [bodyLoop, he]; trivial
  have h2 := loop h.count.toNat s2 hf (by
    have := h.count.isLt
    have hz : s2.dec.recIdx.toNat = 0 := rfl
    omega)
  split
  · next t ht => rw [ht] at h2; exact h2
  · exact State.freeFrame_pt_wf _

theorem palBlock_pal_ok (h : Header) (s : State) (hc : h.count ≠ 0) (hp : s.pal.Ok) : (palBlock h s).pal.Ok := by
  have hb : palBlock h s = match bodyLoop palRecSize 2 (storePalRecord h.srcid) h.count.toNat (s.enterBody 2 h) with
    | .ok t => (t.palCommit h.srcid h.count).leaveBody .palette
    | .error t => t.freePalette h.srcid := rfl
  rw [hb]
  have keep := bodyLoop_keeps (size := palRecSize) (f := 2) (store := storePalRecord h.srcid)
    (P := fun u => u.pal.Ok) (by
      rintro u bs hu -
      simp only [State.setRecIdx_fields, storePalRecord, State.palStore]
      split
      · next hlt =>
        have hs := h.srcid.isLt
        simp only [Config.palMax, State.setInPos_fields] at hlt
        have hk : 256 * h.srcid.toNat + (u.setInPos (u.dec.inPos + palRecSize)).dec.recIdx.toNat < 65536 := by
          simp only [State.setInPos_fields]; omega
        exact ⟨hu.valid, hu.len, ⟨Cells.wf_set hu.ram.1 _ _, Cells.below_set hu.ram.2 hk _⟩, hu.sizes⟩
      · exact hu) h.count.toNat (s.enterBody 2 h) hp
  rcases keep with ⟨t, ht, hp⟩ | ⟨u, hp, -, hu⟩
  · rw [ht]; exact State.palCommit_ok hp _ hc
  · rw [hu]; exact State.freePalette_ok (by simpa using hp) _

/-- A pull that ended well. -/
inductive PullEnds (s t : State) : Prop
  | frame (h : t.dec.result = .frame) (st : t.dec.state = .awaitHeader) (n : t.fb.count ≠ 0)
  | palette (h : t.dec.result = .palette) (st : t.dec.state = .awaitHeader) (f : t.fb = s.fb)
  | ended (h : t.dec.result = .endOfStream) (st : t.dec.state = .exhausted) (f : t.fb = s.fb) (p : t.pal = s.pal)

/-- What a pull in AWAIT_HEADER did: it took at least a header and ended well, or it raised one of the errors of
R141. -/
inductive PullDid (s t : State) : Prop
  | well (err : t.err = s.err) (run : t.runState = s.runState) (took : s.dec.inPos + 32 ≤ t.dec.inPos)
      (ends : PullEnds s t)
  | raised (e : ErrRegs) (dec : e.code.ofDecoder = true) (row : e.ok) (err : t.err = if s.err.code = .none then e else s.err)
      (st : t.dec.state = .faulted) (res : t.dec.result = .fault) (run : t.runState = s.runStateAfterError)

theorem PullDid.of_raise {s u t : State} {code : ErrCode} {stage : ErrStage} {info : Byte} {pos : Nat}
    (he : u.err = s.err) (hr : u.runState = s.runState) (hd : code.ofDecoder = true)
    (row : ErrRegs.ok ⟨code, stage, info, pos⟩)
    (ht : t.err = (u.raise code stage info pos false).err ∧ t.dec = (u.raise code stage info pos false).dec ∧
      t.runState = (u.raise code stage info pos false).runState) : PullDid s t := by
  obtain ⟨h1, h2, h3⟩ := ht
  refine .raised ⟨code, stage, info, pos⟩ hd row ?_ ?_ ?_ ?_
  · rw [h1]; simp [ErrRegs.record, he]
  · rw [h2, (u.raise_dec _ _ _ _ _).1, hd]; rfl
  · rw [h2, (u.raise_dec _ _ _ _ _).2, hd]; rfl
  · rw [h3, u.raise_runState, hr]; simp [State.runStateAfterError]

theorem knownFormat_format (k : PointKind) : knownFormat k.format = true := by cases k <;> rfl

theorem pointBlock_did (k : PointKind) (h : Header) (s u : State) (hc : h.count ≠ 0) (hu : s.dec.inPos + 32 ≤ u.dec.inPos)
    (hle : u.dec.inPos ≤ s.inp.len) (hk : BlockKeeps s u) (he : u.err = s.err) (hr : u.runState = s.runState) :
    PullDid s (pointBlock k h u) ∧ s.dec.inPos ≤ (pointBlock k h u).dec.inPos ∧
      (pointBlock k h u).pal = u.pal := by
  obtain ⟨v, hkv, hpal, hev, hrv, -, hpos, hcv, h | ⟨-, h⟩⟩ := pointBlock_ends k h u <;> rw [h]
  · refine ⟨.well (hev.trans he) (hrv.trans hr) (Nat.le_trans hu hpos) (.frame rfl rfl ?_), by simp [State.leaveBody]; omega, ?_⟩
    · simp [State.leaveBody, hcv]; exact hc
    · simp [State.leaveBody, hpal]
  · refine ⟨.of_raise (u := v.setInPos v.inp.len) (by simp [hev, he]) (by simp [hrv, hr]) (code := .unexpectedEof)
      (stage := .body) (info := k.format) (pos := v.dec.inPos) rfl (.inr ⟨rfl, knownFormat_format k⟩) (by simp), ?_, by simp [hpal]⟩
    simp [hkv.inp, hk.inp]; omega

theorem palBlock_did (h : Header) (s u : State) (hu : s.dec.inPos + 32 ≤ u.dec.inPos)
    (hle : u.dec.inPos ≤ s.inp.len) (hk : BlockKeeps s u) (he : u.err = s.err) (hr : u.runState = s.runState)
    (hf : u.fb = s.fb) :
    PullDid s (palBlock h u) ∧ s.dec.inPos ≤ (palBlock h u).dec.inPos ∧ (palBlock h u).fb = u.fb := by
  obtain ⟨v, hkv, hfb, -, -, hev, hrv, -, hpos, h | ⟨-, h⟩⟩ := palBlock_ends h u <;> rw [h]
  · refine ⟨.well (hev.trans he) (hrv.trans hr) (Nat.le_trans hu hpos) (.palette rfl rfl ?_), ?_, ?_⟩
    · simp [State.leaveBody, State.palCommit, hfb, hf]
    · simp [State.leaveBody, State.palCommit]; omega
    · simp [State.leaveBody, State.palCommit, hfb]
  · refine ⟨.of_raise (u := v.setInPos v.inp.len) (by simp [hev, he]) (by simp [hrv, hr]) (code := .unexpectedEof)
      (stage := .body) (info := 2) (pos := v.dec.inPos) rfl (.inr ⟨rfl, rfl⟩) (by simp), ?_, by simp [hfb]⟩
    simp [hkv.inp, hk.inp]; omega

/-- The cursor after a block is inside the stream. -/
theorem pointBlock_cursor (k : PointKind) (h : Header) (s : State) (hle : s.dec.inPos ≤ s.inp.len) :
    (pointBlock k h s).dec.inPos ≤ s.inp.len := by
  let s1 := s.enterBody k.format h
  let s2 := s1.setFb { s1.fb with srcid := h.srcid, count := h.count }
  have hb : pointBlock k h s = match bodyLoop (k.recSize s.params.fmt1Layout) k.format
      (storePointRecord k h.srcid) h.count.toNat s2 with
    | .ok t => t.leaveBody .frame
    | .error t => t.freeFrame := rfl
  rw [hb]
  have keep := bodyLoop_keeps (size := k.recSize s.params.fmt1Layout) (f := k.format)
    (store := storePointRecord k h.srcid) (P := fun u => u.dec.inPos ≤ u.inp.len ∧ u.inp = s.inp) (by
      intro u bs hu hr
      have := ((Memory.readBytes_eq_some _ _ _ _).1 hr).1
      simp only [storePointRecord, State.setRecIdx_fields, State.storePoint_fields, State.setInPos_fields]
      exact ⟨this, hu.2⟩) h.count.toNat s2 ⟨hle, rfl⟩
  rcases keep with ⟨t, ht, hp, hi⟩ | ⟨u, ⟨hp, hi⟩, -, hu⟩
  · rw [ht]; simp [State.leaveBody, ← hi, hp]
  · rw [hu]; simp [hi]

theorem palBlock_cursor (h : Header) (s : State) (hle : s.dec.inPos ≤ s.inp.len) :
    (palBlock h s).dec.inPos ≤ s.inp.len := by
  have hb : palBlock h s = match bodyLoop palRecSize 2 (storePalRecord h.srcid) h.count.toNat (s.enterBody 2 h) with
    | .ok t => (t.palCommit h.srcid h.count).leaveBody .palette
    | .error t => t.freePalette h.srcid := rfl
  rw [hb]
  have keep := bodyLoop_keeps (size := palRecSize) (f := 2)
    (store := storePalRecord h.srcid) (P := fun u => u.dec.inPos ≤ u.inp.len ∧ u.inp = s.inp) (by
      intro u bs hu hr
      have := ((Memory.readBytes_eq_some _ _ _ _).1 hr).1
      simp only [storePalRecord, State.setRecIdx_fields, State.palStore_fields, State.setInPos_fields]
      exact ⟨this, hu.2⟩) h.count.toNat (s.enterBody 2 h) ⟨hle, rfl⟩
  rcases keep with ⟨t, ht, hp, hi⟩ | ⟨u, ⟨hp, hi⟩, -, hu⟩
  · rw [ht]; simp [State.leaveBody, State.palCommit, ← hi, hp]
  · rw [hu]; simp [hi]

/-- What a pull that reads a header does (R131, R141). -/
theorem nextFrame_did {s t : State} (hf : s.dec.state ≠ .faulted) (hx : s.dec.state ≠ .exhausted)
    (hle : s.dec.inPos ≤ s.inp.len) (e : s.nextFrame = .next t) :
    PullDid s t ∧ s.dec.inPos ≤ t.dec.inPos ∧ t.dec.inPos ≤ s.inp.len ∧
      (s.fb.ok → t.fb.ok) ∧ (s.pal.Ok → t.pal.Ok) := by
  rcases nextFrame_cases s with ⟨h, -⟩ | ⟨h, -⟩ | ⟨-, -, ⟨-, h⟩ | ⟨h32, h⟩ | ⟨h32, f, hd, h⟩⟩
  · exact absurd h hf
  · exact absurd h hx
  · rw [h] at e; cases e
    refine ⟨.of_raise (u := s.setInPos s.inp.len) (code := .unexpectedEof) (stage := .header) (info := 0)
      (pos := s.dec.inPos) (by simp) (by simp) rfl (.inl ⟨rfl, rfl⟩) ⟨rfl, rfl, rfl⟩, by simpa using hle, by simp, by simp, by simp⟩
  · rw [h] at e; cases e
    refine ⟨.of_raise (u := s.setInPos (s.dec.inPos + 32)) (code := .corruptFormat) (stage := .header) (info := 0)
      (pos := s.dec.inPos) (by simp) (by simp) rfl ⟨rfl, rfl⟩ ⟨rfl, rfl, rfl⟩, by simp, by simpa using h32, by simp, by simp⟩
  · rw [h] at e
    let u := s.setInPos (s.dec.inPos + 32)
    have hu : u.dec.inPos = s.dec.inPos + 32 := rfl
    have point : ∀ k, hd.count ≠ 0 → t = pointBlock k hd u → PullDid s t ∧ s.dec.inPos ≤ t.dec.inPos ∧
        t.dec.inPos ≤ s.inp.len ∧ (s.fb.ok → t.fb.ok) ∧ (s.pal.Ok → t.pal.Ok) := by
      rintro k hc rfl
      obtain ⟨h1, h2, h3⟩ := pointBlock_did k hd s u hc (by omega) (by omega) (s.setInPos_keeps _) rfl rfl
      exact ⟨h1, h2, pointBlock_cursor k hd u (by exact h32), fun h => pointBlock_fb_ok k hd u h, fun h => by rw [h3]; exact h⟩
    unfold selectBlock at e
    repeat' split at e
    all_goals
      simp only [exec, execEndBlock, execIdx3d, execIdx2d, execPal, execTc3d, execTc2d, execIllegal,
        Host.Outcome.next.injEq] at e
    · subst e
      exact ⟨.well (by simp) (by simp) (by simp) (.ended (by simp) (by simp) (by simp) (by simp)), by simp,
        by simpa using h32, by simp, by simp⟩
    · exact point _ ‹_› e.symm
    · exact point _ ‹_› e.symm
    · subst e
      obtain ⟨h1, h2, h3⟩ := palBlock_did hd s u (by omega) (by omega) (s.setInPos_keeps _) rfl rfl rfl
      exact ⟨h1, h2, palBlock_cursor hd u (by exact h32), fun h => by rw [h3]; exact h,
        fun h => palBlock_pal_ok hd u ‹_› h⟩
    · exact point _ ‹_› e.symm
    · exact point _ ‹_› e.symm
    · subst e
      refine ⟨.of_raise (u := u) (code := .unsupportedFormat) (stage := .header) (info := f)
        (pos := u.dec.inPos - 32) (by rfl) (by rfl) rfl ⟨rfl, ?_⟩ ⟨rfl, rfl, rfl⟩, by simp, by simpa using h32, by simp, by simp⟩
      simp only [knownFormat, Bool.or_eq_false_iff, beq_eq_false_iff_ne]
      exact ⟨⟨⟨⟨‹_›, ‹_›⟩, ‹_›⟩, ‹_›⟩, ‹_›⟩

/-- A pull in a terminal state writes `RESULT` (R137, R138). -/
theorem nextFrame_terminal {s t : State} (h : s.dec.state = .faulted ∨ s.dec.state = .exhausted)
    (e : s.nextFrame = .next t) : t = s.setResult (if s.dec.state = .faulted then .fault else .endOfStream) := by
  unfold State.nextFrame at e
  rcases h with h | h <;> simp [h] at e <;> simp [h, e]

end Sys2Proof.Machine
end

