-- ==== Sys2Proof/Tests/Slice0.lean ====
section
/-! SUPPORT. The model's own tests. Expected values are the spec's worked examples and vectors (spec/95_test_vectors.md,
named at each test) or are written out from its encodings; and, for every statement with hypotheses, a state that
meets them. -/

namespace Sys2Proof.Tests

open Sys2Proof.Machine

/-! Helpers. -/

/-- The header fields with every ignored one zero. -/
def head (count : BitVec 16) (src : Byte) : Header := ⟨0, 0, 0, count, 0, 0, src, 0⟩

/-- `HDR(f, n, s)` of spec/95_test_vectors.md. -/
def hdr (f n src : Byte) : List Byte :=
  [0x49, 0x4C, 0x44, 0x41, 0, 0, 0, f] ++ List.replicate 16 0 ++ [0, n, 0, 0, 0, 0, src, 0]

/-- The state after RESET with a stream attached. -/
def fed (bs : List Byte) : State := { State.reset with inp := Memory.ofBytes bs }

/-- With one host command pending. -/
def sent (c : HostCmd) (s : State) : State := { s with host := [c] }

/-- The next state, where there is one. -/
def after (o : Host.Outcome State Fault Refusal) : State :=
  match o with
  | .next t => t
  | .fault _ => State.reset
  | .refused _ => State.reset

/-- The answer is a next state of which `p` holds. -/
def nextWith (p : State → Bool) (o : Host.Outcome State Fault Refusal) : Bool :=
  match o with
  | .next t => p t
  | .fault _ => false
  | .refused _ => false

/-- A palette for source 1 (vectors V-L2-REC1 to REC4). -/
def recPalette : PaletteTable := ⟨[(1, true)], [(1, 3)], [(256, ⟨10, 20, 30⟩), (257, ⟨255, 128, 1⟩)]⟩

def recState (bs : List Byte) : State := { fed bs with pal := recPalette }

/-- A run over channel string `ch` with the colour `c` at the location drawn and the position (300, 400, 500). -/
def muxState (ch : Cells Byte) (n : BitVec 16) (c : Rgb) : State :=
  { State.reset with
      runState := .running
      sch := .channels
      lat := { ConfigRegs.zero with nch := n, ch := ch, fps := 1, pps := 1 }
      fb := ⟨0, 1, [(0, ⟨1, 1, 1, c⟩)]⟩
      wrk := { Working.reset with pos := ⟨300, 400, 500⟩ } }

/-! WellFormed: one ill-formed term for each check (R95). -/

theorem test_wf_end_needs_zero : wellFormed (.endBlock 0 (head 1 0)) = false := by decide

theorem test_wf_idx3d_needs_records : wellFormed (.idx3d (head 0 0)) = false := by decide

theorem test_wf_idx2d_needs_records : wellFormed (.idx2d (head 0 0)) = false := by decide

theorem test_wf_pal_needs_records : wellFormed (.pal (head 0 0)) = false := by decide

theorem test_wf_tc3d_needs_records : wellFormed (.tc3d (head 0 0)) = false := by decide

theorem test_wf_tc2d_needs_records : wellFormed (.tc2d (head 0 0)) = false := by decide

theorem test_wf_illegal_needs_records : wellFormed (.illegal 3 (head 0 0)) = false := by decide

theorem test_wf_illegal_needs_code : [0, 1, 2, 4, 5].all (fun f => wellFormed (.illegal f (head 1 0)) = false) = true := by
  decide

/-! Decode: the words written out from R91, R95 and R110. -/

/-- V-L2-H10: every field of a header, each with a value of its own. -/
theorem test_decode_tc2d : decode Params.default
    [0x49, 0x4C, 0x44, 0x41, 0xAA, 0xBB, 0xCC, 0x05, 0x54, 0x45, 0x53, 0x54, 0x20, 0x20, 0x20, 0x20,
     0x53, 0x50, 0x45, 0x43, 0x20, 0x20, 0x20, 0x20, 0x00, 0x01, 0x12, 0x34, 0x56, 0x78, 0x00, 0xEE] =
    .ok (.tc2d ⟨0xAABBCC, 0x5445535420202020, 0x5350454320202020, 1, 0x1234, 0x5678, 0, 0xEE⟩) := by decide

theorem test_decode_end : decode Params.default (hdr 9 0 7) = .ok (.endBlock 9 (head 0 7)) := by decide

theorem test_decode_idx3d : decode Params.default (hdr 0 1 7) = .ok (.idx3d (head 1 7)) := by decide

theorem test_decode_idx2d : decode Params.default (hdr 1 2 3) = .ok (.idx2d (head 2 3)) := by decide

theorem test_decode_pal : decode Params.default (hdr 2 2 7) = .ok (.pal (head 2 7)) := by decide

theorem test_decode_tc3d : decode Params.default (hdr 4 1 0) = .ok (.tc3d (head 1 0)) := by decide

theorem test_decode_illegal : decode Params.default (hdr 3 1 0) = .ok (.illegal 3 (head 1 0)) ∧
    decode Params.default (hdr 6 1 0) = .ok (.illegal 6 (head 1 0)) ∧
    decode Params.default (hdr 255 1 0) = .ok (.illegal 255 (head 1 0)) := by decide

theorem test_decode_sigX : decode Params.default [0x78] = .ok .sigX := by decide

theorem test_decode_sigY : decode Params.default [0x79] = .ok .sigY := by decide

theorem test_decode_sigZ : decode Params.default [0x7A] = .ok .sigZ := by decide

theorem test_decode_sigL : decode Params.default [0x6C] = .ok .sigL := by decide

theorem test_decode_sigR : decode Params.default [0x72] = .ok .sigR := by decide

theorem test_decode_sigG : decode Params.default [0x67] = .ok .sigG := by decide

theorem test_decode_sigB : decode Params.default [0x62] = .ok .sigB := by decide

/-- V-L2-H4, V-L2-H5, V-L2-S5, and lengths that are no instruction. -/
theorem test_decode_rejects :
    decode Params.default ([0x49, 0x4C, 0x44, 0x42] ++ List.replicate 28 0) = .error .badMagic ∧
    decode Params.default (List.replicate 32 0) = .error .badMagic ∧
    decode Params.default [0x4C] = .error .unknownChannelCode ∧
    decode Params.default [] = .error .badLength ∧
    decode Params.default (List.replicate 31 0x58) = .error .badLength := by decide

/-- The table words (log entry 5): 8 bits are a channel code, 64 bits a header whose count is 0. -/
theorem test_table_words : decodeTableWord 8 0x78 = some .sigX ∧
    decodeTableWord 64 0x494C444100000002 = some (.endBlock 2 (head 0 0)) ∧
    decodeTableWord 64 0x494C444200000002 = none := by decide

/-- 26 header bytes as one table word, the count in the last two (log entry 5). -/
theorem test_table_header : decodeTableWord 208 0x494C444100000002000000000000000000000000000000000003 =
    some (.pal (head 3 0)) := by decide

theorem test_fetch_word_channel : nextWith (fun t => t.wrk.sample == [] && t.muxCh == 1)
    (step (State.reset.withFetchWord 8 0x78)) = true := by decide

theorem test_fetch_word_header : nextWith (fun t => t.dec.state == .exhausted && t.dec.inPos == 32)
    (step (State.reset.withFetchWord 64 0x494C444100000000)) = true := by decide

/-! The blocks. -/

/-- V-L2-REC1, REC2, REC4. -/
theorem test_idx3d : nextWith (fun t => t.fb.pt == [(0, ⟨1000, 2000, 3000, ⟨10, 20, 30⟩⟩),
      (1, ⟨-1, -2, -3, Rgb.black⟩), (2, ⟨300, -400, 500, Rgb.black⟩)] && t.dec.inPos == 24)
    (exec (.idx3d (head 3 1)) (recState [0x03, 0xE8, 0x07, 0xD0, 0x0B, 0xB8, 0, 0,
      0xFF, 0xFF, 0xFF, 0xFE, 0xFF, 0xFD, 0x80, 2, 0x01, 0x2C, 0xFE, 0x70, 0x01, 0xF4, 0x40, 1])) = true := by decide

/-- V-L2-REC3: an index out of range is black, and no error. -/
theorem test_idx3d_out_of_range : nextWith
    (fun t => t.fb.pt == [(0, ⟨300, -400, 500, Rgb.black⟩)] && t.err.code == .none && t.dec.result == .frame)
    (exec (.idx3d (head 1 1)) (recState [0x01, 0x2C, 0xFE, 0x70, 0x01, 0xF4, 0x80, 3])) = true := by decide

/-- V-L2-REC12 (OWN6): two 6-byte records. -/
theorem test_idx2d : nextWith (fun t => t.fb.pt == [(0, ⟨5, 6, 0, Rgb.black⟩), (1, ⟨7, 8, 0, Rgb.black⟩)] &&
      t.fb.srcid == 3 && t.fb.count == 2 && t.dec.inPos == 12)
    (exec (.idx2d (head 2 3)) (fed [0, 5, 0, 6, 0, 0x40, 0, 7, 0, 8, 0, 0xFF])) = true := by decide

/-- P5 (AS3D8): an 8-byte record with z. -/
theorem test_idx2d_as3d8 : nextWith (fun t => t.fb.pt == [(0, ⟨5, 6, 7, Rgb.black⟩)] && t.dec.inPos == 8)
    (exec (.idx2d (head 1 3)) { fed [0, 5, 0, 6, 0, 7, 0x40, 1] with
      params := { Params.default with fmt1Layout := .as3d8 } }) = true := by decide

/-- P1: the palette of source 7. -/
theorem test_pal : nextWith (fun t => t.pal == ⟨[(7, true)], [(7, 2)], [(1792, ⟨255, 0, 0⟩), (1793, ⟨0, 255, 0⟩)]⟩ &&
      t.dec.result == .palette && t.dec.inPos == 6)
    (exec (.pal (head 2 7)) (fed [0xFF, 0, 0, 0, 0xFF, 0])) = true := by decide

/-- V-L2-P1: a short body names its second record and the format code. -/
theorem test_pal_short : nextWith (fun t => t.err == ⟨.unexpectedEof, .body, 2, 3⟩ && t.dec.inPos == 5)
    (exec (.pal (head 2 5)) (fed [1, 2, 3, 4, 5])) = true := by decide

/-- V-L2-REC7, REC8: blue, green, red. -/
theorem test_tc3d : nextWith (fun t => t.fb.pt == [(0, ⟨10, 20, 30, ⟨1, 2, 3⟩⟩), (1, ⟨10, 20, 30, ⟨1, 2, 3⟩⟩)])
    (exec (.tc3d (head 2 0)) (fed [0, 0x0A, 0, 0x14, 0, 0x1E, 0, 3, 2, 1,
      0, 0x0A, 0, 0x14, 0, 0x1E, 0xBF, 3, 2, 1])) = true := by decide

/-- V-L2-REC5, REC6. -/
theorem test_tc2d : nextWith
    (fun t => t.fb.pt == [(0, ⟨-32768, 32767, 0, Rgb.black⟩), (1, ⟨0, -32768, 0, ⟨200, 0, 0⟩⟩)])
    (exec (.tc2d (head 2 0)) (fed [0x80, 0, 0x7F, 0xFF, 0x40, 9, 8, 7, 0, 0, 0x80, 0, 0, 0, 0, 0xC8])) = true := by
  decide

/-- V-L2-H3. -/
theorem test_end : nextWith (fun t => t.dec.result == .endOfStream && t.dec.state == .exhausted && t.dec.inPos == 32 &&
    t.err.code == .none) (step (sent .pull (fed (hdr 9 0 0)))) = true := by decide

/-- V-L2-H8. -/
theorem test_illegal : nextWith (fun t => t.err == ⟨.unsupportedFormat, .header, 255, 0⟩ && t.dec.inPos == 32 &&
    t.dec.state == .faulted && t.runState == .idle) (step (sent .pull (fed (hdr 255 1 0)))) = true := by decide

/-- V-L2-H2: the short read comes before the tag. -/
theorem test_short_header : nextWith (fun t => t.err == ⟨.unexpectedEof, .header, 0, 0⟩ && t.dec.inPos == 31)
    (step (sent .pull (fed (List.replicate 31 0x58)))) = true := by decide

/-- V-L2-H4. -/
theorem test_wrong_tag : nextWith (fun t => t.err == ⟨.corruptFormat, .header, 0, 0⟩ && t.dec.inPos == 32)
    (step (sent .pull (fed ([0x49, 0x4C, 0x44, 0x42] ++ List.replicate 28 0)))) = true := by decide

/-! The selectors (V-L2-M3: "xyzlrgb", (300, 400, 500), colour (255, 128, 1)). -/

theorem test_sigX : nextWith (fun t => t.wrk.sample == [(0, 300)])
    (step (muxState [(0, 0x78)] 1 ⟨255, 128, 1⟩)) = true := by decide

theorem test_sigY : nextWith (fun t => t.wrk.sample == [(0, 400)])
    (step (muxState [(0, 0x79)] 1 ⟨255, 128, 1⟩)) = true := by decide

theorem test_sigZ : nextWith (fun t => t.wrk.sample == [(0, 500)])
    (step (muxState [(0, 0x7A)] 1 ⟨255, 128, 1⟩)) = true := by decide

theorem test_sigL : nextWith (fun t => t.wrk.sample == [(0, 32767)])
    (step (muxState [(0, 0x6C)] 1 ⟨0, 0, 1⟩)) = true := by decide

/-- V-L2-M2: black is laser-off. -/
theorem test_sigL_black : nextWith (fun t => t.wrk.sample == [] && t.muxCh == 1)
    (step (muxState [(0, 0x6C)] 1 Rgb.black)) = true := by decide

theorem test_sigR : nextWith (fun t => t.wrk.sample == [(0, 32767)])
    (step (muxState [(0, 0x72)] 1 ⟨255, 128, 1⟩)) = true := by decide

theorem test_sigG : nextWith (fun t => t.wrk.sample == [(0, 16447)])
    (step (muxState [(0, 0x67)] 1 ⟨255, 128, 1⟩)) = true := by decide

theorem test_sigB : nextWith (fun t => t.wrk.sample == [(0, 128)])
    (step (muxState [(0, 0x62)] 1 ⟨255, 128, 1⟩)) = true := by decide

/-- V-L2-I2: +32768, saturated and wrapped. -/
theorem test_clip : clip16 .saturate (32768 : BitVec 17) = 32767 ∧ clip16 .wrap (32768 : BitVec 17) = 0x8000 ∧
    clip16 .saturate (-32768 : BitVec 17) = 0x8000 := by decide

/-! The arbiter, the interpolator and the framer. -/

/-- V-L2-G. -/
theorem test_groupSize : (List.range 3).map (groupSize 10 3) = [3, 3, 4] ∧
    (List.range 8).map (groupSize 5 8) = [0, 1, 0, 1, 1, 0, 1, 1] ∧
    (List.range 12).map (groupSize 44100 20000) = [2, 2, 2, 2, 3, 2, 2, 2, 2, 3, 2, 2] := by decide

/-- V-L2-I: truncation is toward zero, and the widest span. -/
theorem test_interp : [1, 2].map (interpAxis 0 (-7) · 2) = [-3, -7] ∧
    [1, 2, 3].map (interpAxis 5 (-5) · 3) = [2, -1, -5] ∧
    [1, 2, 3].map (interpAxis 32768 (-32768) · 3) = [10923, -10922, -32768] := by decide

/-- V-L2-I2. -/
theorem test_invert : invertPoint 2 ⟨300, -400, 500, Rgb.black⟩ = ⟨300, 400, 500⟩ ∧
    invertPoint 2 ⟨0, -32768, 0, Rgb.black⟩ = ⟨0, 32768, 0⟩ := by decide

/-- V-L2-F1. -/
theorem test_container : containerHeader { ConfigRegs.reset with ch := [] } 0 =
    [0x52, 0x49, 0x46, 0x46, 0x24, 0, 0, 0, 0x57, 0x41, 0x56, 0x45, 0x66, 0x6D, 0x74, 0x20, 0x10, 0, 0, 0, 1, 0, 3, 0,
     0x44, 0xAC, 0, 0, 0x98, 0x09, 0x04, 0, 6, 0, 0x10, 0, 0x64, 0x61, 0x74, 0x61, 0, 0, 0, 0] := by decide

/-- V-L2-M4: "xxl" at (-2, 5, 0), black. -/
theorem test_sample_frame : sampleFrame 3 [(0, -2), (1, -2)] = [0xFE, 0xFF, 0xFE, 0xFF, 0, 0] := by decide

/-! START (V-L2-S1, S5, S8, S9). -/

theorem test_start_bad_config : nextWith (fun t => t.err == ⟨.badConfig, .config, 0, 0⟩ && t.runState == .faulted &&
      t.sink.len == 0 && t.dec.state == .awaitHeader)
    (step (sent .start { State.reset with cfg := { ConfigRegs.reset with fps := 0, ch := [(0, 0x3F)] },
                                          sinkSeekable := false })) = true := by decide

theorem test_start_invalid_signal : nextWith (fun t => t.err == ⟨.invalidSignal, .config, 0x4C, 0⟩)
    (step (sent .start { State.reset with
      cfg := { ConfigRegs.reset with ch := [(0, 0x78), (1, 0x79), (2, 0x4C)] } })) = true := by decide

theorem test_start_non_seekable : nextWith (fun t => t.err == ⟨.nonSeekableSink, .sink, 0, 0⟩ && t.sink.len == 0)
    (step (sent .start { State.reset with sinkSeekable := false })) = true := by decide

/-! Witnesses: for each statement with hypotheses a state, and operands, that meet them all. -/

/-- Headers and codes. -/
theorem witness_DecodeUndoesEncode : wellFormed (.pal (head 65535 255)) = true ∧
    wellFormed (.endBlock 255 (head 0 255)) = true ∧ wellFormed (.illegal 3 (head 1 0)) = true ∧
    wellFormed .sigB = true := by decide

theorem witness_EncodeUndoesDecode :
    ((hdr 4 1 0).length = 32 ∧ decode Params.default (hdr 4 1 0) = .ok (.tc3d (head 1 0))) ∧
    (([0x6C] : List Byte).length = 1 ∧ decode Params.default [0x6C] = .ok .sigL) := by decide

theorem witness_DecoderFollowsOpcodeTable : (hdr 5 1 0).length = 32 ∧
    decode Params.default (hdr 5 1 0) = .ok (.tc2d (headerFields (hdr 5 1 0))) := by decide

/-- Two headers that differ in every ignored byte, and a bad tag. -/
theorem witness_IgnoredBitsHaveNoEffect :
    (let a := hdr 0 1 7
     let b : List Byte := [0x49, 0x4C, 0x44, 0x41, 1, 2, 3, 0] ++ List.replicate 16 9 ++ [0, 1, 4, 5, 6, 7, 7, 8]
     let bad : List Byte := 0 :: (hdr 0 1 7).tail
     a.length = 32 ∧ b.length = 32 ∧ bad.length = 32 ∧ a ≠ b ∧
     (∀ i ∈ [0, 1, 2, 3, 7, 24, 25, 30], a.getD i 0 = b.getD i 0) ∧
     decode Params.default a = .ok (.idx3d (head 1 7)) ∧ decode Params.default bad = .error .badMagic) ∧
    ((0x80 : Byte).getLsbD 6 = (0x3F : Byte).getLsbD 6 ∧ (0x40 : Byte).getLsbD 6 = true) := by decide

/-- An idle block whose host pulls, and a run about to pull: the stream is one END header. -/
def pullState : State := sent .pull (fed (hdr 0 0 0))

theorem witness_PullStepRunsDecodedBlock : pullState.runState = .idle ∧ pullState.host = .pull :: [] ∧
    pullState.awaits ∧ pullState.inp.readBytes pullState.dec.inPos 32 = some (hdr 0 0 0) ∧
    decode pullState.params (hdr 0 0 0) = .ok (.endBlock 0 (head 0 0)) := by decide

/-- The magic tag as cells of the input. -/
def tagCells : Cells Byte := [(0, 0x49), (1, 0x4C), (2, 0x44), (3, 0x41)]

/-- A run about to pull, over the channel string "x"; the stream is one END header. -/
def runningState : State :=
  { State.reset with
      inp := ⟨32, tagCells⟩
      runState := .running
      lat := { ConfigRegs.zero with fps := 1, pps := 1, rate := 1, nch := 1, ch := [(0, 0x78)] }
      sink := ⟨44, [(0, 0x52), (1, 0x49), (2, 0x46), (3, 0x46), (4, 0x24), (8, 0x57), (9, 0x41), (10, 0x56),
        (11, 0x45), (12, 0x66), (13, 0x6D), (14, 0x74), (15, 0x20), (16, 0x10), (20, 1), (22, 1), (24, 1), (28, 2),
        (32, 2), (34, 0x10), (36, 0x64), (37, 0x61), (38, 0x74), (39, 0x61)]⟩ }

theorem witness_RunPullStepRunsDecodedBlock : runningState.runState = .running ∧ runningState.sch = .pull ∧
    runningState.awaits ∧ runningState.inp.readBytes runningState.dec.inPos 32 = some (hdr 0 0 0) ∧
    decode runningState.params (hdr 0 0 0) = .ok (.endBlock 0 (head 0 0)) := by decide

/-- The first and the last of two channels. -/
theorem witness_ChannelStepRunsSelector :
    let s := muxState [(0, 0x78), (1, 0x62)] 2 Rgb.black
    s.runState = .running ∧ s.sch = .channels ∧ s.muxCh < s.lat.nch.toNat ∧
    decode s.params [Cells.get 0 s.lat.ch s.muxCh] = .ok .sigX ∧
    (s.setMuxCh 1).muxCh < s.lat.nch.toNat ∧ decode s.params [Cells.get 0 s.lat.ch 1] = .ok .sigB := by decide

/-- Accepted and not accepted. -/
theorem witness_HostCommandsAccepted :
    let s := fed []
    s.runState ≠ .running ∧ (sent (.reset none) s).host = .reset none :: [] ∧
    ((sent .pull s).host = .pull :: [] ∧ s.runState = .idle) ∧
    ((sent .pull (s.setRunState .done)).host = .pull :: [] ∧ (s.setRunState .done).runState ≠ .idle) ∧
    ((sent .start s).host = .start :: [] ∧ s.err.code = .none) ∧
    ((sent .start (s.setErr ⟨.corruptFormat, .header, 0, 0⟩)).err.code ≠ .none) := by decide

/-- The last channel register that exists, and every other configuration register. -/
theorem witness_ConfigurationWrites : (sent (.writeCh 7 0x62) State.reset).hostSends (.writeCh 7 0x62) [] ∧
    7 < State.reset.params.maxCh ∧ (sent (.writeFps 0) State.reset).hostSends (.writeFps 0) [] ∧
    (sent (.writePps 1) State.reset).hostSends (.writePps 1) [] ∧
    (sent (.writeRate 0) State.reset).hostSends (.writeRate 0) [] ∧
    (sent (.writeNch 9) State.reset).hostSends (.writeNch 9) [] ∧
    (sent (.writeInvert 7) State.reset).hostSends (.writeInvert 7) [] ∧
    (sent (.writeCh 8 0x62) State.reset).hostSends (.writeCh 8 0x62) [] ∧ State.reset.params.maxCh ≤ 8 := by decide

theorem witness_ResetCommandRestores : (sent (.reset none) (fed [1])).hostSends (.reset none) [] ∧
    (sent (.reset (some ⟨[1, 2], false⟩)) (fed [])).hostSends (.reset (some ⟨[1, 2], false⟩)) [] := by decide

theorem witness_PullInTerminalState : pullState.runState = .idle ∧ pullState.host = .pull :: [] ∧
    (pullState.setDecState .exhausted).dec.state = .exhausted ∧
    (pullState.setDecState .faulted).dec.state = .faulted := by decide

/-- No byte at all, and one byte too few: the host's pull, and a run's. -/
theorem witness_ShortHeaderFaults :
    (let s := sent .pull (fed [])
     s.awaits ∧ s.inp.len < s.dec.inPos + 32 ∧ s.runState = .idle ∧ s.host = .pull :: []) ∧
    (let s := sent .pull (fed (List.replicate 31 0x58))
     s.awaits ∧ s.inp.len + 1 = s.dec.inPos + 32 ∧ s.runState = .idle ∧ s.host = .pull :: []) ∧
    (let s := { runningState with inp := ⟨31, []⟩ }
     s.awaits ∧ s.inp.len < s.dec.inPos + 32 ∧ s.runState = .running ∧ s.sch = .pull) := by decide

/-- The host's pull, and a run's. -/
theorem witness_WrongMagicFaults :
    let bs : List Byte := [0x49, 0x4C, 0x44, 0x42] ++ List.replicate 28 0
    let s := sent .pull (fed bs)
    let run := { runningState with inp := s.inp }
    bs.take 4 ≠ split4 s.params.magic ∧
    (s.awaits ∧ s.inp.readBytes s.dec.inPos 32 = some bs ∧ s.runState = .idle ∧ s.host = .pull :: []) ∧
    (run.awaits ∧ run.inp.readBytes run.dec.inPos 32 = some bs ∧ run.runState = .running ∧ run.sch = .pull) := by decide

/-- Streams that end exactly with the last record. -/
theorem witness_blocks_read : (fed (List.replicate 16 1)).dec.inPos + (head 2 0).count.toNat * 8 ≤
      (fed (List.replicate 16 1)).inp.len ∧
    (Params.default.fmt1Layout = .own6 ∧ 0 + (head 2 0).count.toNat * 6 ≤ (fed (List.replicate 12 1)).inp.len) ∧
    ({ Params.default with fmt1Layout := .as3d8 }.fmt1Layout = .as3d8 ∧
      0 + (head 1 0).count.toNat * 8 ≤ (fed (List.replicate 8 1)).inp.len) ∧
    0 + (head 1 0).count.toNat * 10 ≤ (fed (List.replicate 10 1)).inp.len ∧
    0 + (head 2 0).count.toNat * 3 ≤ (fed (List.replicate 6 1)).inp.len := by decide

/-- The record of a point and of a palette entry, the first index a palette lacks, and another source. -/
theorem witness_block_clauses :
    (fed [1, 2, 3, 4, 5, 6]).inp.readBytes (0 + 1 * 3) 3 = some [4, 5, 6] ∧ 1 < min (head 2 0).count.toNat 256 ∧
    (0 : Byte) ≠ (head 2 1).srcid ∧ (1 : Byte).toNat < (head 2 1).count.toNat ∧
    (head 2 1).count.toNat ≤ (2 : Byte).toNat ∧ (head 2 1).count ≠ 0 ∧
    (fed (List.replicate 8 1)).inp.readBytes (0 + 0 * 8) 8 = some (List.replicate 8 1) := by decide

theorem witness_PaletteLoadIsSeenByLaterLookups :
    ∃ t, exec (.pal (head 2 1)) (fed [1, 2, 3, 4, 5, 6]) = .next t ∧ t.dec.result = .palette :=
  ⟨_, rfl, by decide⟩

/-- One byte too few for each record format. -/
theorem witness_ShortBodyFaults :
    (0 ≤ (fed (List.replicate 15 1)).inp.len ∧ (fed (List.replicate 15 1)).inp.len < 0 + 2 * 8) ∧
    (∀ k : PointKind, (fed []).inp.len < (fed []).dec.inPos + (head 1 0).count.toNat * k.recSize .own6) ∧
    (fed [1, 2]).inp.len < 0 + (head 1 0).count.toNat * 3 :=
  ⟨by decide, fun k => by cases k <;> decide, by decide⟩

/-- A block whose pull met an error, with a command pending that is not RESET. -/
def faultedState : State :=
  { sent .pull (fed []) with
      dec := { State.reset.dec with state := .faulted, result := .fault }
      err := ⟨.unexpectedEof, .header, 0, 0⟩ }

theorem inv_of_nothing_loaded (s : State) (h : s.pal = State.reset.pal) (hs : s.fb = State.reset.fb)
    (hc : s.cfg = ConfigRegs.reset) (hp : s.params = Params.default) (hw : s.wrk = Working.reset)
    (hl : s.hid = State.reset.hid) (inp : s.inp.wf) (sink : s.sink.wf)
    (lat : Cells.wf 0 s.lat.ch ∧ Cells.below 8 s.lat.ch) (cursor : s.dec.inPos ≤ s.inp.len)
    (res : s.dec.resultOk ∧ s.dec.result ≠ .frame) (errs : ErrorsOk s) (cfg : s.runState = .running → ConfigOk s)
    (place : s.sch = .pull) (sk : s.sinkOk) : Inv s := by
  have hz : positionOk Position.zero := by decide
  refine ⟨⟨by rw [hp]; decide, inp, sink, by rw [h]; decide, by rw [h]; decide, by rw [h]; decide, ?_, ?_, ?_, ?_⟩,
    ⟨cursor, res.1, fun hf => absurd hf res.2, ?_⟩, errs, ⟨by rw [hl]; exact hz, by rw [hw]; exact hz, by rw [hw]; exact hz⟩,
    cfg, fun _ => by rw [State.placeOk, place]; trivial, sk⟩
  · rw [hs]; exact ⟨Cells.wf_nil _, fun e he => by cases he⟩
  · rw [hc, hp]; decide
  · rw [hp]; exact lat
  · rw [hw, hp]; decide
  · intro k hk; rw [h] at hk; cases hk

theorem faultedState_inv : Inv faultedState :=
  inv_of_nothing_loaded _ rfl rfl rfl rfl rfl rfl (by decide) (by decide) (by decide) (by decide)
    ⟨rfl, by decide⟩ ⟨.inl ⟨rfl, rfl⟩, by decide, by decide, by decide⟩ (fun h => by cases h) rfl ⟨rfl, rfl⟩

theorem runningState_inv : Inv runningState :=
  inv_of_nothing_loaded _ rfl rfl rfl rfl rfl rfl (by decide) (by decide) (by decide) (by decide)
    ⟨rfl, by decide⟩ ⟨⟨rfl, rfl, rfl⟩, by decide, by decide, by decide⟩
    (fun _ => ⟨by decide, by decide, by decide, by decide, by decide, by decide⟩) rfl
    ⟨by decide, by decide, Nat.dvd_zero _⟩

/-- START pending in a block that accepts it. -/
def startState : State := sent .start (fed (hdr 0 0 0))

theorem startState_inv : Inv startState :=
  inv_of_nothing_loaded _ rfl rfl rfl rfl rfl rfl (Memory.wf_ofBytes _) (by decide) (by decide) (by decide)
    ⟨rfl, by decide⟩ ⟨⟨rfl, rfl, rfl⟩, by decide, by decide, by decide⟩ (fun h => by cases h) rfl ⟨rfl, rfl⟩

theorem witness_OnlyResetLeavesFault : Inv faultedState ∧ faultedState.err.code ≠ .none ∧ ¬ faultedState.resetNext ∧
    ∃ t, step faultedState = .next t :=
  ⟨faultedState_inv, by decide, (by rintro ⟨att, rest, -, h⟩; cases h), _, rfl⟩

theorem witness_CursorOnlyGrows : startState.dec.inPos ≤ startState.inp.len ∧ ¬ startState.resetNext ∧
    ∃ t, step startState = .next t :=
  ⟨by decide, (by rintro ⟨att, rest, -, h⟩; cases h), _, rfl⟩

/-- Fewer units than groups, as many, and none. -/
theorem witness_arbiter : 0 < 1 ∧ (0 < 4 ∧ 1 ≤ 4) ∧ (0 < 4 ∧ 4 ≤ 4) ∧ (0 < 3 ∧ 0 < 10 % 3) ∧ 10 % 5 = 0 := by decide

/-- A run whose pull gives a frame, a palette, a fault. -/
theorem witness_RunGoesOnAfterPull :
    let s := fun n c => { runningState with inp := ⟨n, c⟩ }
    runningState.runState = .running ∧ runningState.sch = .pull ∧
    nextWith (·.dec.result == .frame) (s 40 (tagCells ++ [(7, 5), (25, 1)])).nextFrame = true ∧
    nextWith (·.dec.result == .palette) (s 35 (tagCells ++ [(7, 2), (25, 1)])).nextFrame = true ∧
    nextWith (·.dec.result == .fault) (s 0 []).nextFrame = true := by decide

/-- A frame of two points with budget `b`, at location `i`. -/
def drawState (b : BitVec 32) (i : BitVec 16) (p : SchPhase) : State :=
  { runningState with
      sch := p
      dec := { State.reset.dec with result := .frame }
      fb := ⟨0, 2, []⟩
      wrk := { Working.reset with budget := b, locIdx := i, subP := 1, locK := 2 } }

/-- A share, no share with a location to come, no share at the last location. -/
theorem witness_LocationStep :
    let k := fun s : State => BitVec.ofNat 32 (groupSize s.wrk.budget.toNat s.fb.count.toNat s.wrk.locIdx.toNat)
    (drawState 1 1 .location).runState = .running ∧ (drawState 1 1 .location).sch = .location ∧
    k (drawState 1 1 .location) ≠ 0 ∧
    (k (drawState 1 0 .location) = 0 ∧ 0 + 1 < (drawState 1 0 .location).fb.count.toNat) ∧
    (k (drawState 0 1 .location) = 0 ∧ (drawState 0 1 .location).fb.count.toNat ≤ 1 + 1) := by decide

theorem witness_SubSampleStep : (drawState 2 0 .subSample).runState = .running ∧
    (drawState 2 0 .subSample).sch = .subSample := by decide

/-- A sub-sample to come, a location to come, the last location. -/
theorem witness_EmissionStep :
    let s := fun i p => { drawState 2 i .channels with muxCh := 1, wrk := { (drawState 2 i .channels).wrk with subP := p } }
    (s 0 1).runState = .running ∧ (s 0 1).sch = .channels ∧ (s 0 1).lat.nch.toNat ≤ (s 0 1).muxCh ∧
    (s 0 1).wrk.subP.toNat < (s 0 1).wrk.locK.toNat ∧
    ((s 0 2).wrk.locK.toNat ≤ (s 0 2).wrk.subP.toNat ∧ (s 0 2).wrk.locIdx.toNat + 1 < (s 0 2).fb.count.toNat) ∧
    ((s 1 2).wrk.locK.toNat ≤ (s 1 2).wrk.subP.toNat ∧ (s 1 2).fb.count.toNat ≤ (s 1 2).wrk.locIdx.toNat + 1) := by
  decide

/-- A header of each row of R141: a wrong tag, no record, an unsupported code, a body cut by one byte, a frame and a
palette read to the end, and the two terminal states. -/
theorem witness_DecoderStateMachine :
    let reads := fun (h body : List Byte) => (fed (h ++ body)).awaits ∧
      (fed (h ++ body)).inp.readBytes (fed (h ++ body)).dec.inPos 32 = some h
    ((fed []).awaits ∧ (fed []).inp.len < (fed []).dec.inPos + 32) ∧ reads (List.replicate 32 0) [] ∧
    reads (hdr 9 0 0) [] ∧ reads (hdr 3 1 0) [] ∧ reads (hdr 1 1 0) (List.replicate 5 1) ∧
    reads (hdr 1 1 0) (List.replicate 6 1) ∧ reads (hdr 2 1 0) [1, 2, 3] ∧
    (∀ f : Byte, (hdr f 1 0).take 4 = split4 Params.default.magic) ∧
    (pullState.setDecState .exhausted).dec.state = .exhausted ∧
    (pullState.setDecState .faulted).dec.state = .faulted := by
  refine ⟨by decide, by decide, by decide, by decide, by decide, by decide, by decide, fun _ => rfl, rfl, rfl⟩

/-- A blanked status byte and one that is not, the last index of a palette and the first past it, loaded or not. -/
theorem witness_IndexedColourLookup :
    (0x40 : Byte).getLsbD 6 = true ∧ (0xBF : Byte).getLsbD 6 = false ∧
    (Cells.get false recPalette.valid 1 = true ∧ 2 < (Cells.get 0 recPalette.len 1).toNat ∧
      (Cells.get 0 recPalette.len 1).toNat ≤ 3) ∧
    (¬ Cells.get false recPalette.valid 2 = true ∧ (63 : Byte).toNat < 64 ∧ 64 ≤ (64 : Byte).toNat) := by decide

/-- A group with the extra unit, and one without. -/
theorem witness_FairDistributionFormula : 1 ≤ 3 ∧ (2 * (10 % 3)) % 3 > ((2 + 1) * (10 % 3)) % 3 ∧
    ¬ (0 * (10 % 3)) % 3 > ((0 + 1) * (10 % 3)) % 3 := by decide

/-- The ends of the register's range; the first and the last sub-step. -/
theorem witness_InterpolationLaws : inRange (-32768) ∧ inRange 32768 ∧ 1 ≤ 1 ∧ 1 ≤ 4 ∧ 4 ≤ 4 := by decide

theorem witness_PositionSelectors : inRange (32768 : BitVec 17) ∧ (32768 : BitVec 17).toInt = 32768 ∧
    inRange (-32768 : BitVec 17) ∧ (-32768 : BitVec 17).toInt ≠ 32768 ∧
    Params.default.outOverflow = .saturate ∧ { Params.default with outOverflow := .wrap }.outOverflow = .wrap := by
  decide

theorem witness_SelectorsAgreeWithSignal : decode State.reset.params [0x7A] = .ok .sigZ := by decide

/-- Each check of START failing while the ones before it pass. -/
theorem witness_StartChecksInOrder : startState.runState = .idle ∧ startState.err.code = .none ∧
    startState.host = .start :: [] ∧
    (let c := { ConfigRegs.reset with nch := 9 }
     ¬ (c.fps = 0 ∨ c.pps = 0 ∨ c.nch = 0) ∧ startState.params.maxCh < c.nch.toNat) ∧
    (let c := { ConfigRegs.reset with ch := [(0, 0x78), (1, 0x3F)] }
     ¬ (c.fps = 0 ∨ c.pps = 0 ∨ c.nch = 0 ∨ startState.params.maxCh < c.nch.toNat) ∧ 1 < c.nch.toNat ∧
     Cells.get 0 c.ch 1 ∉ ([0x78, 0x79, 0x7A, 0x6C, 0x72, 0x67, 0x62] : List Byte) ∧
     ∀ d < 1, Cells.get 0 c.ch d ∈ ([0x78, 0x79, 0x7A, 0x6C, 0x72, 0x67, 0x62] : List Byte)) ∧
    (∀ c < 3, Cells.get 0 ConfigRegs.reset.ch c ∈ ([0x78, 0x79, 0x7A, 0x6C, 0x72, 0x67, 0x62] : List Byte)) ∧
    { startState with sinkSeekable := false }.sinkSeekable = false := by decide

theorem witness_StartLatchesConfiguration : startState.runState = .idle ∧ startState.err.code = .none ∧
    startState.host = .start :: [] ∧ startState.cfg.fps ≠ 0 ∧ startState.cfg.pps ≠ 0 ∧ startState.cfg.nch ≠ 0 ∧
    startState.cfg.nch.toNat ≤ startState.params.maxCh ∧
    (∀ c < startState.cfg.nch.toNat,
      Cells.get 0 startState.cfg.ch c ∈ ([0x78, 0x79, 0x7A, 0x6C, 0x72, 0x67, 0x62] : List Byte)) ∧
    startState.sinkSeekable = true := by decide

theorem witness_EndOfStreamPatchesHeader : runningState.runState = .running ∧ runningState.sch = .pull ∧
    44 ≤ runningState.sink.len ∧ ∃ t, runningState.nextFrame = .next t ∧ t.dec.result = .endOfStream :=
  ⟨rfl, rfl, by decide, _, rfl, by decide⟩

theorem witness_FrameOutputSize : (drawState 3 0 .location).lat.pps ≠ 0 ∧ (drawState 3 0 .location).fb.count ≠ 0 ∧
    (drawState 3 0 .location).hid.pointPhase.toNat < (drawState 3 0 .location).lat.pps.toNat := by decide

/-- A run, a fault and an idle block that meet the invariant, each with a next state. -/
theorem witness_StepKeepsInvariant : (Inv runningState ∧ ∃ t, step runningState = .next t) ∧
    (Inv faultedState ∧ ∃ t, step faultedState = .next t) ∧ (Inv startState ∧ ∃ t, step startState = .next t) :=
  ⟨⟨runningState_inv, _, rfl⟩, ⟨faultedState_inv, _, rfl⟩, ⟨startState_inv, _, rfl⟩⟩

theorem witness_NoStepStops : Inv runningState ∧ runningState.runState = .running := ⟨runningState_inv, rfl⟩

/-- Every clause: a run, a pull, a START, waiting, and a command that is neither RESET nor START. -/
theorem witness_ConfigurationIsStable : (∃ t, step runningState = .next t) ∧ runningState.runState = .running ∧
    pullState.hostSends .pull [] ∧ startState.hostSends .start [] ∧
    ((fed []).runState ≠ .running ∧ (fed []).host = []) ∧
    (¬ pullState.resetNext ∧ ∀ rest, ¬ pullState.hostSends .start rest) :=
  ⟨⟨_, rfl⟩, rfl, by decide, by decide, by decide, (by rintro ⟨att, rest, -, h⟩; cases h),
    (by rintro rest ⟨-, h⟩; cases h)⟩

theorem witness_RunTerminates : Inv runningState ∧ runningState.runState = .running := ⟨runningState_inv, rfl⟩

theorem witness_StepsReachAtomicStart : Inv startState ∧ startState.runState = .idle ∧
    startState.host = .start :: [] := ⟨startState_inv, rfl, rfl⟩

end Sys2Proof.Tests
end

section
/-! Proofs of the statements on scope: input fields, and who changes the parameters, the configuration and its
latched copies. -/

namespace Sys2Proof.Machine

/-- Settles O5: the joined bytes are R9's number, and the sign is read off that number. -/
theorem fieldAssembly : Obligations.FieldAssembly := by
  intro b0 b1
  have hn := u16be_toNat b0 b1
  refine ⟨hn, ?_⟩
  rw [BitVec.toInt_eq_toNat_cond, hn]
  split <;> split <;> omega

/-- The registers R6, R40 and R43 speak of are the same in both states. -/
structure ConfigKept (s t : State) : Prop where
  params : t.params = s.params
  cfg : t.cfg = s.cfg
  lat : t.lat = s.lat

theorem ConfigKept.trans {s t u : State} (h : ConfigKept s t) (k : ConfigKept t u) : ConfigKept s u :=
  ⟨k.params.trans h.params, k.cfg.trans h.cfg, k.lat.trans h.lat⟩

theorem BlockKeeps.configKept {s t : State} (h : BlockKeeps s t) : ConfigKept s t := ⟨h.params, h.cfg, h.lat⟩

theorem RunKeeps.configKept {s t : State} (h : RunKeeps s t) : ConfigKept s t := ⟨h.params, h.cfg, h.lat⟩

theorem State.setHost_configKept (s : State) (rest : List HostCmd) : ConfigKept s (s.setHost rest) := by
  constructor <;> simp

theorem State.hostSends_unique {s : State} {c d : HostCmd} {rest rest' : List HostCmd} (h : s.hostSends c rest)
    (k : s.hostSends d rest') : c = d :=
  (List.cons.inj (h.2.symm.trans k.2)).1

theorem step_running_configKept {s t : State} (hr : s.runState = .running) (e : step s = .next t) :
    ConfigKept s t := by
  rcases step_running_cases hr e with
    ⟨-, u, hu, rfl⟩ | ⟨-, rfl⟩ | ⟨-, rfl⟩ | ⟨-, -, i, hd, hi⟩ | ⟨-, -, rfl⟩
  · exact (nextFrame_keeps s u hu).configKept.trans u.afterPull_keeps.configKept
  · exact s.startLocation_keeps.1.configKept
  · exact s.startSubSample_keeps.1.configKept
  · obtain ⟨v, hv⟩ := exec_channel hd s
    cases hv.symm.trans hi
    exact (s.putSample_keeps v).1.configKept
  · exact s.finishSubSample_keeps.1.configKept

/-- Who changes what outside a run (R43, R321): the parameters never change; RESET alone may change both register
groups, START the latched copies, and a configuration write the registers. -/
theorem step_idle_config_cases {s t : State} (hr : s.runState ≠ .running) (e : step s = .next t) :
    t.params = s.params ∧
    (ConfigKept s t ∨ s.resetNext ∨ (∃ rest, s.hostSends .start rest ∧ t.cfg = s.cfg) ∨
      ((∀ rest, ¬ s.hostSends .pull rest) ∧ (∀ rest, ¬ s.hostSends .start rest) ∧ t.lat = s.lat)) := by
  rcases step_idle_cases hr e with ⟨-, rfl⟩ | ⟨c, rest, hc,
    ⟨att, rfl, rfl⟩ | ⟨-, -, hn⟩ | ⟨-, -, rfl⟩ | ⟨rfl, rfl⟩ | ⟨hp, hs, -, cfg, rfl, -⟩⟩
  · exact ⟨rfl, .inl ⟨rfl, rfl, rfl⟩⟩
  · exact ⟨rfl, .inr (.inl ⟨att, rest, hr, hc⟩)⟩
  · have hk := (s.setHost_configKept rest).trans (nextFrame_keeps _ _ hn).configKept
    exact ⟨hk.params, .inl hk⟩
  · have hk := s.setHost_configKept rest
    exact ⟨hk.params, .inl hk⟩
  · obtain ⟨hpar, hcfg, -⟩ := (s.setHost rest).startCmd_keeps
    exact ⟨by simpa using hpar, .inr (.inr (.inl ⟨rest, ⟨hr, hc⟩, by simpa using hcfg⟩))⟩
  · exact ⟨by simp, .inr (.inr (.inr ⟨fun _ h => hp (State.hostSends_unique ⟨hr, hc⟩ h),
      fun _ h => hs (State.hostSends_unique ⟨hr, hc⟩ h), by simp⟩))⟩

/-- Settles O50: a step of a run keeps all three groups, and a step outside a run changes them as its command may. -/
theorem configurationIsStable : Obligations.ConfigurationIsStable := by
  intro s t e
  by_cases hr : s.runState = .running
  · have hk := step_running_configKept hr e
    exact ⟨hk.params, fun _ => ⟨hk.cfg, hk.lat⟩, fun _ h => absurd hr h.1, fun _ h => absurd hr h.1,
      fun h => absurd hr h, fun _ _ => hk.lat⟩
  · obtain ⟨hpar, hcases⟩ := step_idle_config_cases hr e
    refine ⟨hpar, fun h => absurd h hr, fun rest hpull => ?_, fun rest hstart => ?_, fun _ hwait => ?_,
      fun hreset hstart => ?_⟩
    · rcases hcases with hk | ⟨_, _, h⟩ | ⟨_, h, -⟩ | ⟨h, -⟩
      · exact ⟨hk.cfg, hk.lat⟩
      · cases State.hostSends_unique hpull h
      · cases State.hostSends_unique hpull h
      · exact absurd hpull (h rest)
    · rcases hcases with hk | ⟨_, _, h⟩ | ⟨_, -, hcfg⟩ | ⟨-, h, -⟩
      · exact hk.cfg
      · cases State.hostSends_unique hstart h
      · exact hcfg
      · exact absurd hstart (h rest)
    · rw [step_of_waiting hr hwait] at e
      cases e
      rfl
    · rcases hcases with hk | h | ⟨rest, h, -⟩ | ⟨-, -, hlat⟩
      · exact hk.lat
      · exact absurd h hreset
      · exact absurd h (hstart rest)
      · exact hlat

end Sys2Proof.Machine
end

section
/-! Proofs of the statements on the host's commands, the input cursor, and the colour of an indexed record. -/

namespace Sys2Proof.Machine

/-- An accepted START begins a run or ends in one of its faults. -/
theorem State.startCmd_accepted {s : State} (hi : s.runState = .idle) (he : s.err.code = .none) :
    s.startCmd.runState = .running ∨ s.startCmd.runState = .faulted := by
  rcases s.startCmd_cases with ⟨hn, -⟩ | ⟨-, -, ⟨-, h⟩ | ⟨-, ⟨c, -, -, -, h⟩ | ⟨-, ⟨-, h⟩ | ⟨-, h⟩⟩⟩⟩
  · exact absurd ⟨hi, he⟩ hn
  · exact .inr (by rw [h, State.raise_runState]; simp)
  · exact .inr (by rw [h, State.raise_runState]; simp)
  · exact .inr (by rw [h, State.raise_runState]; simp)
  · exact .inl (by rw [h]; simp [State.appendPlaceholder])

theorem State.startCmd_refused {s : State} (h : ¬ (s.runState = .idle ∧ s.err.code = .none)) : s.startCmd = s :=
  if_neg h

/-- Settles O10: the step outside a run is the host's oldest command, and each command says when it is accepted. -/
theorem hostCommandsAccepted : Obligations.HostCommandsAccepted := by
  intro s rest hr
  refine ⟨fun att hc => step_of_command hr hc, fun hc hi => ?_, fun hc hi => ?_, fun hc hi he => ?_,
    fun hc hn => ?_⟩ <;>
    rw [step_of_command hr hc, State.hostCmd]
  · exact if_pos hi
  · exact if_neg hi
  · exact ⟨_, rfl, State.startCmd_accepted (s := s.setHost rest) hi he⟩
  · rw [State.startCmd_refused (s := s.setHost rest) hn]

theorem State.writeCfgCh_exists {s : State} {c : Nat} (h : c < s.params.maxCh) (v : Byte) :
    s.writeCfgCh c v = s.setCfg { s.cfg with ch := Cells.set 0 s.cfg.ch c v } :=
  if_pos h

theorem State.writeCfgCh_missing {s : State} {c : Nat} (h : s.params.maxCh ≤ c) (v : Byte) : s.writeCfgCh c v = s :=
  if_neg (by omega)

/-- Settles O11: each write is one record update; a channel register is written as a key of its store. -/
theorem configurationWrites : Obligations.ConfigurationWrites := by
  intro s rest
  refine ⟨fun v h => step_of_command h.1 h.2, fun v h => step_of_command h.1 h.2, fun v h => step_of_command h.1 h.2,
    fun v h => step_of_command h.1 h.2, fun v h => step_of_command h.1 h.2, fun c v h hc => ?_, fun c v h hc => ?_⟩ <;>
    rw [step_of_command h.1 h.2, State.hostCmd]
  · rw [State.writeCfgCh_exists (s := s.setHost rest) hc]
    exact ⟨_, rfl, Cells.get_set_same 0 s.cfg.ch c v, fun d hd => Cells.get_set_other 0 s.cfg.ch v (Ne.symm hd), rfl⟩
  · rw [State.writeCfgCh_missing (s := s.setHost rest) hc]

/-- Settles O54: the blanked bit decides first, then whether the source has a palette, then the index. -/
theorem indexedColourLookup : Obligations.IndexedColourLookup := by
  intro p s status idx loaded len
  refine ⟨fun hb => ?_, fun hb => ?_, fun hl hi => ?_, fun hl hi => ?_, fun hl hi => ?_, fun hl hi => ?_⟩
  · exact if_pos hb
  · exact if_neg (by rw [blanked, hb]; decide)
  · rw [PaletteTable.resolve, if_pos hl, if_neg (Nat.not_le.2 hi)]
  · rw [PaletteTable.resolve, if_pos hl, if_pos hi]; rfl
  · rw [PaletteTable.resolve, if_neg hl, if_neg (by exact Nat.not_le.2 hi)]
  · rw [PaletteTable.resolve, if_neg hl, if_pos (by exact hi)]; rfl

/-- The cursor did not go back, is inside the stream, and the stream is the same (R24, R60). -/
structure CursorGrows (s t : State) : Prop where
  forward : s.dec.inPos ≤ t.dec.inPos
  inside : t.dec.inPos ≤ t.inp.len
  stream : t.inp = s.inp

theorem CursorGrows.of_eq {s t : State} (hle : s.dec.inPos ≤ s.inp.len) (hd : t.dec.inPos = s.dec.inPos)
    (hi : t.inp = s.inp) : CursorGrows s t :=
  ⟨hd.ge, by rwa [hd, hi], hi⟩

theorem CursorGrows.trans {s t u : State} (h : CursorGrows s t) (k : CursorGrows t u) : CursorGrows s u :=
  ⟨h.forward.trans k.forward, k.inside, k.stream.trans h.stream⟩

theorem RunKeeps.cursorGrows {s t : State} (h : RunKeeps s t) (hle : s.dec.inPos ≤ s.inp.len) : CursorGrows s t :=
  .of_eq hle (by rw [h.dec]) h.inp

theorem nextFrame_cursorGrows {s t : State} (hle : s.dec.inPos ≤ s.inp.len) (e : s.nextFrame = .next t) :
    CursorGrows s t := by
  by_cases hterm : s.dec.state = .faulted ∨ s.dec.state = .exhausted
  · rw [nextFrame_terminal hterm e]
    exact .of_eq hle (by simp) (by simp)
  · obtain ⟨hf, hx⟩ := not_or.1 hterm
    obtain ⟨-, hge, hin, -⟩ := nextFrame_did hf hx hle e
    have hi := (nextFrame_keeps s t e).inp
    exact ⟨hge, by rwa [hi], hi⟩

theorem step_running_cursorGrows {s t : State} (hr : s.runState = .running) (hle : s.dec.inPos ≤ s.inp.len)
    (e : step s = .next t) : CursorGrows s t := by
  rcases step_running_cases hr e with
    ⟨-, u, hu, rfl⟩ | ⟨-, rfl⟩ | ⟨-, rfl⟩ | ⟨-, -, i, hd, hi⟩ | ⟨-, -, rfl⟩
  · have hp := nextFrame_cursorGrows hle hu
    exact hp.trans (u.afterPull_keeps.cursorGrows hp.inside)
  · exact s.startLocation_keeps.1.cursorGrows hle
  · exact s.startSubSample_keeps.1.cursorGrows hle
  · obtain ⟨v, hv⟩ := exec_channel hd s
    cases hv.symm.trans hi
    exact (s.putSample_keeps v).1.cursorGrows hle
  · exact s.finishSubSample_keeps.1.cursorGrows hle

/-- Settles O26: only a pull moves the cursor, and only RESET attaches another stream. -/
theorem cursorOnlyGrows : Obligations.CursorOnlyGrows := by
  intro s t hle hnr e
  suffices h : CursorGrows s t from ⟨h.forward, h.inside, h.stream⟩
  by_cases hr : s.runState = .running
  · exact step_running_cursorGrows hr hle e
  rcases step_idle_cases hr e with ⟨-, rfl⟩ | ⟨c, rest, hc,
    ⟨att, rfl, -⟩ | ⟨-, -, hn⟩ | ⟨-, -, rfl⟩ | ⟨-, rfl⟩ | ⟨-, -, -, cfg, rfl, -⟩⟩
  · exact .of_eq hle rfl rfl
  · exact absurd ⟨att, rest, hr, hc⟩ hnr
  · exact (CursorGrows.of_eq (t := s.setHost rest) hle rfl rfl).trans (nextFrame_cursorGrows hle hn)
  · exact .of_eq hle rfl rfl
  · obtain ⟨-, -, hinp, hpos, -⟩ := (s.setHost rest).startCmd_keeps
    exact .of_eq hle hpos hinp
  · exact .of_eq hle rfl rfl

end Sys2Proof.Machine
end

section
/-! The ranges of the positions (R45, R220, R223): the inversion and the interpolation as integers. -/

namespace Sys2Proof.Machine

theorem toInt16_bounds (v : BitVec 16) : -32768 ≤ v.toInt ∧ v.toInt ≤ 32767 := by
  have h := v.toInt_lt
  have k := v.le_toInt
  omega

/-- R220: the negation is exact in 17 bits. -/
theorem invertAxis_toInt (inv : Bool) (v : BitVec 16) :
    (invertAxis inv v).toInt = if inv then -v.toInt else v.toInt := by
  have hv := toInt16_bounds v
  have hs : (v.signExtend 17).toInt = v.toInt := BitVec.toInt_signExtend_of_le (by omega)
  cases inv with
  | false => exact hs
  | true =>
    simp only [invertAxis, if_true]
    rw [BitVec.toInt_neg, hs, Int.bmod_eq_of_le] <;> omega

theorem invertPoint_inRange (inv : BitVec 3) (p : Point) : positionOk (invertPoint inv p) := by
  have axis : ∀ (b : Bool) (v : BitVec 16), inRange (invertAxis b v) := by
    intro b v
    have hv := toInt16_bounds v
    rw [inRange, invertAxis_toInt]
    split <;> omega
  exact ⟨axis _ _, axis _ _, axis _ _⟩

/-- R8, R223: a part `p` of `k` of a difference, truncated toward zero, lies between zero and the difference. -/
theorem tdiv_part_between (d : Int) {p k : Nat} (h : p ≤ k) :
    min 0 d ≤ (d * p).tdiv k ∧ (d * p).tdiv k ≤ max 0 d := by
  have part : ∀ n : Nat, ∃ q ≤ n, ((n : Int) * p).tdiv k = (q : Nat) := fun n =>
    ⟨n * p / k, Nat.div_le_of_le_mul (by rw [Nat.mul_comm k]; exact Nat.mul_le_mul_left n h),
      by rw [← Int.natCast_mul, Int.ofNat_tdiv]⟩
  obtain ⟨n, rfl | rfl⟩ := d.eq_nat_or_neg
  · obtain ⟨q, hq, he⟩ := part n
    rw [he]
    omega
  · obtain ⟨q, hq, he⟩ := part n
    rw [Int.neg_mul, Int.neg_tdiv, he]
    omega

/-- R222: the interpolated coordinate is the rule's integer, between the last position and the location. -/
theorem interpAxis_toInt {last cur : BitVec 17} (hl : inRange last) (hc : inRange cur) {p k : Nat} (h : p ≤ k) :
    (interpAxis last cur p k).toInt = last.toInt + ((cur.toInt - last.toInt) * p).tdiv k := by
  have hb := tdiv_part_between (cur.toInt - last.toInt) h
  rw [interpAxis, BitVec.toInt_ofInt, Int.bmod_eq_of_le] <;> omega

theorem interpAxis_inRange {last cur : BitVec 17} (hl : inRange last) (hc : inRange cur) {p k : Nat} (h : p ≤ k) :
    inRange (interpAxis last cur p k) := by
  have hb := tdiv_part_between (cur.toInt - last.toInt) h
  rw [inRange, interpAxis_toInt hl hc h]
  omega

theorem interpolate_inRange {last cur : Position} (hl : positionOk last) (hc : positionOk cur) {p k : Nat}
    (h : p ≤ k) : positionOk (interpolate last cur p k) :=
  ⟨interpAxis_inRange hl.1 hc.1 h, interpAxis_inRange hl.2.1 hc.2.1 h, interpAxis_inRange hl.2.2 hc.2.2 h⟩

end Sys2Proof.Machine
end

section
/-! What each part of the invariant reads: a part holds of every state that agrees on it. -/

namespace Sys2Proof.Machine

theorem Inv.palOk {s : State} (h : Inv s) : s.pal.Ok :=
  ⟨h.stores.palValid, h.stores.palLen, h.stores.palRam, h.decoder.palettes⟩

/-- The stores of the decoder's side: the tables, the stream and the sink may differ if they are in their form. -/
theorem StoresOk.of_tables {s t : State} (h : StoresOk s) (params : t.params = s.params) (cfg : t.cfg = s.cfg)
    (lat : t.lat = s.lat) (sample : t.wrk.sample = s.wrk.sample) (inp : t.inp.wf) (sink : t.sink.wf) (pal : t.pal.Ok)
    (fb : t.fb.ok) : StoresOk t where
  maxCh := by rw [params]; exact h.maxCh
  inp := inp
  sink := sink
  palValid := pal.valid
  palLen := pal.len
  palRam := pal.ram
  fbPt := fb
  cfgCh := by rw [cfg, params]; exact h.cfgCh
  latCh := by rw [lat, params]; exact h.latCh
  sample := by rw [sample, params]; exact h.sample

/-- The stores of the scheduler's side: the configuration, the samples and the sink may differ if they are in their
form. -/
theorem StoresOk.of_registers {s t : State} (h : StoresOk s) (params : t.params = s.params) (inp : t.inp = s.inp)
    (pal : t.pal = s.pal) (fb : t.fb = s.fb)
    (cfg : Cells.wf 0 t.cfg.ch ∧ Cells.below s.params.maxCh t.cfg.ch)
    (lat : Cells.wf 0 t.lat.ch ∧ Cells.below s.params.maxCh t.lat.ch)
    (sample : Cells.wf 0 t.wrk.sample ∧ Cells.below s.params.maxCh t.wrk.sample) (sink : t.sink.wf) : StoresOk t where
  maxCh := by rw [params]; exact h.maxCh
  inp := by rw [inp]; exact h.inp
  sink := sink
  palValid := by rw [pal]; exact h.palValid
  palLen := by rw [pal]; exact h.palLen
  palRam := by rw [pal]; exact h.palRam
  fbPt := by rw [fb]; exact h.fbPt
  cfgCh := by rw [params]; exact cfg
  latCh := by rw [params]; exact lat
  sample := by rw [params]; exact sample

theorem DecoderOk.of_eq {s t : State} (h : DecoderOk s) (dec : t.dec = s.dec) (inp : t.inp = s.inp)
    (fb : t.fb = s.fb) (pal : t.pal = s.pal) : DecoderOk t where
  cursor := by rw [dec, inp]; exact h.cursor
  result := by rw [dec]; exact h.result
  frame := by rw [dec, fb]; exact h.frame
  palettes := by rw [pal]; exact h.palettes

theorem ErrorsOk.of_eq {s t : State} (h : ErrorsOk s) (err : t.err = s.err) (dec : t.dec.state = s.dec.state)
    (run : t.runState = s.runState) : ErrorsOk t where
  row := by rw [err]; exact h.row
  decoder := by rw [dec, err]; exact h.decoder
  clear := by rw [err, run]; exact h.clear
  fatal := by rw [err, run, dec]; exact h.fatal

theorem PositionsOk.of_eq {s t : State} (h : PositionsOk s) (last : t.hid.last = s.hid.last)
    (cur : t.wrk.cur = s.wrk.cur) (pos : t.wrk.pos = s.wrk.pos) : PositionsOk t where
  last := by rw [last]; exact h.last
  cur := by rw [cur]; exact h.cur
  pos := by rw [pos]; exact h.pos

theorem ConfigOk.of_eq {s t : State} (h : ConfigOk s) (params : t.params = s.params) (lat : t.lat = s.lat)
    (frame : t.hid.framePhase.toNat < s.lat.fps.toNat) (point : t.hid.pointPhase.toNat < s.lat.pps.toNat) :
    ConfigOk t where
  fps := by rw [lat]; exact h.fps
  pps := by rw [lat]; exact h.pps
  nch := by rw [lat, params]; exact h.nch
  codes := by rw [lat]; exact h.codes
  framePhase := by rw [lat]; exact frame
  pointPhase := by rw [lat]; exact point

theorem SinkHolds.of_eq {s t : State} {len : Nat} (h : SinkHolds s len) (sink : t.sink = s.sink) (lat : t.lat = s.lat)
    (data : t.hid.dataLen = s.hid.dataLen) : SinkHolds t len where
  size := by rw [sink, data]; exact h.size
  header := by rw [sink, lat]; exact h.header
  whole := by rw [lat, data]; exact h.whole

/-! What the invariant says of the sink, in each state of the run. -/

theorem State.sinkOk_idle {s : State} (h : s.runState = .idle) : s.sinkOk ↔ s.sink.len = 0 ∧ s.hid.dataLen = 0 := by
  rw [State.sinkOk, h]

theorem State.sinkOk_running {s : State} (h : s.runState = .running) : s.sinkOk ↔ SinkHolds s 0 := by
  rw [State.sinkOk, h]

theorem State.sinkOk_done {s : State} (h : s.runState = .done) :
    s.sinkOk ↔ SinkHolds s s.hid.dataLen ∧ s.dec.state = .exhausted := by
  rw [State.sinkOk, h]

theorem State.sinkOk_faulted {s : State} (h : s.runState = .faulted) : s.sinkOk ↔ s.sink.len = 0 ∨ SinkHolds s 0 := by
  rw [State.sinkOk, h]

/-- The decoder's state matters to the sink only at the end of a run. -/
theorem State.sinkOk_of_eq {s t : State} (h : s.sinkOk) (run : t.runState = s.runState)
    (dec : s.runState = .done → t.dec.state = s.dec.state) (sink : t.sink = s.sink) (lat : t.lat = s.lat)
    (data : t.hid.dataLen = s.hid.dataLen) : t.sinkOk := by
  cases hr : s.runState with
  | idle => rwa [State.sinkOk_idle (run.trans hr), sink, data, ← State.sinkOk_idle hr]
  | running =>
    rw [State.sinkOk_running hr] at h
    exact (State.sinkOk_running (run.trans hr)).2 (h.of_eq sink lat data)
  | done =>
    obtain ⟨hs, hd⟩ := (State.sinkOk_done hr).1 h
    exact (State.sinkOk_done (run.trans hr)).2 ⟨by rw [data]; exact hs.of_eq sink lat data, (dec hr).trans hd⟩
  | faulted =>
    rw [State.sinkOk_faulted hr] at h
    rw [State.sinkOk_faulted (run.trans hr), sink]
    exact h.imp_right fun hs => hs.of_eq sink lat data

/-- Whatever a run in progress does, a fault in it leaves what the sink holds. -/
theorem SinkHolds.sinkOk {s : State} (h : SinkHolds s 0) (run : s.runState = .running ∨ s.runState = .faulted) :
    s.sinkOk := by
  rcases run with hr | hr
  · exact (State.sinkOk_running hr).2 h
  · exact (State.sinkOk_faulted hr).2 (.inr h)

/-! What the invariant says of the place of a run. -/

theorem State.placeOk_pull {s : State} (h : s.sch = .pull) : s.placeOk := by
  rw [State.placeOk, h]; trivial

theorem State.placeOk_location {s : State} (h : s.sch = .location) :
    s.placeOk ↔ s.dec.result = .frame ∧ s.wrk.locIdx.toNat < s.fb.count.toNat := by
  rw [State.placeOk, h]

theorem State.placeOk_subSample {s : State} (h : s.sch = .subSample) :
    s.placeOk ↔ s.dec.result = .frame ∧ s.wrk.locIdx.toNat < s.fb.count.toNat
      ∧ 1 ≤ s.wrk.subP.toNat ∧ s.wrk.subP.toNat ≤ s.wrk.locK.toNat := by
  rw [State.placeOk, h]

theorem State.placeOk_channels {s : State} (h : s.sch = .channels) :
    s.placeOk ↔ s.dec.result = .frame ∧ s.wrk.locIdx.toNat < s.fb.count.toNat
      ∧ 1 ≤ s.wrk.subP.toNat ∧ s.wrk.subP.toNat ≤ s.wrk.locK.toNat ∧ s.muxCh ≤ s.lat.nch.toNat := by
  rw [State.placeOk, h]

/-! What the invariant says of the errors. -/

theorem ErrorsOk.no_error {s : State} (h : ErrorsOk s) (run : s.runState ≠ .faulted) (dec : s.dec.state ≠ .faulted) :
    s.err.code = .none := by
  by_contra hc
  rcases h.fatal hc with hr | ⟨-, hd⟩
  · exact run hr
  · exact dec hd

theorem ErrorsOk.of_no_error {s : State} (row : s.err.ok) (err : s.err.code = .none) (run : s.runState ≠ .faulted)
    (dec : s.dec.state ≠ .faulted) : ErrorsOk s where
  row := row
  decoder := iff_of_false dec (by rw [err]; decide)
  clear := fun _ => run
  fatal := fun h => absurd err h

/-- A run is not in progress once an error is recorded. -/
theorem Inv.running_no_error {s : State} (h : Inv s) (hr : s.runState = .running) : s.err.code = .none := by
  by_contra hc
  rcases h.errors.fatal hc with hf | ⟨hi, -⟩
  · cases hr.symm.trans hf
  · cases hr.symm.trans hi

theorem Inv.not_faulted {s : State} (h : Inv s) (hc : s.err.code = .none) : s.dec.state ≠ .faulted :=
  fun hf => by
    have hd := h.errors.decoder.1 hf
    rw [hc] at hd
    cases hd

theorem Inv.setHost {s : State} (h : Inv s) (rest : List HostCmd) : Inv (s.setHost rest) where
  stores := h.stores.of_tables rfl rfl rfl rfl h.stores.inp h.stores.sink h.palOk h.stores.fbPt
  decoder := h.decoder.of_eq rfl rfl rfl rfl
  errors := h.errors.of_eq rfl rfl rfl
  positions := h.positions.of_eq rfl rfl rfl
  config := fun hr => (h.config hr).of_eq rfl rfl (h.config hr).framePhase (h.config hr).pointPhase
  place := h.place
  sink := State.sinkOk_of_eq h.sink rfl (fun _ => rfl) rfl rfl rfl

end Sys2Proof.Machine
end

section
/-! A pull keeps the invariant (R22, R24, R141). -/

namespace Sys2Proof.Machine

/-- A pull leaves what the scheduler's part of the invariant reads. -/
theorem BlockKeeps.inv {s t : State} (h : Inv s) (k : BlockKeeps s t) (pal : t.pal.Ok) (fb : t.fb.ok)
    (dec : DecoderOk t) (errors : ErrorsOk t) (run : t.runState = .running → s.runState = .running)
    (place : s.runState = .running → s.sch = .pull) (sink : t.sinkOk) : Inv t where
  stores := h.stores.of_tables k.params k.cfg k.lat (by rw [k.wrk]) (by rw [k.inp]; exact h.stores.inp)
    (by rw [k.sink]; exact h.stores.sink) pal fb
  decoder := dec
  errors := errors
  positions := h.positions.of_eq (by rw [k.hid]) (by rw [k.wrk]) (by rw [k.wrk])
  config := fun hr => by
    have hc := h.config (run hr)
    exact hc.of_eq k.params k.lat (by rw [k.hid]; exact hc.framePhase) (by rw [k.hid]; exact hc.pointPhase)
  place := fun hr => State.placeOk_pull (k.sch.trans (place (run hr)))
  sink := sink

theorem State.sinkOk_of_blockKeeps {s t : State} (h : Inv s) (k : BlockKeeps s t) (run : t.runState = s.runState)
    (dec : s.runState = .done → t.dec.state = s.dec.state) : t.sinkOk :=
  State.sinkOk_of_eq h.sink run dec k.sink k.lat (by rw [k.hid])

/-- R137, R138: in a terminal state a pull writes `RESULT`, which says which of the two it is. -/
theorem nextFrame_terminal_result {s t : State} (hterm : s.dec.state = .faulted ∨ s.dec.state = .exhausted)
    (e : s.nextFrame = .next t) :
    ∃ r, t = s.setResult r ∧ (s.setResult r).dec.resultOk ∧ (r = .fault ∨ r = .endOfStream) := by
  have ht := nextFrame_terminal hterm e
  rcases hterm with hd | hd
  · exact ⟨.fault, by rw [ht, if_pos hd], hd, .inl rfl⟩
  · exact ⟨.endOfStream, by rw [ht, if_neg (by rw [hd]; decide)], hd, .inr rfl⟩

theorem nextFrame_terminal_inv {s t : State} (h : Inv s) (hterm : s.dec.state = .faulted ∨ s.dec.state = .exhausted)
    (place : s.runState = .running → s.sch = .pull) (e : s.nextFrame = .next t) : Inv t := by
  have hk := nextFrame_keeps s t e
  obtain ⟨r, rfl, hres, hr⟩ := nextFrame_terminal_result hterm e
  have hne : r ≠ .frame := by rcases hr with rfl | rfl <;> decide
  have hdec : DecoderOk (s.setResult r) :=
    ⟨h.decoder.cursor, hres, fun hf => absurd hf hne, h.decoder.palettes⟩
  exact hk.inv h h.palOk h.stores.fbPt hdec (h.errors.of_eq rfl rfl rfl) id place
    (State.sinkOk_of_blockKeeps h hk rfl fun _ => rfl)

/-- What the end of a pull says of the decoder. -/
theorem PullEnds.decoder {s t : State} (h : PullEnds s t) :
    t.dec.resultOk ∧ t.dec.state ≠ .faulted ∧ (t.dec.result = .frame → t.fb.count ≠ 0) := by
  cases h with
  | frame hr hs n => exact ⟨by rw [Decoder.resultOk, hr]; exact hs, by rw [hs]; decide, fun _ => n⟩
  | palette hr hs _ => exact ⟨by rw [Decoder.resultOk, hr]; exact hs, by rw [hs]; decide, by rw [hr]; nofun⟩
  | ended hr hs _ _ => exact ⟨by rw [Decoder.resultOk, hr]; exact hs, by rw [hs]; decide, by rw [hr]; nofun⟩

/-- What an error raised in a pull says of the error registers and the states (R280, R290). -/
theorem ErrorsOk.of_raised {t : State} {r : ErrRegs} (dec : r.code.ofDecoder = true) (row : r.ok) (err : t.err = r)
    (st : t.dec.state = .faulted) (run : t.runState = .faulted ∨ t.runState = .idle) : ErrorsOk t := by
  subst err
  have hne : t.err.code ≠ .none := fun hc => by rw [hc] at dec; cases dec
  exact ⟨row, iff_of_true st dec, fun hc => absurd hc hne, fun _ => run.imp_right fun hi => ⟨hi, st⟩⟩

/-- A pull keeps the invariant, of the host or of a run about to pull. -/
theorem nextFrame_inv {s t : State} (h : Inv s) (hrun : s.runState = .idle ∨ s.runState = .running)
    (place : s.runState = .running → s.sch = .pull) (e : s.nextFrame = .next t) : Inv t := by
  by_cases hterm : s.dec.state = .faulted ∨ s.dec.state = .exhausted
  · exact nextFrame_terminal_inv h hterm place e
  obtain ⟨hf, hx⟩ := not_or.1 hterm
  have hk := nextFrame_keeps s t e
  have hnf : s.runState ≠ .faulted := by rcases hrun with hr | hr <;> rw [hr] <;> decide
  have hnd : s.runState ≠ .done := by rcases hrun with hr | hr <;> rw [hr] <;> decide
  have herr := h.errors.no_error hnf hf
  obtain ⟨did, -, hin, hfb, hpal⟩ := nextFrame_did hf hx h.decoder.cursor e
  have hfb := hfb h.stores.fbPt
  have hpal := hpal h.palOk
  have hcur : t.dec.inPos ≤ t.inp.len := by rwa [hk.inp]
  cases did with
  | well err run _ ends =>
    obtain ⟨hres, hst, hframe⟩ := ends.decoder
    have herrors : ErrorsOk t :=
      .of_no_error (by rw [err]; exact h.errors.row) (by rw [err]; exact herr) (by rwa [run]) hst
    exact hk.inv h hpal hfb ⟨hcur, hres, hframe, hpal.sizes⟩ herrors (fun hr => by rwa [← run]) place
      (State.sinkOk_of_blockKeeps h hk run fun hd => absurd hd hnd)
  | raised r dec row err st res run =>
    rw [if_pos herr] at err
    have hdec : DecoderOk t := ⟨hcur, by rw [Decoder.resultOk, res]; exact st, by rw [res]; nofun, hpal.sizes⟩
    rcases hrun with hr | hr
    · have ht : t.runState = s.runState := by rw [run, State.runStateAfterError, if_neg (by rw [hr]; decide)]
      exact hk.inv h hpal hfb hdec (.of_raised dec row err st (.inr (ht.trans hr))) (fun hr => by rwa [← ht]) place
        (State.sinkOk_of_blockKeeps h hk ht fun hd => absurd hd hnd)
    · have ht : t.runState = .faulted := by rw [run, State.runStateAfterError, if_pos hr]
      have hs := ((State.sinkOk_running hr).1 h.sink).of_eq hk.sink hk.lat (by rw [hk.hid])
      exact hk.inv h hpal hfb hdec (.of_raised dec row err st (.inl ht)) (by rw [ht]; nofun) place
        (hs.sinkOk (.inr ht))

end Sys2Proof.Machine
end

section
/-! The sink of a run (R251 to R256): the container header in place and whole sample frames after it. -/

namespace Sys2Proof.Machine

/-- A read of what was written. -/
theorem Memory.readBytes_writeBytes_same (m : Memory) {a : Nat} (h : a ≤ m.len) (bs : List Byte) :
    (m.writeBytes a bs).readBytes a bs.length = some bs := by
  refine (Memory.readBytes_eq_some _ _ _ _).2 ⟨?_, rfl, fun i hi => ?_⟩
  · rw [Memory.len_writeBytes _ _ _ h]
    exact Nat.le_max_right _ _
  · rw [Memory.readByte_writeBytes _ _ _ _ h, if_pos (by omega), Nat.add_sub_cancel_left]

theorem containerHeader_length (l : ConfigRegs) (len : Nat) : (containerHeader l len).length = 44 := rfl

/-- R250: the placeholder is all that the sink of a new run holds. -/
theorem SinkHolds.of_placeholder {s : State} (hs : s.sink.len = 0) (hd : s.hid.dataLen = 0) :
    SinkHolds s.appendPlaceholder 0 where
  size := by
    simp only [State.appendPlaceholder, State.setSink_fields, Memory.len_append, containerHeader_length, hs, hd]
  header := by
    have h := Memory.readBytes_append_new s.sink (containerHeader s.lat 0)
    rw [hs, containerHeader_length] at h
    simp only [State.appendPlaceholder, State.setSink_fields]
    exact h
  whole := by
    simp only [State.appendPlaceholder, State.setSink_fields, hd, Nat.dvd_zero]

/-- R254: an emission appends whole sample frames. -/
theorem SinkHolds.emitSampleFrames {s : State} {len : Nat} (h : SinkHolds s len) (n : Nat) :
    SinkHolds (s.emitSampleFrames n) len := by
  rw [State.emitSampleFrames_eq]
  refine ⟨?_, Memory.readBytes_append_old h.header _, Nat.dvd_add h.whole (Nat.dvd_mul_left _ _)⟩
  simp only [State.setHid_fields, State.setSink_fields, Memory.len_append, h.size, List.length_flatten,
    List.map_replicate, List.sum_replicate, sampleFrame_length, smul_eq_mul]
  omega

/-- R255: the patch puts the true length into the header and leaves the rest. -/
theorem SinkHolds.endRun {s : State} {len : Nat} (h : SinkHolds s len) : SinkHolds s.endRun s.hid.dataLen := by
  have hlen := Memory.len_writeBytes (containerHeader s.lat s.hid.dataLen) s.sink 0 (Nat.zero_le _)
  have hread := Memory.readBytes_writeBytes_same s.sink (Nat.zero_le _) (containerHeader s.lat s.hid.dataLen)
  rw [containerHeader_length] at hlen hread
  have hsize := h.size
  constructor <;> simp only [State.endRun, State.setRunState_fields, State.setSink_fields]
  · omega
  · exact hread
  · exact h.whole

end Sys2Proof.Machine
end

section
/-! Every step of a run keeps the invariant. -/

namespace Sys2Proof.Machine

theorem toNat_ofNat_mod_lt {d : BitVec 32} (hd : d ≠ 0) (n : Nat) :
    (BitVec.ofNat 32 (n % d.toNat)).toNat < d.toNat := by
  rw [BitVec.toNat_ofNat]
  exact Nat.lt_of_le_of_lt (Nat.mod_le _ _) (Nat.mod_lt _ (BitVec.toNat_pos_of_ne_zero hd))

/-- What a step of a run other than a pull has to show. -/
theorem RunKeeps.inv {s t : State} (h : Inv s) (hr : s.runState = .running) (k : RunKeeps s t)
    (run : t.runState = .running)
    (sample : Cells.wf 0 t.wrk.sample ∧ Cells.below s.params.maxCh t.wrk.sample) (sinkWf : t.sink.wf)
    (positions : PositionsOk t) (frame : t.hid.framePhase.toNat < s.lat.fps.toNat)
    (point : t.hid.pointPhase.toNat < s.lat.pps.toNat) (place : t.placeOk) (sink : SinkHolds t 0) : Inv t where
  stores := h.stores.of_registers k.params k.inp k.pal k.fb (by rw [k.cfg]; exact h.stores.cfgCh)
    (by rw [k.lat]; exact h.stores.latCh) sample sinkWf
  decoder := h.decoder.of_eq k.dec k.inp k.fb k.pal
  errors := h.errors.of_eq k.err (by rw [k.dec]) (run.trans hr.symm)
  positions := positions
  config := fun _ => (h.config hr).of_eq k.params k.lat frame point
  place := fun _ => place
  sink := sink.sinkOk (.inl run)

/-- A step that leaves the counters and the sink, and no sample. -/
theorem RunKeeps.inv_of_hid {s t : State} (h : Inv s) (hr : s.runState = .running) (k : RunKeeps s t)
    (run : t.runState = s.runState) (hid : t.hid = s.hid) (sink : t.sink = s.sink)
    (sample : Cells.wf 0 t.wrk.sample ∧ Cells.below s.params.maxCh t.wrk.sample)
    (cur : positionOk t.wrk.cur) (pos : positionOk t.wrk.pos) (place : t.placeOk) : Inv t := by
  have hc := h.config hr
  refine k.inv h hr (run.trans hr) sample (by rw [sink]; exact h.stores.sink)
    ⟨by rw [hid]; exact h.positions.last, cur, pos⟩ (by rw [hid]; exact hc.framePhase)
    (by rw [hid]; exact hc.pointPhase) place ?_
  exact ((State.sinkOk_running hr).1 h.sink).of_eq sink k.lat (by rw [hid])

variable {s : State}

theorem Inv.frame_of_location (h : Inv s) (hr : s.runState = .running) (hs : s.sch = .location) :
    s.dec.result = .frame ∧ s.wrk.locIdx.toNat < s.fb.count.toNat :=
  (State.placeOk_location hs).1 (h.place hr)

/-- The next turn of the loop of R193, from wherever in a frame the run stands. -/
theorem Inv.nextLocation (h : Inv s) (hr : s.runState = .running) (hf : s.dec.result = .frame) :
    Inv s.nextLocation := by
  obtain ⟨hk, hrun, hhid, hsink⟩ := s.nextLocation_keeps
  have hw : s.nextLocation.wrk.sample = s.wrk.sample ∧ s.nextLocation.wrk.cur = s.wrk.cur ∧
      s.nextLocation.wrk.pos = s.wrk.pos := by
    unfold State.nextLocation; split <;> simp
  obtain ⟨hsm, hcur, hpos⟩ := hw
  refine hk.inv_of_hid h hr hrun hhid hsink (by rw [hsm]; exact h.stores.sample) (by rw [hcur]; exact h.positions.cur)
    (by rw [hpos]; exact h.positions.pos) ?_
  unfold State.nextLocation
  split
  · next hlt =>
    refine (State.placeOk_location rfl).2 ⟨hf, ?_⟩
    show (s.wrk.locIdx + 1).toNat < s.fb.count.toNat
    have := s.fb.count.isLt
    bv_omega
  · exact State.placeOk_pull rfl

theorem Inv.allocLocation (h : Inv s) (hr : s.runState = .running) (hs : s.sch = .location) : Inv s.allocLocation := by
  have hk : RunKeeps s s.allocLocation := by constructor <;> simp [State.allocLocation]
  exact hk.inv_of_hid h hr rfl rfl rfl h.stores.sample h.positions.cur h.positions.pos
    ((State.placeOk_location (s := s.allocLocation) hs).2 (h.frame_of_location hr hs))

/-- R193, R194, R221: a location that has a share begins, one without is skipped. -/
theorem Inv.startLocation (h : Inv s) (hr : s.runState = .running) (hs : s.sch = .location) : Inv s.startLocation := by
  have ha := h.allocLocation hr hs
  obtain ⟨hf, hlt⟩ := h.frame_of_location hr hs
  simp only [State.startLocation]
  split
  · exact ha.nextLocation hr hf
  · next hne =>
    have hk : RunKeeps s.allocLocation (s.allocLocation.beginLocation.setSch .subSample) := by
      constructor <;> simp [State.beginLocation]
    exact hk.inv_of_hid ha hr rfl rfl rfl ha.stores.sample (invertPoint_inRange _ _) ha.positions.pos
      ((State.placeOk_subSample rfl).2 ⟨hf, hlt, Nat.le_refl 1, BitVec.toNat_pos_of_ne_zero hne⟩)

theorem State.startSubSample_wrk (s : State) : s.startSubSample.wrk = { s.wrk with
    pos := interpolate s.hid.last s.wrk.cur s.wrk.subP.toNat s.wrk.locK.toNat
    repN := BitVec.ofNat 32 (groupSize s.lat.rate.toNat s.lat.pps.toNat s.hid.pointPhase.toNat) } := rfl

theorem State.startSubSample_hid (s : State) : s.startSubSample.hid = { s.hid with
    pointPhase := BitVec.ofNat 32 ((s.hid.pointPhase.toNat + 1) % s.lat.pps.toNat) } := rfl

/-- R196, R222: a sub-sample gets its position, between the last one and the location, and its hold count. -/
theorem Inv.startSubSample (h : Inv s) (hr : s.runState = .running) (hs : s.sch = .subSample) :
    Inv s.startSubSample := by
  obtain ⟨hk, hrun, hsink⟩ := s.startSubSample_keeps
  obtain ⟨hf, hlt, h1, hle⟩ := (State.placeOk_subSample hs).1 (h.place hr)
  have hc := h.config hr
  have hplace : s.startSubSample.placeOk := by
    refine (State.placeOk_channels rfl).2 ?_
    rw [hk.dec, hk.fb, s.startSubSample_wrk]
    exact ⟨hf, hlt, h1, hle, Nat.zero_le _⟩
  refine hk.inv h hr (hrun.trans hr) ?_ (by rw [hsink]; exact h.stores.sink) ⟨?_, ?_, ?_⟩ ?_ ?_ hplace ?_
  · rw [s.startSubSample_wrk]; exact h.stores.sample
  · rw [s.startSubSample_hid]; exact h.positions.last
  · rw [s.startSubSample_wrk]; exact h.positions.cur
  · rw [s.startSubSample_wrk]; exact interpolate_inRange h.positions.last h.positions.cur hle
  · rw [s.startSubSample_hid]; exact hc.framePhase
  · rw [s.startSubSample_hid]; exact toNat_ofNat_mod_lt hc.pps _
  · exact ((State.sinkOk_running hr).1 h.sink).of_eq hsink hk.lat (by rw [s.startSubSample_hid])

/-- R233: the next channel's sample has its place, and the channel after it is next. -/
theorem Inv.putSample (h : Inv s) (hr : s.runState = .running) (hs : s.sch = .channels)
    (hm : s.muxCh < s.lat.nch.toNat) (v : BitVec 16) : Inv (s.putSample v) := by
  obtain ⟨hk, hrun, hhid, hsink⟩ := s.putSample_keeps v
  obtain ⟨hf, hlt, h1, hle, -⟩ := (State.placeOk_channels hs).1 (h.place hr)
  have hmax := (h.config hr).nch.2
  exact hk.inv_of_hid h hr hrun hhid hsink
    ⟨Cells.wf_set h.stores.sample.1 _ _, Cells.below_set h.stores.sample.2 (by omega) _⟩ h.positions.cur h.positions.pos
    ((State.placeOk_channels (s := s.putSample v) hs).2 ⟨hf, hlt, h1, hle, hm⟩)

/-- R254: the sink of a run after an emission. -/
theorem Inv.emitSampleFrames (h : Inv s) (hr : s.runState = .running) (n : Nat) : Inv (s.emitSampleFrames n) := by
  obtain ⟨hk, hrun⟩ := s.emitSampleFrames_keeps n
  have hc := h.config hr
  have hsink := ((State.sinkOk_running hr).1 h.sink).emitSampleFrames n
  rw [State.emitSampleFrames_eq] at hk hrun hsink ⊢
  exact hk.inv h hr (hrun.trans hr) h.stores.sample (Memory.wf_append h.stores.sink _)
    (h.positions.of_eq rfl rfl rfl) hc.framePhase hc.pointPhase (h.place hr) hsink

/-- R224: the last position is the location's own. -/
theorem Inv.endLocation (h : Inv s) (hr : s.runState = .running) : Inv s.endLocation := by
  have hk : RunKeeps s s.endLocation := by constructor <;> simp [State.endLocation]
  have hc := h.config hr
  exact hk.inv h hr hr h.stores.sample h.stores.sink ⟨h.positions.cur, h.positions.cur, h.positions.pos⟩
    hc.framePhase hc.pointPhase (h.place hr) (((State.sinkOk_running hr).1 h.sink).of_eq rfl rfl rfl)

/-- What follows an emission: the next turn of the loop of R221, or the end of the location (R224). -/
def State.nextSubSample (s : State) : State :=
  if s.wrk.subP.toNat < s.wrk.locK.toNat then
    (s.setWrk { s.wrk with subP := s.wrk.subP + 1 }).setSch .subSample
  else s.endLocation.nextLocation

theorem State.finishSubSample_eq (s : State) :
    s.finishSubSample = (s.emitSampleFrames s.wrk.repN.toNat).nextSubSample := rfl

theorem Inv.nextSubSample (h : Inv s) (hr : s.runState = .running) (hs : s.sch = .channels) : Inv s.nextSubSample := by
  obtain ⟨hf, hlt, h1, -, -⟩ := (State.placeOk_channels hs).1 (h.place hr)
  unfold State.nextSubSample
  split
  · next hp =>
    have hk : RunKeeps s ((s.setWrk { s.wrk with subP := s.wrk.subP + 1 }).setSch .subSample) := by
      constructor <;> simp
    have hnext : (s.wrk.subP + 1).toNat = s.wrk.subP.toNat + 1 := by
      have := s.wrk.locK.isLt
      bv_omega
    refine hk.inv_of_hid h hr rfl rfl rfl h.stores.sample h.positions.cur h.positions.pos
      ((State.placeOk_subSample rfl).2 ⟨hf, hlt, ?_, ?_⟩)
    · show 1 ≤ (s.wrk.subP + 1).toNat
      omega
    · show (s.wrk.subP + 1).toNat ≤ s.wrk.locK.toNat
      omega
  · exact (h.endLocation hr).nextLocation hr hf

theorem Inv.finishSubSample (h : Inv s) (hr : s.runState = .running) (hs : s.sch = .channels) :
    Inv s.finishSubSample := by
  have he := h.emitSampleFrames hr s.wrk.repN.toNat
  rw [State.finishSubSample_eq]
  rw [State.emitSampleFrames_eq] at he ⊢
  exact he.nextSubSample hr hs

end Sys2Proof.Machine
end

section
/-! The pull of a run, the host's commands, and the invariant as a whole. -/

namespace Sys2Proof.Machine

/-! What follows a pull of a run (R192). -/

theorem State.afterPull_frame {s : State} (h : s.dec.result = .frame) :
    s.afterPull = s.beginFrame.setSch .location := by
  rw [State.afterPull, h]

theorem State.afterPull_palette {s : State} (h : s.dec.result = .palette) : s.afterPull = s.setSch .pull := by
  rw [State.afterPull, h]

theorem State.afterPull_endOfStream {s : State} (h : s.dec.result = .endOfStream) : s.afterPull = s.endRun := by
  rw [State.afterPull, h]

theorem State.afterPull_fault {s : State} (h : s.dec.result = .fault) : s.afterPull = s.setRunState .faulted := by
  rw [State.afterPull, h]

/-- How the pull of a run ends: in a fault, at the end of the stream, or with a block of at least 32 bytes. -/
theorem nextFrame_of_run {s t : State} (h : Inv s) (hr : s.runState = .running) (e : s.nextFrame = .next t) :
    (t.dec.result = .fault ∧ t.runState = .faulted) ∨ (t.dec.result = .endOfStream ∧ t.runState = .running) ∨
    ((t.dec.result = .frame ∨ t.dec.result = .palette) ∧ t.runState = .running ∧ s.dec.inPos + 32 ≤ t.dec.inPos) := by
  have hf := h.not_faulted (h.running_no_error hr)
  by_cases hx : s.dec.state = .exhausted
  · rw [nextFrame_terminal (.inr hx) e, if_neg hf]
    exact .inr (.inl ⟨rfl, hr⟩)
  · cases (nextFrame_did hf hx h.decoder.cursor e).1 with
    | well _ run took ends =>
      cases ends with
      | frame res => exact .inr (.inr ⟨.inl res, run.trans hr, took⟩)
      | palette res => exact .inr (.inr ⟨.inr res, run.trans hr, took⟩)
      | ended res => exact .inr (.inl ⟨res, run.trans hr⟩)
    | raised _ _ _ _ _ res run => exact .inl ⟨res, by rw [run, State.runStateAfterError, if_pos hr]⟩

theorem Inv.beginFrame {s : State} (h : Inv s) (hr : s.runState = .running) (hf : s.dec.result = .frame) :
    Inv (s.beginFrame.setSch .location) := by
  have hk : RunKeeps s (s.beginFrame.setSch .location) := by constructor <;> simp [State.beginFrame]
  have hc := h.config hr
  have hpos := BitVec.toNat_pos_of_ne_zero (h.decoder.frame hf)
  exact hk.inv h hr hr h.stores.sample h.stores.sink (h.positions.of_eq rfl rfl rfl) (toNat_ofNat_mod_lt hc.fps _)
    hc.pointPhase ((State.placeOk_location rfl).2 ⟨hf, hpos⟩) (((State.sinkOk_running hr).1 h.sink).of_eq rfl rfl rfl)

theorem Inv.setSch_pull {s : State} (h : Inv s) (hr : s.runState = .running) : Inv (s.setSch .pull) := by
  have hk : RunKeeps s (s.setSch .pull) := by constructor <;> simp
  exact hk.inv_of_hid h hr rfl rfl rfl h.stores.sample h.positions.cur h.positions.pos (State.placeOk_pull rfl)

/-- R255, R256: the end of a run. -/
theorem Inv.endRun {s : State} (h : Inv s) (hr : s.runState = .running) (he : s.dec.result = .endOfStream) :
    Inv s.endRun := by
  have hx : s.dec.state = .exhausted := by have := h.decoder.result; rwa [Decoder.resultOk, he] at this
  have hsink := ((State.sinkOk_running hr).1 h.sink).endRun
  have herr := h.running_no_error hr
  have hk : RunKeeps s s.endRun := by constructor <;> simp [State.endRun]
  have hrun : s.endRun.runState = .done := by simp [State.endRun]
  have hw : s.endRun.wrk = s.wrk ∧ s.endRun.hid = s.hid := by simp [State.endRun]
  exact {
    stores := h.stores.of_registers hk.params hk.inp hk.pal hk.fb (by rw [hk.cfg]; exact h.stores.cfgCh)
      (by rw [hk.lat]; exact h.stores.latCh) (by rw [hw.1]; exact h.stores.sample)
      (Memory.wf_writeBytes _ h.stores.sink 0)
    decoder := h.decoder.of_eq hk.dec hk.inp hk.fb hk.pal
    errors := .of_no_error (by rw [hk.err]; exact h.errors.row) (by rw [hk.err]; exact herr) (by rw [hrun]; nofun)
      (by rw [hk.dec]; exact h.not_faulted herr)
    positions := h.positions.of_eq (by rw [hw.2]) (by rw [hw.1]) (by rw [hw.1])
    config := by rw [hrun]; nofun
    place := by rw [hrun]; nofun
    sink := (State.sinkOk_done hrun).2 ⟨by rw [hw.2]; exact hsink, by rw [hk.dec]; exact hx⟩ }

/-- A pull of a run and what follows it keep the invariant. -/
theorem Inv.pullStep {s t : State} (h : Inv s) (hr : s.runState = .running) (hs : s.sch = .pull)
    (e : s.nextFrame = .next t) : Inv t.afterPull := by
  have ht := nextFrame_inv h (.inr hr) (fun _ => hs) e
  rcases nextFrame_of_run h hr e with ⟨res, run⟩ | ⟨res, run⟩ | ⟨res | res, run, -⟩
  · rw [State.afterPull_fault res, ← run]
    exact ht
  · rw [State.afterPull_endOfStream res]
    exact ht.endRun run res
  · rw [State.afterPull_frame res]
    exact ht.beginFrame run res
  · rw [State.afterPull_palette res]
    exact ht.setSch_pull run

theorem step_running_inv {s t : State} (h : Inv s) (hr : s.runState = .running) (e : step s = .next t) : Inv t := by
  rcases step_running_cases hr e with
    ⟨hs, u, hu, rfl⟩ | ⟨hs, rfl⟩ | ⟨hs, rfl⟩ | ⟨hs, hm, i, hd, hi⟩ | ⟨hs, -, rfl⟩
  · exact h.pullStep hr hs hu
  · exact h.startLocation hr hs
  · exact h.startSubSample hr hs
  · obtain ⟨v, hv⟩ := exec_channel hd s
    cases hv.symm.trans hi
    exact h.putSample hr hs hm v
  · exact h.finishSubSample hr hs

/-! The host's commands (R47). -/

/-- R320: RESET meets the invariant whatever the platform attaches. -/
theorem Inv.resetCmd {s : State} (h : Inv s) (att : Option Attachment) : Inv (s.resetCmd att) := by
  have hinp : (s.resetCmd att).inp.wf := by
    cases att with
    | none => exact h.stores.inp
    | some a => exact Memory.wf_ofBytes a.stream
  have hcfg : Cells.wf 0 ConfigRegs.reset.ch ∧ Cells.below 3 ConfigRegs.reset.ch := by decide
  have hzero : positionOk Position.zero := by decide
  exact {
    stores := ⟨h.stores.maxCh, hinp, ⟨Cells.wf_nil _, nofun⟩, ⟨Cells.wf_nil _, nofun⟩, ⟨Cells.wf_nil _, nofun⟩,
      ⟨Cells.wf_nil _, nofun⟩, ⟨Cells.wf_nil _, nofun⟩, ⟨hcfg.1, Cells.below_mono hcfg.2 h.stores.maxCh.1⟩,
      ⟨Cells.wf_nil _, nofun⟩, ⟨Cells.wf_nil _, nofun⟩⟩
    decoder := ⟨Nat.zero_le _, rfl, nofun, nofun⟩
    errors := .of_no_error ⟨rfl, rfl, rfl⟩ rfl nofun nofun
    positions := ⟨hzero, hzero, hzero⟩
    config := nofun
    place := nofun
    sink := (State.sinkOk_idle rfl).2 ⟨rfl, rfl⟩ }

/-- R40: a configuration write outside a run. -/
theorem Inv.setCfg {s : State} (h : Inv s) (hr : s.runState ≠ .running) {cfg : ConfigRegs}
    (hcfg : Cells.wf 0 cfg.ch ∧ Cells.below s.params.maxCh cfg.ch) : Inv (s.setCfg cfg) where
  stores := h.stores.of_registers rfl rfl rfl rfl hcfg h.stores.latCh h.stores.sample h.stores.sink
  decoder := h.decoder.of_eq rfl rfl rfl rfl
  errors := h.errors.of_eq rfl rfl rfl
  positions := h.positions.of_eq rfl rfl rfl
  config := fun hc => absurd hc hr
  place := fun hc => absurd hc hr
  sink := State.sinkOk_of_eq h.sink rfl (fun _ => rfl) rfl rfl rfl

theorem State.raise_dec_of_start (s : State) {c : ErrCode} (g : ErrStage) (i : Byte) (p : Nat) (b : Bool)
    (hc : c.ofDecoder = false) : (s.raise c g i p b).dec = s.dec := by
  unfold State.raise
  simp only [hc, Bool.false_eq_true, if_false]
  split <;> rfl

/-- R283 to R286: a check of START that fails records its error and writes nothing to the sink. -/
theorem Inv.raise_start {s : State} (h : Inv s) (hi : s.runState = .idle) (he : s.err.code = .none) {code : ErrCode}
    {stage : ErrStage} {info : Byte} (hdec : code.ofDecoder = false) (hne : code ≠ .none)
    (row : ErrRegs.ok ⟨code, stage, info, 0⟩) : Inv (s.raise code stage info 0 true) := by
  have hd := s.raise_dec_of_start stage info 0 true hdec
  have hrun : (s.raise code stage info 0 true).runState = .faulted := by rw [State.raise_runState, if_pos (.inr rfl)]
  have hk := s.raise_keeps code stage info 0 true
  have herr : (s.raise code stage info 0 true).err = ⟨code, stage, info, 0⟩ := by simp [ErrRegs.record, he]
  have hpal : (s.raise code stage info 0 true).pal = s.pal := by simp
  have hfb : (s.raise code stage info 0 true).fb = s.fb := by simp
  have hsink := ((State.sinkOk_idle hi).1 h.sink).1
  refine hk.inv h (by rw [hpal]; exact h.palOk) (by rw [hfb]; exact h.stores.fbPt)
    (h.decoder.of_eq hd hk.inp hfb hpal) ⟨?_, ?_, ?_, ?_⟩ ?_ ?_ ((State.sinkOk_faulted hrun).2 (.inl ?_))
  · rw [herr]; exact row
  · rw [hd, herr]; exact iff_of_false (h.not_faulted he) (by rw [hdec]; decide)
  · rw [herr]; exact fun hc => absurd hc hne
  · exact fun _ => .inl hrun
  · rw [hrun]; nofun
  · rw [hi]; nofun
  · rw [hk.sink]; exact hsink

/-- R43, R250, R287: a START that passes its checks begins a run with a legal configuration and clear counters. -/
theorem Inv.beginRun {s : State} (h : Inv s) (hi : s.runState = .idle) (he : s.err.code = .none)
    (hcfg : s.badConfig = false) (hcodes : ∀ c < s.cfg.nch.toNat, isChannelCode (Cells.get 0 s.cfg.ch c) = true) :
    Inv (((s.latchConfig.setRunState .running).appendPlaceholder).setSch .pull) := by
  have hok := mt s.badConfig_iff.2 (by rw [hcfg]; decide)
  simp only [not_or, Nat.not_lt] at hok
  obtain ⟨hfps, hpps, hnch, hmax⟩ := hok
  have hlat : ∀ c < s.cfg.nch.toNat,
      isChannelCode (Cells.get 0 (copyChannels s.cfg.ch s.lat.ch s.cfg.nch.toNat) c) = true := fun c hc => by
    rw [get_copyChannels, if_pos hc]
    exact hcodes c hc
  have hzero : positionOk Position.zero := by decide
  have hsink := SinkHolds.of_placeholder (s := s.latchConfig.setRunState .running)
    ((State.sinkOk_idle hi).1 h.sink).1 rfl
  exact {
    stores := h.stores.of_registers rfl rfl rfl rfl h.stores.cfgCh (copyChannels_wf _ h.stores.latCh _ hmax)
      h.stores.sample (Memory.wf_append h.stores.sink _)
    decoder := h.decoder.of_eq rfl rfl rfl rfl
    errors := .of_no_error h.errors.row he nofun (h.not_faulted he)
    positions := ⟨hzero, h.positions.cur, h.positions.pos⟩
    config := fun _ => ⟨hfps, hpps, ⟨hnch, hmax⟩, hlat, BitVec.toNat_pos_of_ne_zero hfps,
      BitVec.toNat_pos_of_ne_zero hpps⟩
    place := fun _ => State.placeOk_pull rfl
    sink := (State.sinkOk_running rfl).2 (hsink.of_eq rfl rfl rfl) }

theorem Inv.startCmd {s : State} (h : Inv s) : Inv s.startCmd := by
  rcases s.startCmd_cases with ⟨-, e⟩ | ⟨hi, he, ⟨-, e⟩ | ⟨hcfg, ⟨c, -, hbad, -, e⟩ | ⟨hcodes, ⟨-, e⟩ | ⟨-, e⟩⟩⟩⟩ <;>
    rw [e]
  · exact h
  · exact h.raise_start hi he rfl nofun ⟨rfl, rfl, rfl⟩
  · exact h.raise_start hi he rfl nofun ⟨rfl, hbad, rfl⟩
  · exact h.raise_start hi he rfl nofun ⟨rfl, rfl, rfl⟩
  · exact h.beginRun hi he hcfg hcodes

theorem step_idle_inv {s t : State} (h : Inv s) (hr : s.runState ≠ .running) (e : step s = .next t) : Inv t := by
  rcases step_idle_cases hr e with ⟨-, rfl⟩ | ⟨c, rest, -,
    ⟨att, -, rfl⟩ | ⟨-, hi, hn⟩ | ⟨-, -, rfl⟩ | ⟨-, rfl⟩ | ⟨-, -, -, cfg, rfl, hcfg⟩⟩
  · exact h
  · exact (h.setHost rest).resetCmd att
  · exact nextFrame_inv (h.setHost rest) (.inl hi) (fun hc => absurd hc hr) hn
  · exact h.setHost rest
  · exact (h.setHost rest).startCmd
  · exact (h.setHost rest).setCfg hr (hcfg h.stores.cfgCh)

/-- Settles O48: each step of a run keeps the invariant at its place, and so does each of the host's commands. -/
theorem stepKeepsInvariant : Obligations.StepKeepsInvariant := by
  intro s t h e
  by_cases hr : s.runState = .running
  · exact step_running_inv h hr e
  · exact step_idle_inv h hr e

end Sys2Proof.Machine
end

section
/-! What the loops of START in one piece leave alone (R221, R222, R193), each loop once. -/

namespace Sys2Proof.Machine

/-- What drawing leaves: what every step of a run but its pull leaves, and the run in progress. -/
structure DrawKeeps (s t : State) : Prop extends RunKeeps s t where
  run : t.runState = s.runState

theorem DrawKeeps.refl (s : State) : DrawKeeps s s := ⟨⟨rfl, rfl, rfl, rfl, rfl, rfl, rfl, rfl, rfl, rfl, rfl⟩, rfl⟩

theorem DrawKeeps.trans {s t u : State} (h : DrawKeeps s t) (k : DrawKeeps t u) : DrawKeeps s u :=
  ⟨h.toRunKeeps.trans k.toRunKeeps, k.run.trans h.run⟩

theorem State.setWrk_draws (s : State) (w : Working) : DrawKeeps s (s.setWrk w) := ⟨by constructor <;> simp, by simp⟩

theorem State.setHid_draws (s : State) (h : Hidden) : DrawKeeps s (s.setHid h) := ⟨by constructor <;> simp, by simp⟩

/-- One turn of the loop over the channels (R222). -/
def State.fillSample (s : State) (c : Nat) : State :=
  let v := signal s.params.outOverflow (Cells.get 0 s.lat.ch c) s.wrk.pos s.location.colour
  s.setWrk { s.wrk with sample := Cells.set 0 s.wrk.sample c v }

theorem State.fillSamples_succ (s : State) (c : Nat) : s.fillSamples (c + 1) = (s.fillSamples c).fillSample c := rfl

/-- The loop over the channels writes nothing but the samples. -/
theorem State.fillSamples_eq (s : State) :
    ∀ c, s.fillSamples c = s.setWrk { s.wrk with sample := (s.fillSamples c).wrk.sample }
  | 0 => rfl
  | c + 1 => by rw [State.fillSamples_succ, State.fillSamples_eq s c]; rfl

theorem State.fillSamples_draws (s : State) (c : Nat) : DrawKeeps s (s.fillSamples c) := by
  rw [State.fillSamples_eq]
  exact s.setWrk_draws _

/-- `SUB_P <- p`. -/
def State.withSubP (s : State) (p : Nat) : State := s.setWrk { s.wrk with subP := BitVec.ofNat 32 p }

/-- The part of `SubSample` before its channels (R222). -/
def State.placeSubSample (s : State) (p : Nat) : State := (s.withSubP p).setPosition.holdCount

theorem State.placeSubSample_draws (s : State) (p : Nat) : DrawKeeps s (s.placeSubSample p) :=
  ((s.setWrk_draws _).trans (State.setWrk_draws _ _)).trans ((State.setWrk_draws _ _).trans (State.setHid_draws _ _))

theorem State.drawSubSample_eq (s : State) (p : Nat) :
    s.drawSubSample p = ((s.placeSubSample p).fillSamples s.lat.nch.toNat).emitSampleFrames
      ((s.placeSubSample p).fillSamples s.lat.nch.toNat).wrk.repN.toNat := rfl

theorem State.drawSubSample_draws (s : State) (p : Nat) : DrawKeeps s (s.drawSubSample p) := by
  rw [State.drawSubSample_eq]
  have hf := (s.placeSubSample_draws p).trans (State.fillSamples_draws _ s.lat.nch.toNat)
  obtain ⟨hk, hr⟩ := State.emitSampleFrames_keeps ((s.placeSubSample p).fillSamples s.lat.nch.toNat) _
  exact hf.trans ⟨hk, hr⟩

/-- A sub-sample leaves the counters of the loops around it. -/
theorem State.drawSubSample_counters (s : State) (p : Nat) :
    (s.drawSubSample p).wrk.subP = BitVec.ofNat 32 p ∧ (s.drawSubSample p).wrk.locK = s.wrk.locK ∧
    (s.drawSubSample p).wrk.locIdx = s.wrk.locIdx := by
  rw [State.drawSubSample_eq, State.emitSampleFrames_eq, State.fillSamples_eq]
  exact ⟨rfl, rfl, rfl⟩

theorem State.drawSubSamples_draws (s : State) : ∀ p, DrawKeeps s (s.drawSubSamples p)
  | 0 => .refl s
  | p + 1 => (State.drawSubSamples_draws s p).trans (State.drawSubSample_draws _ _)

theorem State.drawSubSamples_counters (s : State) : ∀ p,
    (s.drawSubSamples p).wrk.locK = s.wrk.locK ∧ (s.drawSubSamples p).wrk.locIdx = s.wrk.locIdx
  | 0 => ⟨rfl, rfl⟩
  | p + 1 => by
    obtain ⟨-, hk, hi⟩ := (s.drawSubSamples p).drawSubSample_counters (p + 1)
    obtain ⟨ihk, ihi⟩ := State.drawSubSamples_counters s p
    exact ⟨hk.trans ihk, hi.trans ihi⟩

/-- `LOC_IDX <- i`. -/
def State.withLocIdx (s : State) (i : Nat) : State := s.setWrk { s.wrk with locIdx := BitVec.ofNat 16 i }

theorem State.allocLocation_draws (s : State) (i : Nat) : DrawKeeps s (s.withLocIdx i).allocLocation :=
  (s.setWrk_draws _).trans (State.setWrk_draws _ _)

theorem State.drawLocation_skip {s : State} {i : Nat} (h : (s.withLocIdx i).allocLocation.wrk.locK = 0) :
    s.drawLocation i = (s.withLocIdx i).allocLocation :=
  if_pos h

theorem State.drawLocation_draw {s : State} {i : Nat} (h : (s.withLocIdx i).allocLocation.wrk.locK ≠ 0) :
    s.drawLocation i = ((s.withLocIdx i).allocLocation.beginLocation.drawSubSamples
      (s.withLocIdx i).allocLocation.wrk.locK.toNat).endLocation :=
  if_neg h

theorem State.drawLocation_draws (s : State) (i : Nat) :
    DrawKeeps s (s.drawLocation i) ∧ (s.drawLocation i).wrk.locIdx = BitVec.ofNat 16 i := by
  have ha := s.allocLocation_draws i
  by_cases hk : (s.withLocIdx i).allocLocation.wrk.locK = 0
  · rw [State.drawLocation_skip hk]
    exact ⟨ha, rfl⟩
  · rw [State.drawLocation_draw hk]
    exact ⟨((ha.trans (State.setWrk_draws _ _)).trans (State.drawSubSamples_draws _ _)).trans (State.setHid_draws _ _),
      (State.drawSubSamples_counters _ _).2⟩

theorem State.drawLocations_draws (s : State) : ∀ i, DrawKeeps s (s.drawLocations i)
  | 0 => .refl s
  | i + 1 => (State.drawLocations_draws s i).trans (State.drawLocation_draws _ _).1

theorem State.drawFrame_draws (s : State) : DrawKeeps s s.drawFrame := s.drawLocations_draws _

end Sys2Proof.Machine
end

section
/-! The steps of a run go through the loops of START in one piece: one lemma per loop, from the channels of a
sub-sample up to the pulls of the run. `atPlace` writes the model's record of where the run stands. -/

namespace Sys2Proof.Machine

/-- Some number of steps leads from `s` to `t`. -/
def Reaches (s t : State) : Prop := ∃ n, Host.Core.run core n s = .next t

theorem Reaches.refl (s : State) : Reaches s s := ⟨0, rfl⟩

theorem Reaches.head {s t u : State} (h : step s = .next t) (k : Reaches t u) : Reaches s u := by
  obtain ⟨n, hn⟩ := k
  exact ⟨n + 1, (run_of_step h n).trans hn⟩

theorem Reaches.single {s t : State} (h : step s = .next t) : Reaches s t := .head h (.refl t)

/-- What every step keeps, and holds at the start, holds of every state reached. -/
theorem Reaches.keeps {P : State → Prop} (hstep : ∀ {s t}, P s → step s = .next t → P t) {s t : State}
    (h : Reaches s t) (hs : P s) : P t := by
  obtain ⟨n, hn⟩ := h
  induction n generalizing s with
  | zero => cases hn; exact hs
  | succ n ih =>
    obtain ⟨u, hu, hr⟩ := run_succ_next hn
    exact ih (hstep hs hu) hr

theorem Reaches.trans {s t u : State} (h : Reaches s t) (k : Reaches t u) : Reaches s u := by
  obtain ⟨n, hn⟩ := h
  induction n generalizing s with
  | zero => cases hn; exact k
  | succ n ih =>
    obtain ⟨v, hv, hr⟩ := run_succ_next hn
    exact .head hv (ih hr)

theorem Reaches.inv {s t : State} (h : Reaches s t) (hs : Inv s) : Inv t :=
  h.keeps (P := Inv) (fun {s t} => stepKeepsInvariant s t) hs

/-! A step at each place of a run. -/

section Places
variable {s : State} (hr : s.runState = .running)
include hr

theorem step_pull {t : State} (hs : s.sch = .pull) (e : s.nextFrame = .next t) : step s = .next t.afterPull := by
  rw [step_of_running hr, State.runStep, hs, e]

theorem step_location (hs : s.sch = .location) : step s = .next s.startLocation := by
  rw [step_of_running hr, State.runStep, hs]

theorem step_subSample (hs : s.sch = .subSample) : step s = .next s.startSubSample := by
  rw [step_of_running hr, State.runStep, hs]

theorem step_channel {i : Instr} (hs : s.sch = .channels) (hm : s.muxCh < s.lat.nch.toNat)
    (hd : decodeChannel (Cells.get 0 s.lat.ch s.muxCh) = .ok i) : step s = exec i s := by
  rw [step_of_running hr, State.runStep, hs]
  simp only [hm, if_true, State.runChannel, hd]

theorem step_emission (hs : s.sch = .channels) (hm : s.lat.nch.toNat ≤ s.muxCh) :
    step s = .next s.finishSubSample := by
  rw [step_of_running hr, State.runStep, hs]
  simp only [Nat.not_lt.2 hm, if_false]

end Places

/-! The channels of a sub-sample (R222, R233). -/

/-- R230 to R233: the selector a code stands for writes the `Signal` of the code. -/
theorem exec_channel_signal {c : Byte} {i : Instr} (h : decodeChannel c = .ok i) (s : State) :
    exec i s = .next (s.putSample (signal s.params.outOverflow c s.wrk.pos s.location.colour)) := by
  have hc : isChannelCode c = true := by rw [isChannelCode, h]
  simp only [isChannelCode_iff, List.mem_cons, List.not_mem_nil, or_false] at hc
  rcases hc with rfl | rfl | rfl | rfl | rfl | rfl | rfl <;> cases h <;> rfl

theorem decodeChannel_of_isChannelCode {c : Byte} (h : isChannelCode c = true) : ∃ i, decodeChannel c = .ok i := by
  rw [isChannelCode] at h
  cases hd : decodeChannel c with
  | ok i => exact ⟨i, rfl⟩
  | error e => rw [hd] at h; cases h

/-- The channel registers that are read hold channel codes. -/
abbrev State.codesOk (s : State) : Prop := ∀ c < s.lat.nch.toNat, isChannelCode (Cells.get 0 s.lat.ch c) = true

theorem DrawKeeps.codesOk {s t : State} (h : DrawKeeps s t) (hc : s.codesOk) : t.codesOk := by
  rw [State.codesOk, h.lat]; exact hc

theorem DrawKeeps.running {s t : State} (h : DrawKeeps s t) (hr : s.runState = .running) : t.runState = .running :=
  h.run.trans hr

theorem State.finishSubSample_atPlace (s : State) (m : Nat) : (s.atPlace .channels m).finishSubSample =
    ((s.emitSampleFrames s.wrk.repN.toNat).atPlace .channels m).nextSubSample := by
  rw [State.finishSubSample_eq, State.emitSampleFrames_eq, State.emitSampleFrames_eq]
  rfl

section Loops
variable {s : State} (hr : s.runState = .running) (hcodes : s.codesOk)
include hr hcodes

theorem step_fillSample {c : Nat} (hc : c < s.lat.nch.toNat) :
    step (s.atPlace .channels c) = .next ((s.fillSample c).atPlace .channels (c + 1)) := by
  obtain ⟨i, hi⟩ := decodeChannel_of_isChannelCode (hcodes c hc)
  rw [step_channel (s := s.atPlace .channels c) hr rfl hc hi, exec_channel_signal hi]
  rfl

theorem reaches_fillSamples : ∀ c ≤ s.lat.nch.toNat,
    Reaches (s.atPlace .channels 0) ((s.fillSamples c).atPlace .channels c)
  | 0, _ => .refl _
  | c + 1, hc => by
    have hk := s.fillSamples_draws c
    have hlt : c < (s.fillSamples c).lat.nch.toNat := by rw [hk.lat]; exact hc
    exact (reaches_fillSamples c (by omega)).trans (.single (step_fillSample (hk.running hr) (hk.codesOk hcodes) hlt))

theorem reaches_drawSubSample (p m : Nat) : Reaches ((s.withSubP p).atPlace .subSample m)
    ((s.drawSubSample p).atPlace .channels s.lat.nch.toNat).nextSubSample := by
  have hp := s.placeSubSample_draws p
  have hf := hp.trans ((s.placeSubSample p).fillSamples_draws s.lat.nch.toNat)
  have place : step ((s.withSubP p).atPlace .subSample m) = .next ((s.placeSubSample p).atPlace .channels 0) :=
    step_subSample hr rfl
  have fill := reaches_fillSamples (hp.running hr) (hp.codesOk hcodes) s.lat.nch.toNat (Nat.le_refl _)
  have emit := step_emission (s := ((s.placeSubSample p).fillSamples s.lat.nch.toNat).atPlace .channels s.lat.nch.toNat)
    (hf.running hr) rfl (Nat.le_of_eq (congrArg (·.nch.toNat) hf.lat))
  rw [State.finishSubSample_atPlace] at emit
  exact (Reaches.head place fill).trans (.single emit)

end Loops

theorem State.nextSubSample_more {s : State} {p k : Nat} (hs : s.wrk.subP = BitVec.ofNat 32 p)
    (hk : s.wrk.locK.toNat = k) (h : p < k) (m : Nat) :
    (s.atPlace .channels m).nextSubSample = (s.withSubP (p + 1)).atPlace .subSample m := by
  have hlt := s.wrk.locK.isLt
  have hp : s.wrk.subP.toNat = p := by rw [hs, BitVec.toNat_ofNat, Nat.mod_eq_of_lt (by omega)]
  have hn : s.wrk.subP + 1 = BitVec.ofNat 32 (p + 1) := by rw [hs, BitVec.ofNat_add]; rfl
  rw [State.nextSubSample, if_pos (by show s.wrk.subP.toNat < s.wrk.locK.toNat; omega), State.withSubP, ← hn]
  rfl

theorem State.nextSubSample_last {s : State} {k : Nat} (hs : s.wrk.subP = BitVec.ofNat 32 k)
    (hk : s.wrk.locK.toNat = k) (m : Nat) :
    (s.atPlace .channels m).nextSubSample = (s.endLocation.atPlace .channels m).nextLocation := by
  have hlt := s.wrk.locK.isLt
  have hp : s.wrk.subP.toNat = k := by rw [hs, BitVec.toNat_ofNat, Nat.mod_eq_of_lt (by omega)]
  rw [State.nextSubSample, if_neg (by show ¬ s.wrk.subP.toNat < s.wrk.locK.toNat; omega)]
  rfl

/-! The sub-samples of a location (R221). -/

section Loops
variable {s : State} (hr : s.runState = .running) (hcodes : s.codesOk)
include hr hcodes

theorem reaches_drawSubSamples (m : Nat) : ∀ p < s.wrk.locK.toNat, ∃ m',
    Reaches ((s.withSubP 1).atPlace .subSample m) (((s.drawSubSamples p).withSubP (p + 1)).atPlace .subSample m')
  | 0, _ => ⟨m, .refl _⟩
  | p + 1, hp => by
    obtain ⟨m', ih⟩ := reaches_drawSubSamples m p (by omega)
    have hk := s.drawSubSamples_draws p
    have hnext := reaches_drawSubSample (hk.running hr) (hk.codesOk hcodes) (p + 1) m'
    rw [State.nextSubSample_more ((s.drawSubSamples p).drawSubSample_counters (p + 1)).1
      (by rw [((s.drawSubSamples p).drawSubSample_counters (p + 1)).2.1, (s.drawSubSamples_counters p).1]) hp] at hnext
    exact ⟨_, ih.trans hnext⟩

theorem reaches_endLocation (hk : s.wrk.locK ≠ 0) (m : Nat) : ∃ m', Reaches ((s.withSubP 1).atPlace .subSample m)
    (((s.drawSubSamples s.wrk.locK.toNat).endLocation).atPlace .channels m').nextLocation := by
  obtain ⟨p, hp⟩ : ∃ p, s.wrk.locK.toNat = p + 1 :=
    Nat.exists_eq_succ_of_ne_zero (BitVec.toNat_pos_of_ne_zero hk).ne'
  obtain ⟨m', hpre⟩ := reaches_drawSubSamples hr hcodes m p (by omega)
  have hd := s.drawSubSamples_draws p
  have hlast := reaches_drawSubSample (hd.running hr) (hd.codesOk hcodes) (p + 1) m'
  rw [State.nextSubSample_last ((s.drawSubSamples p).drawSubSample_counters (p + 1)).1
    (by rw [((s.drawSubSamples p).drawSubSample_counters (p + 1)).2.1, (s.drawSubSamples_counters p).1, hp])] at hlast
  rw [hp]
  exact ⟨_, hpre.trans hlast⟩

/-! The locations of a frame (R193). -/

theorem reaches_drawLocation (i m : Nat) : ∃ p m', Reaches ((s.withLocIdx i).atPlace .location m)
    ((s.drawLocation i).atPlace p m').nextLocation := by
  have hstep := step_location (s := (s.withLocIdx i).atPlace .location m) hr rfl
  by_cases hk : (s.withLocIdx i).allocLocation.wrk.locK = 0
  · have he : ((s.withLocIdx i).atPlace .location m).startLocation =
        ((s.withLocIdx i).allocLocation.atPlace .location m).nextLocation := if_pos hk
    rw [State.drawLocation_skip hk]
    exact ⟨_, _, .single (hstep.trans (congrArg _ he))⟩
  · have he : ((s.withLocIdx i).atPlace .location m).startLocation =
        ((s.withLocIdx i).allocLocation.beginLocation.withSubP 1).atPlace .subSample m := if_neg hk
    have hb : DrawKeeps s (s.withLocIdx i).allocLocation.beginLocation :=
      (s.allocLocation_draws i).trans (State.setWrk_draws _ _)
    obtain ⟨m', hend⟩ := reaches_endLocation (hb.running hr) (hb.codesOk hcodes) hk m
    rw [State.drawLocation_draw hk]
    exact ⟨_, m', .head (hstep.trans (congrArg _ he)) hend⟩

end Loops

theorem State.nextLocation_more {s : State} {i : Nat} (hi : s.wrk.locIdx = BitVec.ofNat 16 i)
    (h : i + 1 < s.fb.count.toNat) (p : SchPhase) (m : Nat) :
    (s.atPlace p m).nextLocation = (s.withLocIdx (i + 1)).atPlace .location m := by
  have hlt := s.fb.count.isLt
  have hn : s.wrk.locIdx.toNat = i := by rw [hi, BitVec.toNat_ofNat, Nat.mod_eq_of_lt (by omega)]
  have hs : s.wrk.locIdx + 1 = BitVec.ofNat 16 (i + 1) := by rw [hi, BitVec.ofNat_add]; rfl
  rw [State.nextLocation, if_pos (by show s.wrk.locIdx.toNat + 1 < s.fb.count.toNat; omega), State.withLocIdx, ← hs]
  rfl

theorem State.nextLocation_last {s : State} {i : Nat} (hi : s.wrk.locIdx = BitVec.ofNat 16 i)
    (h : s.fb.count.toNat = i + 1) (p : SchPhase) (m : Nat) : (s.atPlace p m).nextLocation = s.atPlace .pull m := by
  have hlt := s.fb.count.isLt
  have hn : s.wrk.locIdx.toNat = i := by rw [hi, BitVec.toNat_ofNat, Nat.mod_eq_of_lt (by omega)]
  rw [State.nextLocation, if_neg (by show ¬ s.wrk.locIdx.toNat + 1 < s.fb.count.toNat; omega)]
  rfl

section Loops
variable {s : State} (hr : s.runState = .running) (hcodes : s.codesOk)
include hr hcodes

theorem reaches_drawLocations (m : Nat) : ∀ i < s.fb.count.toNat, ∃ m',
    Reaches ((s.withLocIdx 0).atPlace .location m) (((s.drawLocations i).withLocIdx i).atPlace .location m')
  | 0, _ => ⟨m, .refl _⟩
  | i + 1, hi => by
    obtain ⟨m', ih⟩ := reaches_drawLocations m i (by omega)
    have hk := s.drawLocations_draws i
    obtain ⟨p, m'', hnext⟩ := reaches_drawLocation (hk.running hr) (hk.codesOk hcodes) i m'
    obtain ⟨hd, hidx⟩ := (s.drawLocations i).drawLocation_draws i
    rw [State.nextLocation_more hidx (by rw [hd.fb, hk.fb]; exact hi)] at hnext
    exact ⟨m'', ih.trans hnext⟩

theorem reaches_drawFrame (hc : s.fb.count ≠ 0) (hz : s.wrk.locIdx = 0) (m : Nat) : ∃ m',
    Reaches (s.atPlace .location m) (s.drawFrame.atPlace .pull m') := by
  obtain ⟨i, hi⟩ : ∃ i, s.fb.count.toNat = i + 1 :=
    Nat.exists_eq_succ_of_ne_zero (BitVec.toNat_pos_of_ne_zero hc).ne'
  obtain ⟨m', hpre⟩ := reaches_drawLocations hr hcodes m i (by omega)
  have hk := s.drawLocations_draws i
  obtain ⟨p, m'', hlast⟩ := reaches_drawLocation (hk.running hr) (hk.codesOk hcodes) i m'
  obtain ⟨hd, hidx⟩ := (s.drawLocations i).drawLocation_draws i
  rw [State.nextLocation_last hidx (by rw [hd.fb, hk.fb]; exact hi)] at hlast
  have hs : s.withLocIdx 0 = s := by
    show s.setWrk { s.wrk with locIdx := 0 } = s
    rw [← hz]; rfl
  rw [hs] at hpre
  rw [State.drawFrame, hi]
  exact ⟨m'', hpre.trans hlast⟩

end Loops

/-! The pulls of a run (R192). -/

section RunLoop
variable {s t : State} (n : Nat) (e : s.nextFrame = .next t)
include e

theorem State.runLoop_frame (h : t.dec.result = .frame) :
    State.runLoop (n + 1) s = State.runLoop n t.beginFrame.drawFrame := by
  simp only [State.runLoop, e, h]

theorem State.runLoop_palette (h : t.dec.result = .palette) : State.runLoop (n + 1) s = State.runLoop n t := by
  simp only [State.runLoop, e, h]

theorem State.runLoop_endOfStream (h : t.dec.result = .endOfStream) : State.runLoop (n + 1) s = t.endRun := by
  simp only [State.runLoop, e, h]

theorem State.runLoop_fault (h : t.dec.result = .fault) : State.runLoop (n + 1) s = t.setRunState .faulted := by
  simp only [State.runLoop, e, h]

end RunLoop

/-- A frame that was pulled is drawn whole, and the run then stands before its next pull. -/
theorem reaches_afterFrame {s : State} (hr : s.runState = .running) (m : Nat)
    (h : Inv (s.beginFrame.atPlace .location m)) : ∃ m', Reaches (s.beginFrame.atPlace .location m)
      (s.beginFrame.drawFrame.atPlace .pull m') := by
  have hlt : 0 < s.beginFrame.fb.count.toNat := (h.frame_of_location hr rfl).2
  have hc : s.beginFrame.fb.count ≠ 0 := fun hz => by rw [hz] at hlt; exact Nat.not_lt_zero _ hlt
  exact reaches_drawFrame (s := s.beginFrame) hr (h.config hr).codes hc rfl m

/-- From a state about to pull the steps reach the end of the run that the loop of R192 reaches, if the loop has a
turn for each byte left and one more. -/
theorem reaches_runLoop : ∀ (n : Nat) (s : State) (m : Nat), Inv (s.atPlace .pull m) → s.runState = .running →
    s.inp.len < s.dec.inPos + n → ∃ t, Reaches (s.atPlace .pull m) t ∧ t.runState ≠ .running ∧
      t.forgetPlace = (State.runLoop n s).forgetPlace
  | 0, s, m, h, _, hn => absurd h.decoder.cursor (Nat.not_le.2 hn)
  | n + 1, s, m, h, hr, hn => by
    obtain ⟨u, hu⟩ := nextFrame_answers_next s
    have hu' := nextFrame_atPlace s .pull m hu
    have hstep := step_pull (s := s.atPlace .pull m) hr rfl hu'
    have hinv := step_running_inv h hr hstep
    have hinp := (nextFrame_keeps s u hu).inp
    rcases nextFrame_of_run h hr hu' with ⟨res, -⟩ | ⟨res, -⟩ | ⟨hblock, run, took⟩
    · rw [State.afterPull_fault res] at hstep
      rw [State.runLoop_fault n hu res]
      exact ⟨_, .single hstep, nofun, rfl⟩
    · rw [State.afterPull_endOfStream res] at hstep
      rw [State.runLoop_endOfStream n hu res]
      exact ⟨_, .single hstep, nofun, rfl⟩
    · have htook : s.dec.inPos + 32 ≤ u.dec.inPos := took
      have hleft : u.inp.len < u.dec.inPos + n := by rw [hinp]; omega
      rcases hblock with res | res
      · have hbegin : (u.atPlace .pull m).afterPull = u.beginFrame.atPlace .location m := State.afterPull_frame res
        rw [hbegin] at hstep hinv
        obtain ⟨m', hframe⟩ := reaches_afterFrame (s := u) run m hinv
        have hk := u.beginFrame.drawFrame_draws
        obtain ⟨t, ht, hend, hplace⟩ := reaches_runLoop n u.beginFrame.drawFrame m' (hframe.inv hinv) (hk.running run)
          (by rw [hk.inp, hk.dec]; exact hleft)
        rw [State.runLoop_frame n hu res]
        exact ⟨t, .head hstep (hframe.trans ht), hend, hplace⟩
      · rw [State.afterPull_palette res] at hstep hinv
        obtain ⟨t, ht, hend, hplace⟩ := reaches_runLoop n u m hinv run hleft
        rw [State.runLoop_palette n hu res]
        exact ⟨t, .head hstep ht, hend, hplace⟩

/-- A run that START has begun is about to pull. -/
theorem State.startCmd_sch {s : State} (h : s.runState ≠ .running) (hr : s.startCmd.runState = .running) :
    s.startCmd.sch = .pull := by
  rcases s.startCmd_cases with ⟨-, e⟩ | ⟨-, -, ⟨-, e⟩ | ⟨-, ⟨c, -, -, -, e⟩ | ⟨-, ⟨-, e⟩ | ⟨-, e⟩⟩⟩⟩ <;> rw [e] at hr ⊢
  · exact absurd hr h
  · rw [State.raise_runState, if_pos (.inr rfl)] at hr; cases hr
  · rw [State.raise_runState, if_pos (.inr rfl)] at hr; cases hr
  · rw [State.raise_runState, if_pos (.inr rfl)] at hr; cases hr
  · simp

/-- Settles O52: a START that is refused or fails ends in one step, and one that begins a run ends where its loop of
pulls ends. -/
theorem stepsReachAtomicStart : Obligations.StepsReachAtomicStart := by
  intro s rest h hi hc
  have hidle : s.runState ≠ .running := by rw [hi]; decide
  have hstep := step_of_command hidle hc
  have hinv := step_idle_inv h hidle hstep
  suffices hs : ∃ t, Reaches s t ∧ t.runState ≠ .running ∧
      t.forgetPlace = (State.startAtomic (s.setHost rest)).forgetPlace by
    obtain ⟨t, ⟨n, hn⟩, hend, hplace⟩ := hs
    exact ⟨n, t, hn, hend, hplace⟩
  generalize hu : (s.setHost rest).startCmd = u at hinv
  by_cases hr : u.runState = .running
  · have hat : u = u.atPlace .pull u.muxCh := by
      have := (s.setHost rest).startCmd_sch hidle (by rw [hu]; exact hr)
      rw [hu] at this
      rw [State.atPlace, ← this]
    have hat' : State.startAtomic (s.setHost rest) = State.runLoop (u.inp.len + 1) u := by
      rw [State.startAtomic, hu]
      exact if_pos ⟨hidle, hr⟩
    obtain ⟨t, ht, hend, hplace⟩ := reaches_runLoop (u.inp.len + 1) u u.muxCh (hat ▸ hinv) hr (by omega)
    rw [← hat] at ht
    exact ⟨t, .head (hu ▸ hstep) ht, hend, by rw [hat']; exact hplace⟩
  · have hat' : State.startAtomic (s.setHost rest) = u := by
      rw [State.startAtomic, hu]
      exact if_neg fun hc => hr hc.2
    exact ⟨u, .single (hu ▸ hstep), hr, by rw [hat']⟩

end Sys2Proof.Machine
end

section
/-! A body record by record (R160): what holds after `j` of its records, where the loop ends, and what a stream that
ends too early leaves behind (R62, R290). -/

namespace Sys2Proof.Machine

/-- The state after a read that the stream is too short for (R62), as `srcRead_short` gives it. -/
abbrev State.shortRead (s : State) (stage : ErrStage) (info : Byte) : State :=
  (s.setInPos s.inp.len).raise .unexpectedEof stage info s.dec.inPos false

/-- Fault entry for a decoder error outside the checks of START, as one record update (R290). -/
theorem State.raise_ofDecoder (s : State) {code : ErrCode} (h : code.ofDecoder = true) (stage : ErrStage) (info : Byte)
    (pos : Nat) :
    s.raise code stage info pos false = { s with
      dec := { s.dec with state := .faulted, result := .fault }
      err := s.errAfter code stage info pos
      runState := s.runStateAfterError } := by
  simp only [State.raise, h, if_true, Bool.false_eq_true, or_false, State.runStateAfterError]
  split <;> rfl

/-- The body loop with the number of records read: `P j` is what holds after `j` of them. -/
theorem bodyLoop_counts {size : Nat} {f : Byte} {store : State → List Byte → State} :
    ∀ (n : Nat) (P : Nat → State → Prop) (s : State),
      (∀ j < n, ∀ u bs, P j u → u.inp.readBytes u.dec.inPos size = some bs →
        P (j + 1) ((store (u.setInPos (u.dec.inPos + size)) bs).setRecIdx (u.dec.recIdx + 1))) →
      P 0 s →
      (∃ t, bodyLoop size f store n s = .ok t ∧ P n t) ∨
      (∃ j < n, ∃ u, P j u ∧ u.inp.len < u.dec.inPos + size ∧
        bodyLoop size f store n s = .error (u.shortRead .body f))
  | 0, _, s, _, h => .inl ⟨s, rfl, h⟩
  | n + 1, P, s, hstep, h => by
    rcases s.srcRead_cases size .body f with ⟨bs, -, hr, he⟩ | ⟨hlt, he⟩
    · rcases bodyLoop_counts n (fun j => P (j + 1)) _ (fun j hj => hstep (j + 1) (by omega))
        (hstep 0 (by omega) s bs h hr) with ⟨t, ht, hp⟩ | ⟨j, hj, u, hp, hu, ht⟩
      · exact .inl ⟨t, by rw [bodyLoop, he]; exact ht, hp⟩
      · exact .inr ⟨j + 1, by omega, u, hp, hu, by rw [bodyLoop, he]; exact ht⟩
    · exact .inr ⟨0, by omega, s, h, hlt, by rw [bodyLoop, he]⟩

/-- What storing a record leaves alone: everything but the palette table and the frame buffer. -/
structure RecordKeeps (s t : State) : Prop extends BlockKeeps s t where
  dec : t.dec = s.dec
  err : t.err = s.err
  runState : t.runState = s.runState
  freeCtr : t.freeCtr = s.freeCtr

theorem storePointRecord_keeps (k : PointKind) (src : Byte) (s : State) (bs : List Byte) :
    RecordKeeps s (storePointRecord k src s bs) := by
  refine ⟨?_, ?_, ?_, ?_, ?_⟩
  · constructor <;> simp [storePointRecord]
  all_goals simp [storePointRecord]

theorem storePalRecord_keeps (src : Byte) (s : State) (bs : List Byte) :
    RecordKeeps s (storePalRecord src s bs) := by
  refine ⟨?_, ?_, ?_, ?_, ?_⟩
  · constructor <;> simp [storePalRecord]
  all_goals simp [storePalRecord]

/-- `u` is what a body that began in `s` has come to after `j` records of `size` bytes, but for its tables. -/
structure BodyRead (size : Nat) (s : State) (j : Nat) (u : State) : Prop where
  keeps : BlockKeeps s u
  err : u.err = s.err
  runState : u.runState = s.runState
  freeCtr : u.freeCtr = s.freeCtr
  inPos : u.dec.inPos = s.dec.inPos + j * size
  inside : u.dec.inPos ≤ u.inp.len
  recIdx : u.dec.recIdx = BitVec.ofNat 16 j

theorem BodyRead.begin {s : State} (hle : s.dec.inPos ≤ s.inp.len) (size : Nat) (f : Byte) (h : Header) :
    BodyRead size s 0 (s.enterBody f h) :=
  ⟨by constructor <;> rfl, rfl, rfl, rfl, by simp [State.enterBody], hle, rfl⟩

theorem BodyRead.setFb {size j : Nat} {s u : State} (h : BodyRead size s j u) (fb : FrameBuffer) :
    BodyRead size s j (u.setFb fb) :=
  ⟨h.keeps.trans (by constructor <;> rfl), h.err, h.runState, h.freeCtr, h.inPos, h.inside, h.recIdx⟩

/-- The next record is read, stored and counted. -/
theorem BodyRead.next {size j : Nat} {s u v : State} {bs : List Byte} (h : BodyRead size s j u)
    (hr : u.inp.readBytes u.dec.inPos size = some bs) (hv : RecordKeeps (u.setInPos (u.dec.inPos + size)) v) :
    BodyRead size s (j + 1) (v.setRecIdx (u.dec.recIdx + 1)) := by
  have hkeeps : BlockKeeps s v := (h.keeps.trans (u.setInPos_keeps _)).trans hv.toBlockKeeps
  have hpos : v.dec.inPos = u.dec.inPos + size := by rw [hv.dec]; rfl
  have hin : v.inp = u.inp := hv.inp
  refine ⟨hkeeps.trans (by constructor <;> rfl), hv.err.trans h.err, hv.runState.trans h.runState,
    hv.freeCtr.trans h.freeCtr, ?_, ?_, ?_⟩
  · rw [(v.setRecIdx_fields _).2.1, hpos, h.inPos, Nat.succ_mul, Nat.add_assoc]
  · simpa [hpos, hin] using ((Memory.readBytes_eq_some _ _ _ _).1 hr).1
  · simp [h.recIdx, BitVec.ofNat_add]

/-- The index register holds the number of records read, which a count of 16 bits bounds. -/
theorem BodyRead.recIdx_toNat {size j : Nat} {s u : State} (h : BodyRead size s j u) (hj : j < 65536) :
    u.dec.recIdx.toNat = j := by
  rw [h.recIdx, BitVec.toNat_ofNat]
  omega

/-- With the whole body in the stream no record is missing. -/
theorem BodyRead.whole {size count j : Nat} {s u : State} (h : BodyRead size s j u) (hj : j < count)
    (hs : s.dec.inPos + count * size ≤ s.inp.len) : u.dec.inPos + size ≤ u.inp.len := by
  have hm : (j + 1) * size ≤ count * size := Nat.mul_le_mul_right size hj
  rw [h.inPos, h.keeps.inp]
  rw [Nat.succ_mul] at hm
  omega

/-- A body that was read to its end was in the stream. -/
theorem BodyRead.ends_inside {size count : Nat} {s u : State} (h : BodyRead size s count u) :
    s.dec.inPos + count * size ≤ s.inp.len := by
  rw [← h.inPos, ← h.keeps.inp]
  exact h.inside

theorem BlockKeeps.blockFrame {s t : State} (h : BlockKeeps s t) : BlockFrame s t :=
  ⟨h.params, h.cfg, h.lat, h.hid, h.wrk, by rw [h.inp], fun a => by rw [h.inp], by rw [h.sink],
    fun a => by rw [h.sink], h.sinkSeekable, h.sch, h.muxCh, h.host⟩

/-- A record that is not whole cuts the block: the error names its first byte (R62, R281). -/
theorem BodyRead.cut {size count j : Nat} {s u t : State} {f : Byte} (h : BodyRead size s j u) (hj : j < count)
    (hlt : u.inp.len < u.dec.inPos + size) (dec : t.dec = (u.shortRead .body f).dec)
    (err : t.err = (u.shortRead .body f).err) (run : t.runState = (u.shortRead .body f).runState) :
    BlockCut s t size count f := by
  rw [State.shortRead, State.raise_ofDecoder _ rfl] at dec err run
  have hpos := h.inPos
  have hin := h.inside
  rw [h.keeps.inp] at hlt hin
  refine ⟨by rw [dec], by rw [dec], by rw [dec]; exact congrArg Memory.len h.keeps.inp,
    ⟨j, hj, by omega, by rw [Nat.succ_mul]; omega, ?_⟩, ?_⟩
  · rw [err, ← hpos, State.errAfter, State.errAfter, ← h.err]; rfl
  · rw [run, State.runStateAfterError, State.runStateAfterError, ← h.runState]; rfl

/-- A block of points record by record: it is read to its end, or cut at record `j`. -/
theorem pointBlock_reads (k : PointKind) (h : Header) {s : State} (hle : s.dec.inPos ≤ s.inp.len) :
    (∃ u, BodyRead (k.recSize s.params.fmt1Layout) s h.count.toNat u ∧ pointBlock k h s = u.leaveBody .frame) ∨
    (∃ j < h.count.toNat, ∃ u, BodyRead (k.recSize s.params.fmt1Layout) s j u ∧ u.pal = s.pal ∧
      u.inp.len < u.dec.inPos + k.recSize s.params.fmt1Layout ∧
      pointBlock k h s = (u.shortRead .body k.format).freeFrame) := by
  let size := k.recSize s.params.fmt1Layout
  let start := (s.enterBody k.format h).setFb { (s.enterBody k.format h).fb with srcid := h.srcid, count := h.count }
  have hb : pointBlock k h s = match bodyLoop size k.format (storePointRecord k h.srcid) h.count.toNat start with
    | .ok t => t.leaveBody .frame
    | .error t => t.freeFrame := rfl
  rcases bodyLoop_counts (f := k.format) (store := storePointRecord k h.srcid) h.count.toNat
    (fun j u => BodyRead size s j u ∧ u.pal = s.pal) start
    (fun j _ u bs hu hr => ⟨hu.1.next hr (storePointRecord_keeps _ _ _ _), hu.2⟩)
    ⟨(BodyRead.begin hle _ _ _).setFb _, rfl⟩
    with ⟨t, ht, hp, -⟩ | ⟨j, hj, u, ⟨hp, hpal⟩, hlt, ht⟩ <;> rw [ht] at hb
  · exact .inl ⟨t, hp, hb⟩
  · exact .inr ⟨j, hj, u, hp, hpal, hlt, hb⟩

end Sys2Proof.Machine
end

section
/-! A palette load record by record (R166): the entries it has written, and what it leaves of the other sources. -/

namespace Sys2Proof.Machine

/-- The two tables hold the same palette for source `k` (R26). -/
abbrev PaletteTable.SameAt (p q : PaletteTable) (k : Nat) : Prop :=
  Cells.get false p.valid k = Cells.get false q.valid k ∧ Cells.get 0 p.len k = Cells.get 0 q.len k ∧
    ∀ i < 256, Cells.get Rgb.black p.ram (256 * k + i) = Cells.get Rgb.black q.ram (256 * k + i)

theorem PaletteTable.SameAt.trans {p q r : PaletteTable} {k : Nat} (h : p.SameAt q k) (g : q.SameAt r k) :
    p.SameAt r k :=
  ⟨h.1.trans g.1, h.2.1.trans g.2.1, fun i hi => (h.2.2 i hi).trans (g.2.2 i hi)⟩

/-- `Resolve` reads the palette of its source alone (R28). -/
theorem PaletteTable.SameAt.resolve {p q : PaletteTable} {src : Byte} (h : p.SameAt q src.toNat) (idx : Byte) :
    p.resolve src idx = q.resolve src idx := by
  obtain ⟨hvalid, hlen, hram⟩ := h
  rw [PaletteTable.resolve, PaletteTable.resolve, hvalid, hlen, hram idx.toNat idx.isLt]

theorem PaletteTable.resolve_entry {p : PaletteTable} {src idx : Byte} (hv : Cells.get false p.valid src.toNat = true)
    (hi : idx.toNat < (Cells.get 0 p.len src.toNat).toNat) :
    p.resolve src idx = Cells.get Rgb.black p.ram (256 * src.toNat + idx.toNat) := by
  rw [PaletteTable.resolve, if_pos hv, if_neg (Nat.not_le.2 hi)]

theorem PaletteTable.resolve_pastEnd {p : PaletteTable} {src idx : Byte}
    (hv : Cells.get false p.valid src.toNat = true) (hi : (Cells.get 0 p.len src.toNat).toNat ≤ idx.toNat) :
    p.resolve src idx = Rgb.black := by
  rw [PaletteTable.resolve, if_pos hv, if_pos hi]

/-- A palette record goes to the entry `REC_IDX` of its source, or nowhere from 256 on (R166). -/
theorem State.get_palStore (s : State) (src : Byte) (c : Rgb) (k : Nat) :
    Cells.get Rgb.black (s.palStore src c).pal.ram k =
      if s.dec.recIdx.toNat < 256 ∧ 256 * src.toNat + s.dec.recIdx.toNat = k then c
      else Cells.get Rgb.black s.pal.ram k := by
  unfold State.palStore
  by_cases hlt : s.dec.recIdx.toNat < Config.palMax
  · rw [if_pos hlt, State.setPal, Cells.get_set]
    exact if_congr (iff_and_self.2 fun _ => hlt) rfl rfl
  · rw [if_neg hlt, if_neg fun hk => hlt hk.1]

/-- `PalCommit` makes the palette of its source valid, with `min(count, 256)` entries (R166). -/
theorem State.palCommit_loaded (s : State) (src : Byte) (count : BitVec 16) :
    Cells.get false (s.palCommit src count).pal.valid src.toNat = true ∧
    (Cells.get 0 (s.palCommit src count).pal.len src.toNat).toNat = min count.toNat 256 := by
  simp only [State.palCommit, State.setPal_fields, Cells.get_set_same, BitVec.toNat_ofNat, Config.palMax, true_and]
  omega

theorem State.palCommit_sameAt (s : State) {src : Byte} {k : Nat} (hk : k ≠ src.toNat) (count : BitVec 16) :
    (s.palCommit src count).pal.SameAt s.pal k :=
  ⟨Cells.get_set_other false s.pal.valid true hk.symm, Cells.get_set_other 0 s.pal.len _ hk.symm, fun _ _ => rfl⟩

/-- U2 frees the palette of one source alone. -/
theorem State.freePalette_sameAt (s : State) {src : Byte} {k : Nat} (hk : k ≠ src.toNat) :
    (s.freePalette src).pal.SameAt s.pal k :=
  ⟨Cells.get_set_other false s.pal.valid _ hk.symm, Cells.get_set_other 0 s.pal.len _ hk.symm,
    fun i hi => PaletteTable.get_freeRam _ _ _ _ _ (by rw [Config.palMax]; omega)⟩

/-- `u` is what a palette load for source `src` that began in `s` has come to after `j` records. -/
structure PaletteRead (src : Byte) (s : State) (j : Nat) (u : State) : Prop extends BodyRead palRecSize s j u where
  fb : u.fb = s.fb
  valid : u.pal.valid = s.pal.valid
  len : u.pal.len = s.pal.len
  entries : ∀ i < min j 256, ∀ rec, s.inp.readBytes (s.dec.inPos + i * palRecSize) palRecSize = some rec →
    Cells.get Rgb.black u.pal.ram (256 * src.toNat + i) = decodePalRecord rec
  others : ∀ k, k < 256 * src.toNat ∨ 256 * src.toNat + 256 ≤ k →
    Cells.get Rgb.black u.pal.ram k = Cells.get Rgb.black s.pal.ram k

theorem PaletteRead.next {src : Byte} {j : Nat} {s u : State} {bs : List Byte} (h : PaletteRead src s j u)
    (hj : j < 65536) (hr : u.inp.readBytes u.dec.inPos palRecSize = some bs) :
    PaletteRead src s (j + 1)
      ((storePalRecord src (u.setInPos (u.dec.inPos + palRecSize)) bs).setRecIdx (u.dec.recIdx + 1)) := by
  have hk := storePalRecord_keeps src (u.setInPos (u.dec.inPos + palRecSize)) bs
  have hget : ∀ k, Cells.get Rgb.black
      (storePalRecord src (u.setInPos (u.dec.inPos + palRecSize)) bs).pal.ram k =
      if j < 256 ∧ 256 * src.toNat + j = k then decodePalRecord bs else Cells.get Rgb.black u.pal.ram k := by
    intro k
    rw [storePalRecord, State.get_palStore]
    simp only [State.setInPos_fields, h.recIdx_toNat hj]
  refine ⟨h.toBodyRead.next hr hk, ?_, ?_, ?_, ?_, ?_⟩
  · simpa [storePalRecord] using h.fb
  · simpa [storePalRecord] using h.valid
  · simpa [storePalRecord] using h.len
  · intro i hi rec hrec
    simp only [State.setRecIdx_fields, hget]
    by_cases hij : i = j
    · subst hij
      rw [← h.keeps.inp, ← h.inPos] at hrec
      rw [if_pos ⟨by omega, rfl⟩, Option.some.inj (hr.symm.trans hrec)]
    · rw [if_neg (by omega)]
      exact h.entries i (by omega) rec hrec
  · intro k hout
    simp only [State.setRecIdx_fields, hget]
    rw [if_neg (by omega)]
    exact h.others k hout

/-- A load that has not been committed leaves the palettes of the other sources. -/
theorem PaletteRead.sameAt {src : Byte} {j : Nat} {s u : State} (h : PaletteRead src s j u) {k : Nat}
    (hk : k ≠ src.toNat) : u.pal.SameAt s.pal k :=
  ⟨by rw [h.valid], by rw [h.len], fun i hi => h.others _ (by omega)⟩

/-- A palette load record by record: it is read to its end and committed, or cut at record `j`. -/
theorem palBlock_reads (h : Header) {s : State} (hle : s.dec.inPos ≤ s.inp.len) :
    (∃ u, PaletteRead h.srcid s h.count.toNat u ∧
      palBlock h s = (u.palCommit h.srcid h.count).leaveBody .palette) ∨
    (∃ j < h.count.toNat, ∃ u, PaletteRead h.srcid s j u ∧ u.inp.len < u.dec.inPos + palRecSize ∧
      palBlock h s = (u.shortRead .body 2).freePalette h.srcid) := by
  have hb : palBlock h s = match bodyLoop palRecSize 2 (storePalRecord h.srcid) h.count.toNat (s.enterBody 2 h) with
    | .ok t => (t.palCommit h.srcid h.count).leaveBody .palette
    | .error t => t.freePalette h.srcid := rfl
  have hstart : PaletteRead h.srcid s 0 (s.enterBody 2 h) :=
    ⟨.begin hle _ _ _, rfl, rfl, rfl, fun i hi => by omega, fun _ _ => rfl⟩
  have hmax := h.count.isLt
  rcases bodyLoop_counts (f := 2) (store := storePalRecord h.srcid) h.count.toNat (PaletteRead h.srcid s)
    (s.enterBody 2 h) (fun j hj u bs hu hr => hu.next (by omega) hr) hstart
    with ⟨t, ht, hp⟩ | ⟨j, hj, u, hp, hlt, ht⟩ <;> rw [ht] at hb
  · exact .inl ⟨t, hp, hb⟩
  · exact .inr ⟨j, hj, u, hp, hlt, hb⟩

/-- With all its records in the stream a palette load is read to its end. -/
theorem palBlock_complete (h : Header) {s : State} (hs : s.dec.inPos + h.count.toNat * 3 ≤ s.inp.len) :
    ∃ u, PaletteRead h.srcid s h.count.toNat u ∧
      palBlock h s = (u.palCommit h.srcid h.count).leaveBody .palette := by
  rcases palBlock_reads h (Nat.le_trans (Nat.le_add_right _ _) hs) with hu | ⟨j, hj, u, hu, hlt, -⟩
  · exact hu
  · exact absurd (hu.whole hj hs) (Nat.not_le.2 hlt)

/-- Settles O24: the lookup goes to the committed palette, whose entry below the count is its own record. -/
theorem paletteLoadIsSeenByLaterLookups : Obligations.PaletteLoadIsSeenByLaterLookups := by
  intro h s t _ hs ht
  obtain ⟨u, hu, he⟩ := palBlock_complete h hs
  have hpal : t.pal = (u.palCommit h.srcid h.count).pal := by
    cases ht
    rw [he]
    rfl
  obtain ⟨hvalid, hlen⟩ := u.palCommit_loaded h.srcid h.count
  rw [hpal]
  refine ⟨fun idx hi rec hrec => ?_, fun idx hi => ?_, fun src idx hsrc => ?_⟩
  · have hlt : idx.toNat < min h.count.toNat 256 := lt_min hi idx.isLt
    rw [PaletteTable.resolve_entry hvalid (by rwa [hlen])]
    exact hu.entries idx.toNat hlt rec hrec
  · exact PaletteTable.resolve_pastEnd hvalid (by omega)
  · have hne : src.toNat ≠ h.srcid.toNat := fun hn => hsrc (BitVec.eq_of_toNat_eq hn)
    exact ((u.palCommit_sameAt hne h.count).trans (hu.sameAt hne)).resolve idx

end Sys2Proof.Machine
end

section
/-! Proofs of the statements on a stream that ends too early: inside a body, and at a header. -/

namespace Sys2Proof.Machine

theorem pointBlock_short (k : PointKind) (h : Header) {s : State} (hle : s.dec.inPos ≤ s.inp.len)
    (hs : s.inp.len < s.dec.inPos + h.count.toNat * k.recSize s.params.fmt1Layout) :
    BlockCut s (pointBlock k h s) (k.recSize s.params.fmt1Layout) h.count.toNat k.format ∧
      (pointBlock k h s).pal = s.pal := by
  rcases pointBlock_reads k h hle with ⟨u, hu, -⟩ | ⟨j, hj, u, hu, hpal, hlt, he⟩
  · exact absurd hu.ends_inside (Nat.not_le.2 hs)
  · rw [he]
    exact ⟨hu.cut hj hlt rfl rfl rfl, by simpa using hpal⟩

theorem palBlock_short (h : Header) {s : State} (hle : s.dec.inPos ≤ s.inp.len)
    (hs : s.inp.len < s.dec.inPos + h.count.toNat * 3) :
    BlockCut s (palBlock h s) 3 h.count.toNat 2 ∧ (palBlock h s).fb = s.fb ∧
      ∀ k, k ≠ h.srcid.toNat → (palBlock h s).pal.SameAt s.pal k := by
  rcases palBlock_reads h hle with ⟨u, hu, -⟩ | ⟨j, hj, u, hu, hlt, he⟩
  · exact absurd hu.ends_inside (Nat.not_le.2 hs)
  · rw [he]
    have hpal : (u.shortRead .body 2).pal = u.pal := by simp
    refine ⟨hu.cut hj hlt rfl rfl rfl, by simpa using hu.fb, fun k hk => ?_⟩
    exact (State.freePalette_sameAt _ hk).trans (hpal ▸ hu.sameAt hk)

/-- Settles O25: the loop stops at the first record that is not whole, and the fault entry there is what the block
answers, but for what U2 and U3 free. -/
theorem shortBodyFaults : Obligations.ShortBodyFaults := by
  intro h s hle
  refine ⟨fun k hs => ?_, fun hs => ?_⟩
  · obtain ⟨hcut, hpal⟩ := pointBlock_short k h hle hs
    exact ⟨pointBlock k h s, by cases k <;> rfl, hcut, (pointBlock_keeps k h s).blockFrame, hpal⟩
  · obtain ⟨hcut, hfb, hothers⟩ := palBlock_short h hle hs
    exact ⟨palBlock h s, rfl, hcut, (palBlock_keeps h s).blockFrame, hfb, hothers⟩

/-- A pull that finds fewer than 32 bytes is a short read of a header (R132). -/
theorem nextFrame_shortHeader {s : State} (ha : s.awaits) (hs : s.inp.len < s.dec.inPos + 32) :
    s.nextFrame = .next (s.shortRead .header 0) := by
  rw [State.nextFrame, if_neg (by rw [ha]; decide), if_neg (by rw [ha]; decide), State.pullBlock,
    s.srcRead_short Config.hdrSize _ _ hs]

/-- The PULL that an idle block accepts is `nextFrame` (R47). -/
theorem step_hostPull {s : State} {rest : List HostCmd} (hi : s.runState = .idle) (hh : s.host = .pull :: rest) :
    step s = (s.setHost rest).nextFrame := by
  rw [step_of_command (by rw [hi]; decide) hh]
  exact if_pos hi

/-- Settles O15: the pull is the short read of the header, and a fault ends a run in `FAULTED`. -/
theorem shortHeaderFaults : Obligations.ShortHeaderFaults := by
  intro s ha hs after
  have hpull : s.nextFrame = .next (after s.runStateAfterError) := by
    rw [nextFrame_shortHeader ha hs, State.shortRead, State.raise_ofDecoder _ rfl]
    rfl
  refine ⟨hpull, fun rest hi hh => ?_, fun hr hsch => ?_⟩
  · have hidle : (s.setHost rest).runStateAfterError = .idle := by
      rw [State.runStateAfterError, (s.setHost_fields rest).2.2.2.2.2.2.1, hi]; rfl
    rw [step_hostPull hi hh, nextFrame_shortHeader (s := s.setHost rest) ha hs, State.shortRead,
      State.raise_ofDecoder _ rfl, ← hidle]
    rfl
  · rw [step_pull hr hsch hpull, State.afterPull_fault rfl]
    rfl

end Sys2Proof.Machine
end

section
/-! The encoding as two inverse maps (R9, R91): joined bytes and the bytes of a number, the fields of a header and
its 32 bytes. -/

namespace Sys2Proof

@[simp] theorem byteOf_byte (b : Byte) : byteOf b 0 = b := by simp [byteOf]

@[simp] theorem byteOf_append_zero {w : Nat} (x : BitVec w) (b : Byte) : byteOf (x ++ b) 0 = b := by
  apply BitVec.eq_of_getLsbD_eq
  intro j hj
  rw [byteOf_getLsbD, BitVec.getLsbD_append, if_pos (by omega), decide_eq_true hj, Bool.true_and,
    Nat.mul_zero, Nat.zero_add]

@[simp] theorem byteOf_append_succ {w : Nat} (x : BitVec w) (b : Byte) (i : Nat) :
    byteOf (x ++ b) (i + 1) = byteOf x i := by
  apply BitVec.eq_of_getLsbD_eq
  intro j hj
  rw [byteOf_getLsbD, byteOf_getLsbD, BitVec.getLsbD_append, if_neg (by omega),
    show 8 * (i + 1) + j - 8 = 8 * i + j by omega]

theorem byteOf_and {w : Nat} (u v : BitVec w) (i : Nat) : byteOf (u &&& v) i = byteOf u i &&& byteOf v i :=
  BitVec.extractLsb'_and

/-- Words of whole bytes are equal when their bytes are. -/
theorem eq_iff_byteOf_eq (n : Nat) {u v : BitVec (8 * n)} : u = v ↔ ∀ i < n, byteOf u i = byteOf v i := by
  refine ⟨fun h _ _ => by rw [h], fun h => BitVec.eq_of_getLsbD_eq fun j hj => ?_⟩
  have hb := congrArg (·.getLsbD (j % 8)) (h (j / 8) (by omega))
  simpa only [byteOf_getLsbD, Nat.mod_lt j (show 8 > 0 by decide), decide_true, Bool.true_and,
    Nat.div_add_mod] using hb

theorem join3_split (v : BitVec 24) : join3 (byteOf v 2) (byteOf v 1) (byteOf v 0) = v :=
  (eq_iff_byteOf_eq 3).2 fun i hi => by interval_cases i <;> simp [join3]

theorem join4_split (v : BitVec 32) : join4 (byteOf v 3) (byteOf v 2) (byteOf v 1) (byteOf v 0) = v :=
  (eq_iff_byteOf_eq 4).2 fun i hi => by interval_cases i <;> simp [join4]

theorem join8_split (v : BitVec 64) : join8 (byteOf v 7) (byteOf v 6) (byteOf v 5) (byteOf v 4) (byteOf v 3)
    (byteOf v 2) (byteOf v 1) (byteOf v 0) = v :=
  (eq_iff_byteOf_eq 8).2 fun i hi => by interval_cases i <;> simp [join8]

theorem split2_join (a b : Byte) : split2 (u16be a b) = [a, b] := by simp [split2, u16be]

theorem split3_join (a b c : Byte) : split3 (join3 a b c) = [a, b, c] := by simp [split3, join3]

theorem split4_join (a b c d : Byte) : split4 (join4 a b c d) = [a, b, c, d] := by simp [split4, join4]

theorem split8_join (a b c d e f g h : Byte) : split8 (join8 a b c d e f g h) = [a, b, c, d, e, f, g, h] := by
  simp [split8, join8]

theorem split4_inj {u v : BitVec 32} : split4 u = split4 v ↔ u = v := by
  refine ⟨fun h => ?_, congrArg split4⟩
  simp only [split4, List.cons.injEq] at h
  rw [← join4_split u, ← join4_split v]
  simp only [h]

theorem split8_inj {u v : BitVec 64} : split8 u = split8 v ↔ u = v := by
  refine ⟨fun h => ?_, congrArg split8⟩
  simp only [split8, List.cons.injEq] at h
  rw [← join8_split u, ← join8_split v]
  simp only [h]

theorem split8_and (u v : BitVec 64) : split8 (u &&& v) = List.zipWith (· &&& ·) (split8 u) (split8 v) := by
  simp [split8, byteOf_and]

/-- Header bytes 0 to 3 (R91). -/
def headerTag (bs : List Byte) : BitVec 32 := join4 (bs.getD 0 0) (bs.getD 1 0) (bs.getD 2 0) (bs.getD 3 0)

/-- The magic tag is bytes 0 to 3 (R91). -/
theorem headerTag_encodeHeader (p : Params) (f : Byte) (h : Header) :
    headerTag (encodeHeader p f h) = p.magic :=
  join4_split p.magic

/-- The format code is byte 7 (R91). -/
theorem format_encodeHeader (p : Params) (f : Byte) (h : Header) : (encodeHeader p f h).getD 7 0 = f := rfl

/-- Every field stands at its offset (R91). -/
theorem headerFields_encodeHeader (p : Params) (f : Byte) (h : Header) :
    headerFields (encodeHeader p f h) = h := by
  obtain ⟨reservedA, name, company, count, frameIndex, totalFrames, srcid, reservedB⟩ := h
  exact (Header.mk.injEq ..).mpr ⟨join3_split _, join8_split _, join8_split _, join2_split _, join2_split _,
    join2_split _, rfl, rfl⟩

/-- The fields of 32 bytes are all their bits (R91). -/
theorem encodeHeader_headerFields (p : Params) {bs : List Byte} (hlen : bs.length = 32)
    (htag : headerTag bs = p.magic) : encodeHeader p (bs.getD 7 0) (headerFields bs) = bs := by
  rw [encodeHeader, ← htag, headerTag, headerFields]
  simp only [split2_join, split3_join, split4_join, split8_join]
  have hbs : (List.range bs.length).map (bs.getD · 0) = bs :=
    List.ext_getElem (by simp) fun i hi hi' => by simp [hi']
  rw [hlen] at hbs
  exact hbs

end Sys2Proof
end

section
/-! Proofs of the statements on the decoder: what 32 bytes decode to (R95, R96), its inverse, and the masks of the
opcode table. -/

namespace Sys2Proof

/-- The format code and the fields of the header that encodes a block instruction (R95). -/
def Instr.headerOf : Instr → Option (Byte × Header)
  | .endBlock f h => some (f, h)
  | .idx3d h => some (0, h)
  | .idx2d h => some (1, h)
  | .pal h => some (2, h)
  | .tc3d h => some (4, h)
  | .tc2d h => some (5, h)
  | .illegal f h => some (f, h)
  | .sigX => none
  | .sigY => none
  | .sigZ => none
  | .sigL => none
  | .sigR => none
  | .sigG => none
  | .sigB => none

theorem encode_of_headerOf {i : Instr} {f : Byte} {h : Header} (hi : i.headerOf = some (f, h)) (p : Params) :
    encode p i = encodeHeader p f h := by
  cases i <;> cases hi <;> rfl

/-- The opcode map inverts `headerOf` on well-formed instructions, and answers no others (R95, R96). -/
theorem selectBlock_eq_iff {f : Byte} {h : Header} {i : Instr} :
    selectBlock f h = i ↔ wellFormed i = true ∧ i.headerOf = some (f, h) := by
  constructor
  · rintro rfl
    unfold selectBlock
    split_ifs <;> simp_all [wellFormed, knownFormat, Instr.headerOf]
  · rintro ⟨hw, hh⟩
    cases i <;> cases hh <;> simp_all [wellFormed, knownFormat, selectBlock]

/-- A string of 32 bytes is a header: the tag is tested, then the opcode map selects (R96). -/
theorem decode_header (p : Params) {bs : List Byte} (hlen : bs.length = 32) :
    decode p bs = if headerTag bs = p.magic then .ok (selectBlock (bs.getD 7 0) (headerFields bs))
      else .error .badMagic := by
  have hd : decode p bs = decodeHeader p bs := by
    unfold decode
    split
    · simp at hlen
    · rfl
  rw [hd, decodeHeader, if_neg (by omega), ite_not]
  rfl

/-- What 32 bytes decode to, through `headerOf` (R91, R95, R96). -/
theorem decode_header_ok_iff {p : Params} {bs : List Byte} {i : Instr} (hlen : bs.length = 32) :
    decode p bs = .ok i ↔
      headerTag bs = p.magic ∧ wellFormed i = true ∧ i.headerOf = some (bs.getD 7 0, headerFields bs) := by
  rw [decode_header p hlen, ← selectBlock_eq_iff]
  split_ifs with htag <;> simp [htag]

/-- The channel codes and the selectors are in one-to-one correspondence (R110). -/
theorem decodeChannel_ok_iff {c : Byte} {i : Instr} (p : Params) :
    decodeChannel c = .ok i ↔ i.headerOf = none ∧ encode p i = [c] := by
  constructor
  · intro hd
    unfold decodeChannel at hd
    split_ifs at hd <;> cases hd <;> simp_all [Instr.headerOf, encode]
  · rintro ⟨hh, he⟩
    cases i <;> cases hh <;> cases he <;> rfl

theorem wellFormed_of_headerOf_none {i : Instr} (hi : i.headerOf = none) : wellFormed i = true := by
  cases i <;> cases hi <;> rfl

/-- A selector's encoding is one byte (R110). -/
theorem encode_of_headerOf_none {i : Instr} (hi : i.headerOf = none) (p : Params) : ∃ c, encode p i = [c] := by
  cases i <;> cases hi <;> exact ⟨_, rfl⟩

/-- Settles O1: a block is the row its header selects, and a selector is the one its code selects. -/
theorem decodeUndoesEncode : Obligations.DecodeUndoesEncode := by
  intro p i hw
  cases hi : i.headerOf with
  | none =>
    obtain ⟨c, hc⟩ := encode_of_headerOf_none hi p
    rw [hc]
    exact (decodeChannel_ok_iff p).2 ⟨hi, hc⟩
  | some fh =>
    rw [encode_of_headerOf hi p, decode_header_ok_iff rfl, format_encodeHeader, headerFields_encodeHeader]
    exact ⟨headerTag_encodeHeader .., hw, hi⟩

/-- Settles O2: a decoded header is the encoding of its own format code and fields. -/
theorem encodeUndoesDecode : Obligations.EncodeUndoesDecode := by
  rintro p bs i (hlen | hlen) hd
  · obtain ⟨c, rfl⟩ := List.length_eq_one_iff.1 hlen
    obtain ⟨hi, he⟩ := (decodeChannel_ok_iff p).1 hd
    exact ⟨wellFormed_of_headerOf_none hi, he⟩
  · obtain ⟨htag, hw, hi⟩ := (decode_header_ok_iff hlen).1 hd
    exact ⟨hw, (encode_of_headerOf hi p).trans (encodeHeader_headerFields p hlen htag)⟩

theorem byte_and_255 (b : Byte) : b &&& 255#8 = b := BitVec.and_allOnes

/-- The mask that END and ILLEGAL have in the opcode table lets the tag through. -/
theorem join8_tagMask_iff (a b c d e f g h : Byte) :
    join8 a b c d e f g h &&& 0xFFFFFFFF00000000 = 0x494C444100000000 ↔ join4 a b c d = 0x494C4441 := by
  have hmask : split8 0xFFFFFFFF00000000 = [255, 255, 255, 255, 0, 0, 0, 0] := by decide
  have hmatch : split8 0x494C444100000000 = [0x49, 0x4C, 0x44, 0x41, 0, 0, 0, 0] := by decide
  have htag : split4 0x494C4441 = [0x49, 0x4C, 0x44, 0x41] := by decide
  rw [← split8_inj, ← split4_inj, split8_and, split8_join, split4_join, hmask, hmatch, htag]
  simp [byte_and_255]

/-- The mask of the other rows lets the tag and the format code through. -/
theorem join8_rowMask_iff (a b c d e f g h code : Byte) :
    join8 a b c d e f g h &&& 0xFFFFFFFF000000FF = join8 0x49 0x4C 0x44 0x41 0 0 0 code ↔
      join4 a b c d = 0x494C4441 ∧ h = code := by
  have hmask : split8 0xFFFFFFFF000000FF = [255, 255, 255, 255, 0, 0, 0, 255] := by decide
  have htag : split4 0x494C4441 = [0x49, 0x4C, 0x44, 0x41] := by decide
  rw [← split8_inj, ← split4_inj, split8_and, split8_join, split8_join, split4_join, hmask, htag]
  simp [byte_and_255, and_assoc]

/-- ILLEGAL has records and none of the five format codes (R95). -/
theorem wellFormed_illegal_iff {f : Byte} {h : Header} : wellFormed (.illegal f h) = true ↔
    h.count ≠ 0 ∧ f ≠ 0 ∧ f ≠ 1 ∧ f ≠ 2 ∧ f ≠ 4 ∧ f ≠ 5 := by
  simp [wellFormed, knownFormat, and_assoc]

/-- Settles O4: the conditions of each row are those of `wellFormed` and `headerOf`, read through the two masks. -/
theorem decoderFollowsOpcodeTable : Obligations.DecoderFollowsOpcodeTable := by
  intro bs hlen b first8 count row h answers
  have hans : ∀ i, answers i ↔
      headerTag bs = 0x494C4441 ∧ wellFormed i = true ∧ i.headerOf = some (b 7, h) := fun _ =>
    decode_header_ok_iff hlen
  have htag : first8 &&& 0xFFFFFFFF00000000 = 0x494C444100000000 ↔ headerTag bs = 0x494C4441 :=
    join8_tagMask_iff ..
  have hrow : ∀ code, row (join8 0x49 0x4C 0x44 0x41 0 0 0 code) ↔
      (headerTag bs = 0x494C4441 ∧ b 7 = code) ∧ h.count ≠ 0 := fun code =>
    and_congr_left' (join8_rowMask_iff ..)
  have hrow0 : row 0x494C444100000000 ↔ _ := hrow 0
  have hrow1 : row 0x494C444100000001 ↔ _ := hrow 1
  have hrow2 : row 0x494C444100000002 ↔ _ := hrow 2
  have hrow4 : row 0x494C444100000004 ↔ _ := hrow 4
  have hrow5 : row 0x494C444100000005 ↔ _ := hrow 5
  have hknown : ∀ {i : Instr} {code : Byte}, i.headerOf = some (code, h) → (wellFormed i = true ↔ h.count ≠ 0) →
      (answers i ↔ (headerTag bs = 0x494C4441 ∧ b 7 = code) ∧ h.count ≠ 0) := by
    intro i code hi hw
    rw [hans, hw, hi, Option.some.injEq, Prod.mk.injEq, and_iff_left rfl, eq_comm (a := code), and_assoc,
      and_comm (a := h.count ≠ 0)]
  rw [htag, hrow0, hrow1, hrow2, hrow4, hrow5]
  refine ⟨?_, hknown rfl bne_iff_ne, hknown rfl bne_iff_ne, hknown rfl bne_iff_ne, hknown rfl bne_iff_ne,
    hknown rfl bne_iff_ne, ?_⟩
  · exact (hans _).trans (and_congr_right' ((and_iff_left rfl).trans beq_iff_eq))
  · rw [hans, wellFormed_illegal_iff]
    refine and_congr_right fun ht => ((and_iff_left rfl).trans (and_congr_right fun hc => ?_))
    simp only [ht, hc, true_and, and_true, ne_eq, not_false_eq_true]

/-- Settles O3: the words are closed, so the decoder computes each answer. -/
theorem specWordsDecode : Obligations.SpecWordsDecode := by
  unfold Obligations.SpecWordsDecode
  decide

end Sys2Proof
end

section
/-! Proof of the statement on the ignored bits (R98, R100): what a block and a colour read of their bytes. -/

namespace Sys2Proof.Machine

/-- A block of points reads the count and the source of its header, and no other field (R98). -/
theorem pointBlock_congr {h h' : Header} (hc : h.count = h'.count) (hs : h.srcid = h'.srcid) (k : PointKind)
    (s : State) : pointBlock k h s = pointBlock k h' s := by
  simp only [pointBlock, State.enterBody, hc, hs]

/-- A palette load reads the count and the source of its header, and no other field (R98). -/
theorem palBlock_congr {h h' : Header} (hc : h.count = h'.count) (hs : h.srcid = h'.srcid) (s : State) :
    palBlock h s = palBlock h' s := by
  simp only [palBlock, State.enterBody, hc, hs]

theorem exec_selectBlock_congr {h h' : Header} (hc : h.count = h'.count) (hs : h.srcid = h'.srcid) (f : Byte)
    (s : State) : exec (selectBlock f h) s = exec (selectBlock f h') s := by
  have hpoint := fun k => pointBlock_congr hc hs k s
  unfold selectBlock
  rw [hc]
  split_ifs
  · rfl
  · exact congrArg Host.Outcome.next (hpoint .idx3d)
  · exact congrArg Host.Outcome.next (hpoint .idx2d)
  · exact congrArg Host.Outcome.next (palBlock_congr hc hs s)
  · exact congrArg Host.Outcome.next (hpoint .tc3d)
  · exact congrArg Host.Outcome.next (hpoint .tc2d)
  · rfl

theorem indexedColour_of_blanked {status : Byte} (h : blanked status = true) (p : PaletteTable) (s idx : Byte) :
    indexedColour p s status idx = Rgb.black :=
  if_pos h

theorem trueColour_of_blanked {status : Byte} (h : blanked status = true) (blue green red : Byte) :
    trueColour status blue green red = Rgb.black :=
  if_pos h

/-- Settles O6: the tag decides alone whether the header is rejected, and the block reads the format code, the count
and the source; a colour reads the blanked bit of its status. -/
theorem ignoredBitsHaveNoEffect : Obligations.IgnoredBitsHaveNoEffect := by
  refine ⟨fun p bs bs' hlen hlen' heq => ?_, fun p s status status' idx h => ?_, fun status status' b g r h => ?_,
    fun p s status idx idx' b g r b' g' r' h => ?_⟩
  · simp only [List.forall_mem_cons] at heq
    obtain ⟨h0, h1, h2, h3, h7, h24, h25, h30, -⟩ := heq
    have htag : headerTag bs = headerTag bs' := by rw [headerTag, headerTag, h0, h1, h2, h3]
    have hcount : (headerFields bs).count = (headerFields bs').count := by
      simp only [headerFields, h24, h25]
    rw [decode_header p hlen, decode_header p hlen', htag, h7]
    by_cases hm : headerTag bs' = p.magic
    · rw [if_pos hm, if_pos hm]
      exact .inr ⟨_, _, rfl, rfl, exec_selectBlock_congr hcount h30 _⟩
    · rw [if_neg hm, if_neg hm]
      exact .inl ⟨_, rfl, rfl⟩
  · rw [indexedColour, indexedColour, blanked, blanked, h]
  · rw [trueColour, trueColour, blanked, blanked, h]
  · rw [indexedColour_of_blanked h, indexedColour_of_blanked h, trueColour_of_blanked h, trueColour_of_blanked h]
    exact ⟨rfl, rfl⟩

end Sys2Proof.Machine
end

section
/-! The pull by what it meets (R131, R141): a terminal state, a header that decodes, a wrong tag; and the blocks by
the count and the format code of their header (R95, R96). -/

namespace Sys2Proof

/-- Bytes 0 to 3 of a header are the bytes of its tag (R91). -/
theorem split4_headerTag {bs : List Byte} (hlen : bs.length = 32) : split4 (headerTag bs) = bs.take 4 := by
  rw [headerTag, split4_join]
  refine List.ext_getElem (by simp [hlen]) fun i hi _ => ?_
  have h4 : i < 4 := hi
  interval_cases i <;> simp [hlen]

theorem headerTag_eq_iff {bs : List Byte} (hlen : bs.length = 32) (magic : BitVec 32) :
    headerTag bs = magic ↔ bs.take 4 = split4 magic := by
  rw [← split4_headerTag hlen, split4_inj]

/-- 32 bytes are read as a header. -/
theorem decodeHeader_eq_decode (p : Params) {bs : List Byte} (hlen : bs.length = 32) :
    decodeHeader p bs = decode p bs := by
  rw [decode_header p hlen, decodeHeader, if_neg (by omega), ite_not]
  rfl

/-- A header without records is END, whatever its format code (R96). -/
theorem selectBlock_end {h : Header} (hc : h.count = 0) (f : Byte) : selectBlock f h = .endBlock f h :=
  selectBlock_eq_iff.2 ⟨beq_iff_eq.2 hc, rfl⟩

/-- A header with records and none of the five format codes is ILLEGAL (R95). -/
theorem selectBlock_illegal {f : Byte} {h : Header} (hc : h.count ≠ 0) (hf : f ∉ ([0, 1, 2, 4, 5] : List Byte)) :
    selectBlock f h = .illegal f h := by
  simp only [List.mem_cons, List.not_mem_nil, or_false, not_or] at hf
  exact selectBlock_eq_iff.2 ⟨wellFormed_illegal_iff.2 ⟨hc, hf⟩, rfl⟩

end Sys2Proof

namespace Sys2Proof.Machine

/-! The pull (R131). -/

/-- R137: the end of the stream stays the end. -/
theorem nextFrame_exhausted {s : State} (h : s.dec.state = .exhausted) :
    s.nextFrame = .next (s.setResult .endOfStream) := by
  rw [State.nextFrame, if_neg (by rw [h]; decide), if_pos h]

/-- R138: a faulted decoder stays faulted. -/
theorem nextFrame_faulted {s : State} (h : s.dec.state = .faulted) : s.nextFrame = .next (s.setResult .fault) :=
  if_pos h

/-- A pull that awaits a header is the header's half of R131. -/
theorem nextFrame_awaits {s : State} (ha : s.awaits) : s.nextFrame = s.pullBlock := by
  rw [State.nextFrame, if_neg (by rw [ha]; decide), if_neg (by rw [ha]; decide)]

theorem State.srcRead_of_readBytes {s : State} {n : Nat} {bs : List Byte} (hr : s.inp.readBytes s.dec.inPos n = some bs)
    (stage : ErrStage) (info : Byte) : s.srcRead n stage info = .ok (bs, s.setInPos (s.dec.inPos + n)) := by
  rw [State.srcRead, hr]

section Header
variable {s : State} {bs : List Byte} (ha : s.awaits) (hr : s.inp.readBytes s.dec.inPos 32 = some bs)
include ha hr

/-- The block that the header stands for runs with the cursor at its first record. -/
theorem nextFrame_of_decode {i : Instr} (hd : decode s.params bs = .ok i) :
    s.nextFrame = exec i (s.setInPos (s.dec.inPos + 32)) := by
  obtain ⟨-, hlen, -⟩ := (Memory.readBytes_eq_some _ _ _ _).1 hr
  rw [nextFrame_awaits ha, State.pullBlock, Config.hdrSize, State.srcRead_of_readBytes hr]
  simp only [decodeHeader_eq_decode _ hlen, hd]

/-- R132: the error names the header's first byte. -/
theorem nextFrame_wrongTag (ht : bs.take 4 ≠ split4 s.params.magic) :
    s.nextFrame =
      .next ((s.setInPos (s.dec.inPos + 32)).raise .corruptFormat .header 0 s.dec.inPos false) := by
  obtain ⟨-, hlen, -⟩ := (Memory.readBytes_eq_some _ _ _ _).1 hr
  rw [nextFrame_awaits ha, State.pullBlock, Config.hdrSize, State.srcRead_of_readBytes hr]
  simp only [decodeHeader_eq_decode _ hlen, decode_header _ hlen, headerTag_eq_iff hlen, if_neg ht]

theorem nextFrame_rightTag (ht : bs.take 4 = split4 s.params.magic) :
    s.nextFrame = exec (selectBlock (bs.getD 7 0) (headerFields bs)) (s.setInPos (s.dec.inPos + 32)) := by
  obtain ⟨-, hlen, -⟩ := (Memory.readBytes_eq_some _ _ _ _).1 hr
  exact nextFrame_of_decode ha hr ((decode_header _ hlen).trans (if_pos ((headerTag_eq_iff hlen _).2 ht)))

end Header

/-! The blocks with records (R160). -/

/-- `REC_SIZE` by the format code (R6, R94, R99). -/
def recordSize (l : Fmt1Layout) (f : Byte) : Nat :=
  if f = 2 then 3 else if f = 4 then 10 else if f = 1 ∧ l = .own6 then 6 else 8

theorem recordSize_format (l : Fmt1Layout) (k : PointKind) : recordSize l k.format = k.recSize l := by
  cases k <;> cases l <;> rfl

/-- A body that was read to its end leaves the decoder at the next header (R134). -/
theorem BodyRead.leaveBody {size count : Nat} {s u : State} (h : BodyRead size s count u) (r : PullResult) :
    BlockRead s (u.leaveBody r) r (count * size) :=
  ⟨rfl, rfl, h.inPos, h.err, h.runState, h.freeCtr⟩

theorem BodyRead.palCommit {size count : Nat} {s u : State} (h : BodyRead size s count u) (src : Byte)
    (n : BitVec 16) : BodyRead size s count (u.palCommit src n) :=
  ⟨h.keeps.trans (by constructor <;> rfl), h.err, h.runState, h.freeCtr, h.inPos, h.inside, h.recIdx⟩

theorem pointBlock_whole (k : PointKind) (h : Header) {s : State}
    (hs : s.dec.inPos + h.count.toNat * k.recSize s.params.fmt1Layout ≤ s.inp.len) :
    BlockRead s (pointBlock k h s) .frame (h.count.toNat * k.recSize s.params.fmt1Layout) := by
  rcases pointBlock_reads k h (Nat.le_trans (Nat.le_add_right _ _) hs)
    with ⟨u, hu, he⟩ | ⟨j, hj, u, hu, -, hlt, -⟩
  · rw [he]
    exact hu.leaveBody .frame
  · exact absurd (hu.whole hj hs) (Nat.not_le.2 hlt)

theorem palBlock_whole (h : Header) {s : State} (hs : s.dec.inPos + h.count.toNat * 3 ≤ s.inp.len) :
    BlockRead s (palBlock h s) .palette (h.count.toNat * 3) := by
  obtain ⟨u, hu, he⟩ := palBlock_complete h hs
  rw [he]
  exact (hu.palCommit h.srcid h.count).leaveBody .palette

/-- A header with records and the format code of a record shape runs the block of that shape (R95). -/
theorem exec_selectBlock_point (k : PointKind) {h : Header} (hc : h.count ≠ 0) (s : State) :
    exec (selectBlock k.format h) s = .next (pointBlock k h s) := by
  cases k <;> rw [selectBlock, if_neg hc] <;> rfl

theorem exec_selectBlock_pal {h : Header} (hc : h.count ≠ 0) (s : State) :
    exec (selectBlock 2 h) s = .next (palBlock h s) := by
  rw [selectBlock, if_neg hc]; rfl

/-- The known format codes are those of the record shapes and the palette's (R95). -/
theorem format_of_known {f : Byte} (hf : f ∈ ([0, 1, 2, 4, 5] : List Byte)) :
    f = 2 ∨ ∃ k : PointKind, f = k.format := by
  simp only [List.mem_cons, List.not_mem_nil, or_false] at hf
  rcases hf with rfl | rfl | rfl | rfl | rfl
  · exact .inr ⟨.idx3d, rfl⟩
  · exact .inr ⟨.idx2d, rfl⟩
  · exact .inl rfl
  · exact .inr ⟨.tc3d, rfl⟩
  · exact .inr ⟨.tc2d, rfl⟩

/-- A block with records of a known format is read to its end or cut, as the stream has its whole body or not. -/
theorem exec_selectBlock_known {f : Byte} {h : Header} {s : State} (hc : h.count ≠ 0)
    (hf : f ∈ ([0, 1, 2, 4, 5] : List Byte)) (hle : s.dec.inPos ≤ s.inp.len) :
    ∃ t, exec (selectBlock f h) s = .next t ∧
      (s.inp.len < s.dec.inPos + h.count.toNat * recordSize s.params.fmt1Layout f →
        BlockCut s t (recordSize s.params.fmt1Layout f) h.count.toNat f) ∧
      (s.dec.inPos + h.count.toNat * recordSize s.params.fmt1Layout f ≤ s.inp.len →
        BlockRead s t (if f = 2 then .palette else .frame) (h.count.toNat * recordSize s.params.fmt1Layout f)) := by
  rcases format_of_known hf with rfl | ⟨k, rfl⟩
  · exact ⟨palBlock h s, exec_selectBlock_pal hc s, fun hs => (palBlock_short h hle hs).1, palBlock_whole h⟩
  · have hne : k.format ≠ 2 := by cases k <;> decide
    rw [recordSize_format, if_neg hne]
    exact ⟨pointBlock k h s, exec_selectBlock_point k hc s, fun hs => (pointBlock_short k h hle hs).1,
      pointBlock_whole k h⟩

/-- What fault entry for a decoder error shows of the decoder and the error registers (R290). -/
theorem State.raise_faults (s : State) {code : ErrCode} (h : code.ofDecoder = true) (stage : ErrStage) (info : Byte)
    (pos : Nat) : (s.raise code stage info pos false).dec.state = .faulted ∧
      (s.raise code stage info pos false).dec.result = .fault ∧
      ∃ i p, (s.raise code stage info pos false).err = s.errAfter code stage i p := by
  rw [s.raise_ofDecoder h]
  exact ⟨rfl, rfl, info, pos, rfl⟩

end Sys2Proof.Machine
end

section
/-! Proofs of the statements on the decoder's pull (R131 to R138, R141). -/

namespace Sys2Proof.Machine

/-- Settles O53: each event of R141 decides what the pull is, and the rules for the blocks say how it ends. -/
theorem decoderStateMachine : Obligations.DecoderStateMachine := by
  intro s ends faults
  refine ⟨fun ha hs => ?_, fun ha bs hr => ?_, fun hx => ?_, fun hf => ?_⟩
  · exact ⟨_, nextFrame_shortHeader ha hs, State.raise_faults _ rfl ..⟩
  · intro f count known size body
    have hle := ((Memory.readBytes_eq_some _ _ _ _).1 hr).1
    refine ⟨fun ht => ⟨_, nextFrame_wrongTag ha hr ht, State.raise_faults _ rfl ..⟩, fun ht => ?_⟩
    have hpull := nextFrame_rightTag ha hr ht
    have hne : count ≠ 0 → (headerFields bs).count ≠ 0 := fun hc hz => hc (congrArg BitVec.toNat hz)
    have hblock := fun hc hk => exec_selectBlock_known (f := f) (s := s.setInPos (s.dec.inPos + 32)) (hne hc) hk hle
    refine ⟨fun hc => ?_, fun hc hk => ?_, fun hc hk hs => ?_, fun hc hk h2 hs => ?_, fun hc h2 hs => ?_⟩
    · rw [selectBlock_end (BitVec.eq_of_toNat_eq hc)] at hpull
      exact ⟨_, hpull, rfl, rfl, rfl⟩
    · rw [selectBlock_illegal (hne hc) hk] at hpull
      exact ⟨_, hpull, State.raise_faults _ rfl ..⟩
    · obtain ⟨t, he, hcut, -⟩ := hblock hc hk
      obtain ⟨res, st, -, ⟨j, -, -, -, err⟩, -⟩ := hcut hs
      exact ⟨t, hpull.trans he, st, res, f, _, err⟩
    · obtain ⟨t, he, -, hread⟩ := hblock hc hk
      obtain ⟨res, st, -, err, -, -⟩ := hread hs
      exact ⟨t, hpull.trans he, st, res.trans (if_neg h2), err⟩
    · obtain ⟨t, he, -, hread⟩ := hblock hc (by rw [h2]; decide)
      obtain ⟨res, st, -, err, -, -⟩ := hread hs
      exact ⟨t, hpull.trans he, st, res.trans (if_pos h2), err⟩
  · exact ⟨_, nextFrame_exhausted hx, hx, rfl, rfl⟩
  · exact ⟨_, nextFrame_faulted hf, hf, rfl, rfl⟩

/-- Settles O7: the PULL is `nextFrame`, which runs what the header decodes to. -/
theorem pullStepRunsDecodedBlock : Obligations.PullStepRunsDecodedBlock := by
  intro s rest bs i hi hh ha hr hd
  rw [step_hostPull hi hh]
  exact nextFrame_of_decode (s := s.setHost rest) ha hr hd

/-- Settles O8: the run's pull is `nextFrame`, and every block answers a next state. -/
theorem runPullStepRunsDecodedBlock : Obligations.RunPullStepRunsDecodedBlock := by
  intro s bs i hrun hsch ha hr hd
  obtain ⟨t, ht⟩ := exec_answers_next i (s.setInPos (s.dec.inPos + 32))
  exact ⟨t, ht, step_pull hrun hsch ((nextFrame_of_decode ha hr hd).trans ht)⟩

/-- Settles O14: in each terminal state `nextFrame` writes `RESULT` alone, and the host's PULL is `nextFrame`. -/
theorem pullInTerminalState : Obligations.PullInTerminalState := by
  intro s
  refine ⟨nextFrame_exhausted, nextFrame_faulted, fun rest hi hh => ?_⟩
  rw [step_hostPull hi hh]
  exact ⟨nextFrame_exhausted (s := s.setHost rest), nextFrame_faulted (s := s.setHost rest)⟩

/-- Settles O16: the pull is the fault entry after the header, and a fault ends a run in `FAULTED`. -/
theorem wrongMagicFaults : Obligations.WrongMagicFaults := by
  intro s bs ha hr ht after
  have hpull : s.nextFrame = .next (after s.runStateAfterError) := by
    rw [nextFrame_wrongTag ha hr ht, State.raise_ofDecoder _ rfl]
    rfl
  refine ⟨hpull, fun rest hi hh => ?_, fun hrun hsch => ?_⟩
  · have hidle : (s.setHost rest).runStateAfterError = .idle := (if_neg (by simp [hi])).trans hi
    rw [step_hostPull hi hh, nextFrame_wrongTag (s := s.setHost rest) ha hr ht, State.raise_ofDecoder _ rfl, ← hidle]
    rfl
  · rw [step_pull hrun hsch hpull, State.afterPull_fault rfl]
    rfl

/-- Settles O17: neither the format code nor the source of the header is read. -/
theorem endBlockEndsStream : Obligations.EndBlockEndsStream := fun _ _ _ => rfl

/-- Settles O18: the block is one fault entry for a decoder error, with no read before it. -/
theorem illegalBlockFaults : Obligations.IllegalBlockFaults := fun f _ s =>
  congrArg Host.Outcome.next (s.raise_ofDecoder rfl .header f (s.dec.inPos - 32))

end Sys2Proof.Machine
end

section
/-! A block of points record by record (R160): the points it has written, and the frame buffer of a whole block. -/

namespace Sys2Proof.Machine

/-- `u` is what a block of points of kind `k` that began in `s` has come to after `j` records. -/
structure PointsRead (k : PointKind) (h : Header) (s : State) (j : Nat) (u : State) : Prop
    extends BodyRead (k.recSize s.params.fmt1Layout) s j u where
  srcid : u.fb.srcid = h.srcid
  count : u.fb.count = h.count
  pal : u.pal = s.pal
  points : ∀ i < j, ∀ rec, s.inp.readBytes (s.dec.inPos + i * k.recSize s.params.fmt1Layout)
      (k.recSize s.params.fmt1Layout) = some rec →
    Cells.get Point.zero u.fb.pt i = decodePoint s.params.fmt1Layout s.pal h.srcid rec k
  rest : ∀ i, j ≤ i → Cells.get Point.zero u.fb.pt i = Cells.get Point.zero s.fb.pt i

/-- Record `j` goes to `FB_PT[j]`, and no other point is written. -/
theorem PointsRead.next {k : PointKind} {h : Header} {j : Nat} {s u : State} {bs : List Byte}
    (hu : PointsRead k h s j u) (hj : j < 65536)
    (hr : u.inp.readBytes u.dec.inPos (k.recSize s.params.fmt1Layout) = some bs) :
    PointsRead k h s (j + 1) ((storePointRecord k h.srcid
      (u.setInPos (u.dec.inPos + k.recSize s.params.fmt1Layout)) bs).setRecIdx (u.dec.recIdx + 1)) := by
  have hget : ∀ i, Cells.get Point.zero (storePointRecord k h.srcid
      (u.setInPos (u.dec.inPos + k.recSize s.params.fmt1Layout)) bs).fb.pt i =
      if j = i then decodePoint s.params.fmt1Layout s.pal h.srcid bs k else Cells.get Point.zero u.fb.pt i := by
    intro i
    simp only [storePointRecord, State.storePoint_fields, State.setInPos_fields, Cells.get_set, hu.recIdx_toNat hj,
      hu.pal, hu.keeps.params]
  refine ⟨hu.toBodyRead.next hr (storePointRecord_keeps _ _ _ _), hu.srcid, hu.count, hu.pal, ?_, ?_⟩
  · intro i hi rec hrec
    simp only [State.setRecIdx_fields, hget]
    by_cases hij : j = i
    · subst hij
      rw [← hu.keeps.inp, ← hu.inPos] at hrec
      rw [if_pos rfl, Option.some.inj (hr.symm.trans hrec)]
    · rw [if_neg hij]
      exact hu.points i (by omega) rec hrec
  · intro i hi
    simp only [State.setRecIdx_fields, hget]
    rw [if_neg (by omega)]
    exact hu.rest i (by omega)

/-- With all its records in the stream a block of points is read to its end. -/
theorem pointBlock_complete (k : PointKind) (h : Header) {s : State}
    (hs : s.dec.inPos + h.count.toNat * k.recSize s.params.fmt1Layout ≤ s.inp.len) :
    ∃ u, PointsRead k h s h.count.toNat u ∧ pointBlock k h s = u.leaveBody .frame := by
  let start := (s.enterBody k.format h).setFb { (s.enterBody k.format h).fb with srcid := h.srcid, count := h.count }
  have hb : pointBlock k h s = match bodyLoop (k.recSize s.params.fmt1Layout) k.format (storePointRecord k h.srcid)
      h.count.toNat start with
    | .ok t => t.leaveBody .frame
    | .error t => t.freeFrame := rfl
  have hstart : PointsRead k h s 0 start :=
    ⟨(BodyRead.begin (Nat.le_trans (Nat.le_add_right _ _) hs) _ _ _).setFb _, rfl, rfl, rfl,
      fun i hi => absurd hi i.not_lt_zero, fun _ _ => rfl⟩
  have hmax := h.count.isLt
  rcases bodyLoop_counts (f := k.format) (store := storePointRecord k h.srcid) h.count.toNat (PointsRead k h s)
    start (fun j hj u bs hu hr => hu.next (by omega) hr) hstart
    with ⟨t, ht, hp⟩ | ⟨j, hj, u, hp, hlt, -⟩
  · rw [ht] at hb
    exact ⟨t, hp, hb⟩
  · exact absurd (hp.whole hj hs) (Nat.not_le.2 hlt)

/-- The frame buffer after a whole block: what `decodePoint` makes of each record (R29, R160). -/
theorem pointBlock_frameRead (k : PointKind) (h : Header) {s : State}
    (hs : s.dec.inPos + h.count.toNat * k.recSize s.params.fmt1Layout ≤ s.inp.len) :
    FrameRead s (pointBlock k h s) h (k.recSize s.params.fmt1Layout)
      fun rec => decodePoint s.params.fmt1Layout s.pal h.srcid rec k := by
  obtain ⟨u, hu, he⟩ := pointBlock_complete k h hs
  rw [he]
  exact ⟨hu.srcid, hu.count, hu.points, hu.rest, hu.pal⟩

/-- A block of points with all its records in the stream, under the layout `l` of format code 1 (R99): how it ends,
what it leaves alone, and the frame it reads. -/
theorem pointBlock_readsFrame (k : PointKind) (h : Header) {s : State} {l : Fmt1Layout}
    (hl : s.params.fmt1Layout = l) (hs : s.dec.inPos + h.count.toNat * k.recSize l ≤ s.inp.len) :
    BlockRead s (pointBlock k h s) .frame (h.count.toNat * k.recSize l) ∧ BlockFrame s (pointBlock k h s) ∧
      FrameRead s (pointBlock k h s) h (k.recSize l) fun rec => decodePoint l s.pal h.srcid rec k := by
  subst hl
  exact ⟨pointBlock_whole k h hs, (pointBlock_keeps k h s).blockFrame, pointBlock_frameRead k h hs⟩

end Sys2Proof.Machine
end

section
/-! Proofs of the statements on the five record formats with their records in the stream (R160 to R166). -/

namespace Sys2Proof.Machine

/-- Settles O19: the block of kind IDX3D, whose record has 8 bytes and an indexed colour. -/
theorem idx3dReadsFrame : Obligations.Idx3dReadsFrame := fun h s hs =>
  ⟨pointBlock .idx3d h s, rfl, pointBlock_readsFrame .idx3d h rfl hs⟩

/-- Settles O20: the block of kind IDX2D, whose record is the layout's own or that of IDX3D. -/
theorem idx2dReadsFrame : Obligations.Idx2dReadsFrame := fun h s =>
  ⟨fun hl hs => ⟨pointBlock .idx2d h s, rfl, pointBlock_readsFrame .idx2d h hl hs⟩,
    fun hl hs => ⟨pointBlock .idx2d h s, rfl, pointBlock_readsFrame .idx2d h hl hs⟩⟩

/-- Settles O21: the block of kind TC3D, whose record has 10 bytes and reads no palette. -/
theorem tc3dReadsFrame : Obligations.Tc3dReadsFrame := fun h s hs =>
  ⟨pointBlock .tc3d h s, rfl, pointBlock_readsFrame .tc3d h rfl hs⟩

/-- Settles O22: the block of kind TC2D, whose record has 8 bytes and no z. -/
theorem tc2dReadsFrame : Obligations.Tc2dReadsFrame := fun h s hs =>
  ⟨pointBlock .tc2d h s, rfl, pointBlock_readsFrame .tc2d h rfl hs⟩

/-- Settles O23: the load reads all its records and is then committed, which leaves the entries and the other
sources as the load left them. -/
theorem palReplacesPalette : Obligations.PalReplacesPalette := by
  intro h s hs
  obtain ⟨u, hu, he⟩ := palBlock_complete h hs
  have hpal : (palBlock h s).pal = (u.palCommit h.srcid h.count).pal := by rw [he]; rfl
  have hfb : (palBlock h s).fb = s.fb := by rw [he]; exact hu.fb
  obtain ⟨hvalid, hlen⟩ := u.palCommit_loaded h.srcid h.count
  refine ⟨palBlock h s, rfl, palBlock_whole h hs, (palBlock_keeps h s).blockFrame, hfb, ?_⟩
  rw [hpal]
  exact ⟨hvalid, hlen, hu.entries, fun k hk => (u.palCommit_sameAt hk h.count).trans (hu.sameAt hk)⟩

end Sys2Proof.Machine
end

section
/-! The fair distribution (R190, R191): the carry of the accumulator `(i * (T % G)) % G` decides the extra unit, and
the groups before group `i` hold `i * T / G` units together. -/

namespace Sys2Proof.Machine

section Groups
variable {T G : Nat} (hG : 0 < G)

theorem groupSize_extra {i : Nat} (h : (i * (T % G)) % G > ((i + 1) * (T % G)) % G) : groupSize T G i = T / G + 1 := by
  rw [groupSize, if_pos h]

theorem groupSize_plain {i : Nat} (h : ¬ (i * (T % G)) % G > ((i + 1) * (T % G)) % G) : groupSize T G i = T / G := by
  rw [groupSize, if_neg h, Nat.add_zero]

/-- R191 (d): the index counts modulo the number of groups. -/
theorem groupSize_add_groups (T G i : Nat) : groupSize T G (i + G) = groupSize T G i := by
  have acc (j : Nat) : ((j + G) * (T % G)) % G = (j * (T % G)) % G := by
    rw [Nat.add_mul, Nat.add_mul_mod_self_left]
  rw [groupSize, groupSize, acc, Nat.add_right_comm i G 1, acc]

theorem groupSize_one_group (T : Nat) : groupSize T 1 0 = T := by
  simp [groupSize, Nat.mod_one]

theorem groupSize_no_units (G i : Nat) : groupSize 0 G i = 0 := by
  simp [groupSize]

/-- R191 (g): the accumulator adds the remainder and wraps at the number of groups. -/
theorem accumulator_succ (i : Nat) : ((i + 1) * (T % G)) % G =
    if G ≤ (i * (T % G)) % G + T % G then (i * (T % G)) % G + T % G - G else (i * (T % G)) % G + T % G := by
  have h := Nat.add_mod_add_ite (i * (T % G)) (T % G) G
  rw [Nat.mod_mod] at h
  rw [Nat.succ_mul]
  split_ifs at h ⊢ <;> omega

include hG

/-- The accumulator falls exactly when it wraps. -/
theorem accumulator_falls_iff (i : Nat) : (i * (T % G)) % G > ((i + 1) * (T % G)) % G ↔
    G ≤ (i * (T % G)) % G + T % G := by
  have hr := Nat.mod_lt T hG
  rw [accumulator_succ]
  split <;> omega

theorem groupSize_eq_carry (i : Nat) :
    groupSize T G i = T / G + if G ≤ (i * (T % G)) % G + T % G then 1 else 0 := by
  rw [groupSize]
  simp only [accumulator_falls_iff hG]

theorem groupSize_bounds (i : Nat) : T / G ≤ groupSize T G i ∧ groupSize T G i ≤ T / G + 1 := by
  rw [groupSize_eq_carry hG]
  split <;> omega

theorem groupSize_eq_succ_iff (i : Nat) : groupSize T G i = T / G + 1 ↔ G ≤ (i * (T % G)) % G + T % G := by
  rw [groupSize_eq_carry hG]
  split <;> omega

/-- A carry needs a remainder. -/
theorem remainder_pos_of_carry {i : Nat} (h : G ≤ (i * (T % G)) % G + T % G) : 0 < T % G := by
  have := Nat.mod_lt (i * (T % G)) hG
  omega

theorem groupSize_of_dvd (h : T % G = 0) (i : Nat) : groupSize T G i = T / G := by
  rw [groupSize_eq_carry hG, if_neg fun hc => (remainder_pos_of_carry hG hc).ne' h, Nat.add_zero]

/-- R191 (e): the accumulator starts at 0, so the first group has no carry. -/
theorem groupSize_first : groupSize T G 0 = T / G := by
  have hr := Nat.mod_lt T hG
  rw [groupSize_eq_carry hG, Nat.zero_mul, Nat.zero_mod, if_neg (by omega), Nat.add_zero]

/-- R191 (e): the accumulator is 0 again after the last group, which it reaches only by a carry. -/
theorem groupSize_last (h : 0 < T % G) : groupSize T G (G - 1) = T / G + 1 := by
  have hwrap := accumulator_succ (T := T) (G := G) (G - 1)
  rw [Nat.sub_add_cancel hG, Nat.mul_mod_right] at hwrap
  rw [groupSize_eq_succ_iff hG]
  split at hwrap <;> omega

/-- Group `i` takes the units from `i * T / G` on, up to where group `i + 1` begins. -/
theorem groupStart_add_groupSize (i : Nat) : i * T / G + groupSize T G i = (i + 1) * T / G := by
  have hacc : (i * T) % G = (i * (T % G)) % G := by rw [Nat.mul_mod_mod]
  rw [groupSize_eq_carry hG, Nat.succ_mul, Nat.add_div hG, hacc, Nat.add_assoc]

theorem sum_groupSize_range (n : Nat) : ((List.range n).map (groupSize T G)).sum = n * T / G := by
  induction n with
  | zero => simp
  | succ n ih => rw [List.sum_range_succ, ih, groupStart_add_groupSize hG]

/-- R191 (a). -/
theorem sum_groupSize : ((List.range G).map (groupSize T G)).sum = T := by
  rw [sum_groupSize_range hG, Nat.mul_div_cancel_left T hG]

/-- R191 (f). -/
theorem groupSize_le_one (h : T ≤ G) (i : Nat) : groupSize T G i ≤ 1 := by
  rcases Nat.lt_or_eq_of_le h with hlt | rfl
  · have hb := (groupSize_bounds (T := T) hG i).2
    rwa [Nat.div_eq_of_lt hlt] at hb
  · rw [groupSize_of_dvd hG (Nat.mod_self T), Nat.div_self hG]

end Groups

/-- Of numbers 0 and 1, the zeros and the sum make up the count. -/
theorem count_zeros_add_sum {f : Nat → Nat} {l : List Nat} (hf : ∀ i, f i ≤ 1) :
    (l.filter fun i => f i = 0).length + (l.map f).sum = l.length := by
  induction l with
  | nil => rfl
  | cons i l ih =>
    rcases Nat.le_one_iff_eq_zero_or_eq_one.1 (hf i) with h | h <;> simp [h] <;> omega

end Sys2Proof.Machine
end

section
/-! Proofs of the statements on the arbiter (R190 to R194). -/

namespace Sys2Proof.Machine

/-- Settles O29: the groups follow one another without a gap, so the first `n` hold `n * T / G` units. -/
theorem groupSizesSumToTotal : Obligations.GroupSizesSumToTotal := fun _ _ hG => sum_groupSize hG

/-- Settles O30: each law is read off the carry of the accumulator. -/
theorem groupSizeLaws : Obligations.GroupSizeLaws := by
  intro T G i hG
  obtain ⟨hlo, hhi⟩ := groupSize_bounds (T := T) hG i
  have hextra := groupSize_eq_succ_iff (T := T) hG i
  exact ⟨hlo, hhi, fun h => groupSize_of_dvd hG h i, groupSize_add_groups T G i, groupSize_first hG,
    groupSize_last hG, groupSize_one_group T, groupSize_no_units G i,
    hextra.trans (and_iff_left_of_imp (remainder_pos_of_carry hG)).symm, accumulator_succ i⟩

/-- Settles O31: the groups have 0 or 1 units and sum to the total. -/
theorem skippedLocationCount : Obligations.SkippedLocationCount := by
  intro T G hG h
  have hcount := count_zeros_add_sum (l := List.range G) (groupSize_le_one hG h)
  rw [sum_groupSize hG, List.length_range] at hcount
  exact Nat.eq_sub_of_add_eq hcount

/-- Settles O55: the two cases are those of the definition, and the worked example is closed. -/
theorem fairDistributionFormula : Obligations.FairDistributionFormula :=
  ⟨fun _ _ _ _ => ⟨groupSize_extra, groupSize_plain⟩, by decide⟩

/-- Settles O32: what follows the pull is decided by its result, and no pull writes the sink. -/
theorem runGoesOnAfterPull : Obligations.RunGoesOnAfterPull := by
  intro s t hr hs e
  rw [step_pull hr hs e]
  refine ⟨fun h => ?_, fun h => ?_, fun h => ⟨?_, (nextFrame_keeps s t e).sink⟩⟩
  · rw [State.afterPull_frame h]
    rfl
  · rw [State.afterPull_palette h]
    rfl
  · rw [State.afterPull_fault h]
    rfl

theorem State.startLocation_skip {s : State} (h : s.allocLocation.wrk.locK = 0) :
    s.startLocation = s.allocLocation.nextLocation := if_pos h

theorem State.startLocation_begin {s : State} (h : s.allocLocation.wrk.locK ≠ 0) :
    s.startLocation = s.allocLocation.beginLocation.setSch .subSample := if_neg h

theorem State.nextLocation_of_lt {s : State} (h : s.wrk.locIdx.toNat + 1 < s.fb.count.toNat) :
    s.nextLocation = (s.setWrk { s.wrk with locIdx := s.wrk.locIdx + 1 }).setSch .location := if_pos h

theorem State.nextLocation_of_le {s : State} (h : s.fb.count.toNat ≤ s.wrk.locIdx.toNat + 1) :
    s.nextLocation = s.setSch .pull := if_neg (Nat.not_lt.2 h)

/-- Settles O33: the share decides whether the location begins, and a skipped one is followed by the next location or
by a pull. -/
theorem locationStep : Obligations.LocationStep := by
  intro s hr hs location k
  rw [step_location hr hs]
  refine ⟨fun hk => ?_, fun hk hlt => ?_, fun hk hle => ?_⟩
  · rw [State.startLocation_begin hk]
    rfl
  · rw [State.startLocation_skip hk, State.nextLocation_of_lt (s := s.allocLocation) hlt]
    rfl
  · rw [State.startLocation_skip hk, State.nextLocation_of_le (s := s.allocLocation) hle]
    rfl

end Sys2Proof.Machine
end

section
/-! Proofs of the statements on the interpolator (R196, R220 to R223) and on the place of a sub-sample. -/

namespace Sys2Proof.Machine

/-- Settles O36: each axis is inverted by its own bit. -/
theorem inversionIsExact : Obligations.InversionIsExact := fun _ _ =>
  ⟨invertAxis_toInt .., invertAxis_toInt .., invertAxis_toInt ..⟩

section Ranges
variable {last cur : BitVec 17} (hl : inRange last) (hc : inRange cur)
include hl hc

/-- R223: every position lies between the last position and the location. -/
theorem interpAxis_between {p k : Nat} (h : p ≤ k) :
    min last.toInt cur.toInt ≤ (interpAxis last cur p k).toInt ∧
    (interpAxis last cur p k).toInt ≤ max last.toInt cur.toInt := by
  have hb := tdiv_part_between (cur.toInt - last.toInt) h
  rw [interpAxis_toInt hl hc h]
  omega

/-- R223: the last sub-sample is at the location. -/
theorem interpAxis_last {k : Nat} (h : 1 ≤ k) : interpAxis last cur k k = cur := by
  have hk : (k : Int) ≠ 0 := by omega
  apply BitVec.eq_of_toInt_eq
  rw [interpAxis_toInt hl hc (Nat.le_refl k), Int.mul_tdiv_cancel _ hk]
  omega

end Ranges

/-- R223: between two equal positions there is no other. -/
theorem interpAxis_constant {cur : BitVec 17} (hc : inRange cur) {p k : Nat} (h : p ≤ k) :
    interpAxis cur cur p k = cur := by
  have hb := interpAxis_between hc hc h
  apply BitVec.eq_of_toInt_eq
  omega

/-- Settles O37: the laws follow from the quotient's bounds, and the rule's examples are closed. -/
theorem interpolationLaws : Obligations.InterpolationLaws := by
  refine ⟨fun last cur p k hl hc hp hpk => ?_, by decide⟩
  obtain ⟨hlo, hhi⟩ := interpAxis_between hl hc hpk
  refine ⟨interpAxis_toInt hl hc hpk, interpAxis_last hl hc (hp.trans hpk), hlo, hhi, interpAxis_inRange hl hc hpk,
    ?_, interpAxis_last hl hc (Nat.le_refl 1)⟩
  rintro rfl
  exact interpAxis_constant hc hpk

/-- Settles O34: the step is `startSubSample`, which sets the position and the hold count. -/
theorem subSampleStep : Obligations.SubSampleStep := by
  intro s hr hs axis
  rw [step_subSample hr hs]
  simp only [State.startSubSample, State.setPosition, State.holdCount, State.setWrk, State.setHid, State.setMuxCh,
    State.setSch, interpolate, axis]

end Sys2Proof.Machine
end

section
/-! Proofs of the statements on the multiplexer (R230 to R233): the values of the samples as integers, and what each
selector writes. -/

namespace Sys2Proof.Machine

/-- What one sample's write sets (R222, R233): the sample of the channel that is next, and that channel. -/
theorem State.putSample_eq (s : State) (v : BitVec 16) : s.putSample v = { s with
    wrk := { s.wrk with sample := Cells.set 0 s.wrk.sample s.muxCh v }, muxCh := s.muxCh + 1 } := rfl

theorem clip16_keeps_bits {v : BitVec 17} (hv : v.toInt ≠ 32768) (o : OutOverflow) : clip16 o v = v.setWidth 16 :=
  if_neg hv

theorem clip16_saturates {v : BitVec 17} (hv : v.toInt = 32768) : clip16 .saturate v = 32767 := if_pos hv

theorem clip16_wraps {v : BitVec 17} (hv : v.toInt = 32768) : clip16 .wrap v = 0x8000 := if_pos hv

/-- R230: a position of the range other than +32768 is emitted as it is. -/
theorem clip16_toInt {v : BitVec 17} (hr : inRange v) (hv : v.toInt ≠ 32768) (o : OutOverflow) :
    (clip16 o v).toInt = v.toInt := by
  obtain ⟨hlo, hhi⟩ := hr
  rw [clip16_keeps_bits hv, ← BitVec.signExtend_eq_setWidth_of_le v (by omega), BitVec.toInt_signExtend]
  exact Int.bmod_eq_of_le (m := 65536) (by omega) (by omega)

/-- R232: the scaled colour fits a sample. -/
theorem scaleColour_toInt (v : Byte) : (scaleColour v).toInt = v.toNat * 32767 / 255 := by
  have hv := v.isLt
  rw [scaleColour, BitVec.toInt_ofNat', Int.bmod_eq_of_le] <;> omega

/-- R231, field by field of the colour. -/
theorem laserOn_eq (c : Rgb) : laserOn c = if c.r = 0 ∧ c.g = 0 ∧ c.b = 0 then 0 else 32767 := by
  obtain ⟨r, g, b⟩ := c
  simp only [laserOn, Rgb.black, Rgb.mk.injEq]

/-- Settles O38: each selector is one `putSample`, and `Clip16` splits at +32768. -/
theorem positionSelectors : Obligations.PositionSelectors := by
  intro s put
  refine ⟨rfl, rfl, rfl, fun v hr => ⟨fun hv => clip16_toInt hr hv _, fun hv ho => ?_, fun hv ho => ?_⟩⟩
  · rw [ho, clip16_saturates hv]
    rfl
  · rw [ho, clip16_wraps hv]
    rfl

/-- Settles O39: laser-on compares the colour with black field by field. -/
theorem laserSelector : Obligations.LaserSelector := by
  intro s colour v
  have hv : laserOn s.location.colour = v := laserOn_eq _
  rw [exec, execSigL, hv, State.putSample_eq]

/-- Settles O40: the three samples are the scaled colours, which no 16-bit sample cuts off. -/
theorem colourSelectors : Obligations.ColourSelectors := by
  intro s colour put
  have hput (v : BitVec 16) : .next (s.putSample v) = put v := congrArg _ (s.putSample_eq v)
  have hpos (v : Byte) : 0 ≤ (scaleColour v).toInt := by
    rw [scaleColour_toInt]
    omega
  exact ⟨scaleColour colour.r, scaleColour colour.g, scaleColour colour.b, hput _, hput _, hput _,
    scaleColour_toInt _, scaleColour_toInt _, scaleColour_toInt _, hpos _, hpos _, hpos _⟩

/-- Settles O41: one byte is decoded as a channel code, and its selector writes the code's `Signal`. -/
theorem selectorsAgreeWithSignal : Obligations.SelectorsAgreeWithSignal := fun s _ _ hd => exec_channel_signal hd s

/-- Settles O9: one byte is decoded as a channel code, which is how the step reads the register. -/
theorem channelStepRunsSelector : Obligations.ChannelStepRunsSelector := fun _ _ hr hs hm hd =>
  step_channel hr hs hm hd

end Sys2Proof.Machine
end

section
/-! Proof of the statement that no step stops (R233, R287): a run by its places, and the host by its commands. -/

namespace Sys2Proof.Machine

/-- R47: every host command answers a next state. -/
theorem hostCmd_answers_next (s : State) (c : HostCmd) : ∃ t, s.hostCmd c = .next t := by
  cases c with
  | pull =>
    rw [State.hostCmd]
    split
    · exact nextFrame_answers_next s
    · exact ⟨_, rfl⟩
  | _ => exact ⟨_, rfl⟩

/-- R233: at its channels a run meets no code but the seven, since the latched registers hold no others. -/
theorem step_channels_answers_next {s : State} (hr : s.runState = .running) (hs : s.sch = .channels)
    (hcodes : s.codesOk) : ∃ t, step s = .next t := by
  rcases Nat.lt_or_ge s.muxCh s.lat.nch.toNat with hm | hm
  · obtain ⟨i, hi⟩ := decodeChannel_of_isChannelCode (hcodes _ hm)
    rw [step_channel hr hs hm hi]
    exact exec_answers_next i s
  · exact ⟨_, step_emission hr hs hm⟩

theorem step_running_answers_next {s : State} (hr : s.runState = .running) (hcodes : s.codesOk) :
    ∃ t, step s = .next t := by
  cases hs : s.sch with
  | pull =>
    obtain ⟨t, ht⟩ := nextFrame_answers_next s
    exact ⟨_, step_pull hr hs ht⟩
  | location => exact ⟨_, step_location hr hs⟩
  | subSample => exact ⟨_, step_subSample hr hs⟩
  | channels => exact step_channels_answers_next hr hs hcodes

theorem step_idle_answers_next {s : State} (hr : s.runState ≠ .running) : ∃ t, step s = .next t := by
  cases hc : s.host with
  | nil => exact ⟨s, step_of_waiting hr hc⟩
  | cons c rest =>
    rw [step_of_command hr hc]
    exact hostCmd_answers_next _ c

/-- Settles O49: the invariant's part on the latched codes is what a run needs, and outside a run nothing stops. -/
theorem noStepStops : Obligations.NoStepStops := by
  intro s h
  by_cases hr : s.runState = .running
  · exact step_running_answers_next hr (h.config hr).codes
  · exact step_idle_answers_next hr

end Sys2Proof.Machine
end

section
/-! Proofs of the statements on START and the container header (R43, R250 to R256): the header's fields as numbers,
and the two writes of the header to the sink. -/

namespace Sys2Proof.Machine

theorem byteOf_toNat {w : Nat} (v : BitVec w) (i : Nat) : (byteOf v i).toNat = v.toNat / 2 ^ (8 * i) % 256 := by
  rw [byteOf, BitVec.extractLsb'_toNat, Nat.shiftRight_eq_div_pow]

/-- The bytes of `le16(v)` (R9), low byte first, make up `v`. -/
theorem le16_toNat (v : BitVec 16) : (byteOf v 0).toNat + 256 * (byteOf v 1).toNat = v.toNat := by
  have := v.isLt
  simp only [byteOf_toNat]
  omega

/-- The bytes of `le32(v)` (R9), low byte first, make up `v`. -/
theorem le32_toNat (v : BitVec 32) : (byteOf v 0).toNat + 256 * (byteOf v 1).toNat +
    65536 * ((byteOf v 2).toNat + 256 * (byteOf v 3).toNat) = v.toNat := by
  have := v.isLt
  simp only [byteOf_toNat]
  omega

/-- A byte of a field is the byte of the list at the field's offset. -/
theorem getD_of_take_drop {bs field : List Byte} {a n : Nat} (h : (bs.drop a).take n = field) {i : Nat} (hi : i < n) :
    bs.getD (a + i) 0 = field.getD i 0 := by
  rw [← h, List.getD_eq_getElem?_getD, List.getD_eq_getElem?_getD, List.getElem?_take_of_lt hi, List.getElem?_drop]

theorem le16_field {bs : List Byte} {a : Nat} {v : BitVec 16} (h : (bs.drop a).take 2 = le16 v) :
    (bs.getD a 0).toNat + 256 * (bs.getD (a + 1) 0).toNat = v.toNat := by
  have hb := fun i => getD_of_take_drop h (i := i)
  rw [← a.add_zero, hb 0 (by omega), a.add_zero, hb 1 (by omega)]
  exact le16_toNat v

theorem le32_field {bs : List Byte} {a : Nat} {v : BitVec 32} (h : (bs.drop a).take 4 = le32 v) :
    (bs.getD a 0).toNat + 256 * (bs.getD (a + 1) 0).toNat +
      65536 * ((bs.getD (a + 2) 0).toNat + 256 * (bs.getD (a + 2 + 1) 0).toNat) = v.toNat := by
  have hb := fun i => getD_of_take_drop h (i := i)
  rw [← a.add_zero, hb 0 (by omega), a.add_zero, hb 1 (by omega), hb 2 (by omega), hb 3 (by omega)]
  exact le32_toNat v

/-- R251: the fields of the header in order, each at its offset. -/
theorem containerHeader_fields (l : ConfigRegs) (len : Nat) :
    let field := fun a n => ((containerHeader l len).drop a).take n
    field 0 4 = Config.tagRiff ∧ field 4 4 = le32 (BitVec.ofNat 32 (len + 36)) ∧
    field 8 8 = Config.tagWave ++ Config.tagFmt ∧ field 16 4 = le32 16 ∧ field 20 2 = le16 1 ∧
    field 22 2 = le16 l.nch ∧ field 24 4 = le32 l.rate ∧
    field 28 4 = le32 (BitVec.ofNat 32 (l.rate.toNat * l.nch.toNat * 2)) ∧
    field 32 2 = le16 (BitVec.ofNat 16 (l.nch.toNat * 2)) ∧ field 34 2 = le16 16 ∧ field 36 4 = Config.tagData ∧
    field 40 4 = le32 (BitVec.ofNat 32 len) := by
  simp [containerHeader, le16, le32, Config.tagRiff, Config.tagWave, Config.tagFmt, Config.tagData]

/-- Settles O44: each field's bytes, low byte first, make up its value. -/
theorem containerHeaderLayout : Obligations.ContainerHeaderLayout := by
  intro l len hd le2 le4
  obtain ⟨riff, size, wave, fmtSize, format, channels, rate, byteRate, frameSize, width, data, dataSize⟩ :=
    containerHeader_fields l len
  exact ⟨containerHeader_length l len, riff, (le32_field size).trans (BitVec.toNat_ofNat _ _), wave,
    le32_field fmtSize, le16_field format, le16_field channels, le32_field rate,
    (le32_field byteRate).trans (BitVec.toNat_ofNat _ _), (le16_field frameSize).trans (BitVec.toNat_ofNat _ _),
    le16_field width, data, (le32_field dataSize).trans (BitVec.toNat_ofNat _ _)⟩

/-- What a START that passes its checks writes (R250). -/
theorem State.beginRun_eq (s : State) :
    ((s.latchConfig.setRunState .running).appendPlaceholder).setSch .pull = { s with
      lat := s.latchConfig.lat, hid := ⟨0, 0, ⟨0, 0, 0⟩, 0⟩, runState := .running, sch := .pull
      sink := s.sink.append (containerHeader s.latchConfig.lat 0) } := by
  simp only [State.latchConfig, State.setLat, State.setHid, State.setRunState, State.appendPlaceholder, State.setSink,
    State.setSch, Position.zero, Config.placeholderLen]

/-- R250: a START that passes its checks is not refused and raises nothing. -/
theorem State.startCmd_begins {s : State} (hi : s.runState = .idle) (he : s.err.code = .none)
    (hcfg : s.badConfig = false) (hcodes : ∀ c < s.cfg.nch.toNat, isChannelCode (Cells.get 0 s.cfg.ch c) = true)
    (hseek : s.sinkSeekable = true) :
    s.startCmd = ((s.latchConfig.setRunState .running).appendPlaceholder).setSch .pull := by
  rcases s.startCmd_cases with ⟨hn, -⟩ | ⟨-, -, ⟨hb, -⟩ | ⟨-, ⟨c, hc, hbad, -⟩ | ⟨-, ⟨hs, -⟩ | ⟨-, h⟩⟩⟩⟩
  · exact absurd ⟨hi, he⟩ hn
  · exact absurd (hcfg.symm.trans hb) nofun
  · exact absurd (hbad.symm.trans (hcodes c hc)) nofun
  · exact absurd (hs.symm.trans hseek) nofun
  · exact h

/-- An append leaves the bytes that were there. -/
theorem Memory.readByte_append_old (m : Memory) (bs : List Byte) {a : Nat} (h : a < m.len) :
    (m.append bs).readByte a = m.readByte a := by
  rw [Memory.readByte_append, if_pos h]

/-- The header appended: 44 bytes more, what was there as it was, and the header after it. -/
theorem Memory.appendHeader (m : Memory) (l : ConfigRegs) (len : Nat) :
    (m.append (containerHeader l len)).len = m.len + 44 ∧
    (∀ a < m.len, (m.append (containerHeader l len)).readByte a = m.readByte a) ∧
    (m.append (containerHeader l len)).readBytes m.len 44 = some (containerHeader l len) := by
  have hlen := m.len_append (containerHeader l len)
  have hread := m.readBytes_append_new (containerHeader l len)
  rw [containerHeader_length] at hlen hread
  exact ⟨hlen, fun _ ha => m.readByte_append_old _ ha, hread⟩

/-- Settles O43: the step latches the configuration and appends the header with length 0. -/
theorem startLatchesConfiguration : Obligations.StartLatchesConfiguration := by
  intro s rest hi he hh hfps hpps hnch hmax hcodes hseek
  have hcfg : s.badConfig = false := by
    rw [Bool.eq_false_iff, ne_eq, s.badConfig_iff]
    rintro (h | h | h | h)
    exacts [hfps h, hpps h, hnch h, Nat.not_lt.2 hmax h]
  have hstart := State.startCmd_begins (s := s.setHost rest) hi he hcfg
    (fun c hc => (isChannelCode_iff _).2 (hcodes c hc)) hseek
  have hstep := step_of_command (c := .start) (by rw [hi]; nofun) hh
  rw [State.hostCmd, hstart, State.beginRun_eq] at hstep
  obtain ⟨hlen, hold, hheader⟩ := (s.setHost rest).sink.appendHeader (s.setHost rest).latchConfig.lat 0
  have hlat : ∀ c < s.cfg.nch.toNat, Cells.get 0 (s.setHost rest).latchConfig.lat.ch c = Cells.get 0 s.cfg.ch c :=
    fun c hc => (get_copyChannels _ _ _ _).trans (if_pos hc)
  generalize (s.setHost rest).sink.append _ = m at hstep hlen hold hheader
  exact ⟨_, hstep, rfl, rfl, rfl, rfl, rfl, rfl, hlat, rfl, hlen, hold, hheader, rfl⟩

/-- The patch at the start of a sink that is long enough: the 44 bytes written, and the others as they were. -/
theorem Memory.patchHeader {m : Memory} (h : 44 ≤ m.len) (l : ConfigRegs) (len : Nat) :
    (m.writeBytes 0 (containerHeader l len)).len = m.len ∧
    (m.writeBytes 0 (containerHeader l len)).readBytes 0 44 = some (containerHeader l len) ∧
    ∀ a, 44 ≤ a → (m.writeBytes 0 (containerHeader l len)).readByte a = m.readByte a := by
  have hlen := Memory.len_writeBytes (containerHeader l len) m 0 (Nat.zero_le _)
  have hread := Memory.readBytes_writeBytes_same m (Nat.zero_le _) (containerHeader l len)
  have hbyte := fun a => Memory.readByte_writeBytes (containerHeader l len) m 0 a (Nat.zero_le _)
  rw [containerHeader_length] at hlen hread
  refine ⟨by omega, hread, fun a ha => ?_⟩
  rw [hbyte, containerHeader_length, if_neg (by omega)]

/-- The end of a run writes the sink and `RUN_STATE` alone (R255, R256). -/
theorem State.endRun_eq (s : State) : s.endRun = { s with
    sink := s.sink.writeBytes 0 (containerHeader s.lat s.hid.dataLen), runState := .done } := by
  simp only [State.endRun, State.setSink, State.setRunState]

/-- Settles O45: the pull writes neither the sink nor what the header is made of, and the patch overwrites 44 bytes
that are there. -/
theorem endOfStreamPatchesHeader : Obligations.EndOfStreamPatchesHeader := by
  intro s t hr hs e hend hlen
  have hk := nextFrame_keeps s t e
  obtain ⟨hsize, hheader, hrest⟩ := Memory.patchHeader hlen s.lat s.hid.dataLen
  have hstep := step_pull hr hs e
  rw [State.afterPull_endOfStream hend, State.endRun_eq, hk.sink, hk.lat, hk.hid] at hstep
  generalize s.sink.writeBytes 0 _ = m at hsize hheader hrest hstep
  exact ⟨_, hstep, rfl, hsize, hheader, hrest, by rw [hk.lat, hk.hid]⟩

end Sys2Proof.Machine
end

section
/-! Proof of the statement on the emission of a sub-sample (R222, R224, R254): the bytes of the copies of its sample
frame, and what the run does next. -/

namespace Sys2Proof.Machine

/-- Of `n` copies of a list one after the other, copy `j` begins at `j` times the length. -/
theorem getElem?_flatten_replicate {α : Type} (l : List α) {n j k : Nat} (hj : j < n) (hk : k < l.length) :
    (List.replicate n l).flatten[j * l.length + k]? = l[k]? := by
  induction n generalizing j with
  | zero => omega
  | succ n ih =>
    rw [List.replicate_succ, List.flatten_cons]
    cases j with
    | zero => rw [Nat.zero_mul, Nat.zero_add, List.getElem?_append_left hk]
    | succ j =>
      rw [Nat.succ_mul, List.getElem?_append_right (by omega), ← ih (j := j) (by omega)]
      congr 1
      omega

/-- `n` sample frames appended to the sink (R254). -/
def Memory.appendFrames (m : Memory) (n nch : Nat) (sample : Cells (BitVec 16)) : Memory :=
  m.append (List.replicate n (sampleFrame nch sample)).flatten

theorem State.emitSampleFrames_appends (s : State) (n : Nat) : s.emitSampleFrames n =
    (s.setSink (s.sink.appendFrames n s.lat.nch.toNat s.wrk.sample)).setHid
      { s.hid with dataLen := s.hid.dataLen + n * (2 * s.lat.nch.toNat) } :=
  State.emitSampleFrames_eq n s

section Frames
variable (m : Memory) (n nch : Nat) (sample : Cells (BitVec 16))

theorem Memory.len_appendFrames : (m.appendFrames n nch sample).len = m.len + n * (2 * nch) := by
  rw [Memory.appendFrames, Memory.len_append, List.length_flatten, List.map_replicate, List.sum_replicate,
    sampleFrame_length, smul_eq_mul]

theorem Memory.readByte_appendFrames_old : ∀ a < m.len, (m.appendFrames n nch sample).readByte a = m.readByte a :=
  fun _ h => m.readByte_append_old _ h

/-- R254: the two bytes of channel `c` in copy `j` of the sample frame, low byte first. -/
theorem Memory.readByte_appendFrames_new : ∀ j < n, ∀ c < nch,
    (m.appendFrames n nch sample).readByte (m.len + j * (2 * nch) + 2 * c) = some (byteOf (Cells.get 0 sample c) 0) ∧
    (m.appendFrames n nch sample).readByte (m.len + j * (2 * nch) + 2 * c + 1) =
      some (byteOf (Cells.get 0 sample c) 1) := by
  intro j hj c hc
  have hbyte (k : Nat) (hk : k < 2 * nch) : (m.appendFrames n nch sample).readByte (m.len + j * (2 * nch) + k) =
      (sampleFrame nch sample)[k]? := by
    have hcopy := getElem?_flatten_replicate (sampleFrame nch sample) hj (k := k) (by rwa [sampleFrame_length])
    rw [sampleFrame_length] at hcopy
    rw [Memory.appendFrames, Memory.readByte_append, if_neg (by omega), ← hcopy, Nat.add_assoc,
      Nat.add_sub_cancel_left]
  obtain ⟨hlow, hhigh⟩ := sampleFrame_getElem nch sample c hc
  exact ⟨(hbyte _ (by omega)).trans hlow, (hbyte _ (by omega)).trans hhigh⟩

end Frames

/-- R221, R224: after an emission the run writes the last position, where the location has ended, its place, and the
working registers its place goes with. -/
theorem State.nextSubSample_eq (s : State) : s.nextSubSample = { s with
    hid := { s.hid with last := if s.wrk.subP.toNat < s.wrk.locK.toNat then s.hid.last else s.wrk.cur }
    sch := s.nextSubSample.sch, wrk := s.nextSubSample.wrk } := by
  unfold State.nextSubSample State.nextLocation
  by_cases hp : s.wrk.subP.toNat < s.wrk.locK.toNat
  · simp only [hp, if_true]
    rfl
  · simp only [hp, if_false]
    split <;> rfl

theorem State.nextSubSample_subSample {s : State} (h : s.wrk.subP.toNat < s.wrk.locK.toNat) :
    s.nextSubSample = (s.setWrk { s.wrk with subP := s.wrk.subP + 1 }).setSch .subSample := if_pos h

theorem State.nextSubSample_ends {s : State} (h : s.wrk.locK.toNat ≤ s.wrk.subP.toNat) :
    s.nextSubSample = s.endLocation.nextLocation := if_neg (Nat.not_lt.2 h)

/-- Settles O35: the emission is one append of the copies, and what follows it leaves the sink and `DATA_LEN`. -/
theorem emissionStep : Obligations.EmissionStep := by
  intro s hr hs hm
  have hstep := step_emission hr hs hm
  rw [State.finishSubSample_eq, State.emitSampleFrames_appends] at hstep
  have hlen := s.sink.len_appendFrames s.wrk.repN.toNat s.lat.nch.toNat s.wrk.sample
  have hold := s.sink.readByte_appendFrames_old s.wrk.repN.toNat s.lat.nch.toNat s.wrk.sample
  have hnew := s.sink.readByte_appendFrames_new s.wrk.repN.toNat s.lat.nch.toNat s.wrk.sample
  generalize s.sink.appendFrames _ _ _ = m at hstep hlen hold hnew
  generalize he : (s.setSink m).setHid _ = e at hstep
  refine ⟨_, hstep, ?_⟩
  rw [e.nextSubSample_eq]
  subst he
  refine ⟨hlen, hold, hnew, rfl, rfl, fun hp => ?_, fun hp hi => ?_, fun hp hi => ?_, rfl⟩
  · rw [State.nextSubSample_subSample (by exact hp)]
    exact ⟨rfl, rfl⟩
  · rw [State.nextSubSample_ends (by exact hp), State.nextLocation_of_lt (by exact hi)]
    exact ⟨rfl, rfl⟩
  · rw [State.nextSubSample_ends (by exact hp), State.nextLocation_of_le (by exact hi)]
    exact ⟨rfl, rfl⟩

end Sys2Proof.Machine
end

section
/-! Proof of the statement on the output of a frame (R191, R193, R196, R257): what a number of sub-samples adds to the
point phase and to `DATA_LEN`, composed over the loops of R222, R221 and R193. -/

namespace Sys2Proof.Machine

/-- No group has more units than there are, so a group of a 32-bit total fits its register. -/
theorem groupSize_le_total (T : Nat) {G : Nat} (hG : 0 < G) (i : Nat) : groupSize T G i ≤ T := by
  rcases Nat.eq_zero_or_pos (T % G) with h | h
  · rw [groupSize_of_dvd hG h]
    exact Nat.div_le_self T G
  · have hdiv := Nat.div_add_mod T G
    have hle := Nat.le_mul_of_pos_left (T / G) hG
    have := (groupSize_bounds (T := T) hG i).2
    omega

theorem toNat_groupSize (T : BitVec 32) {G : Nat} (hG : 0 < G) (i : Nat) :
    (BitVec.ofNat 32 (groupSize T.toNat G i)).toNat = groupSize T.toNat G i := by
  rw [BitVec.toNat_ofNat, Nat.mod_eq_of_lt (Nat.lt_of_le_of_lt (groupSize_le_total _ hG i) T.isLt)]

/-- R191 (d): the index may be taken modulo the number of groups. -/
theorem groupSize_mod_add (T G i j : Nat) : groupSize T G (i % G + j) = groupSize T G (i + j) := by
  have hperiod : Function.Periodic (groupSize T G) G := groupSize_add_groups T G
  rw [← hperiod.map_mod_nat, Nat.mod_add_mod, hperiod.map_mod_nat]

/-- The sample frames that hold the next `n` sub-samples of a run (R196). -/
def State.holdTotal (s : State) (n : Nat) : Nat :=
  ((List.range n).map fun j => groupSize s.lat.rate.toNat s.lat.pps.toNat (s.hid.pointPhase.toNat + j)).sum

/-- `t` is `s` after `n` sub-samples of a frame: the budget stays, the point phase is `n` further modulo PPS (R196),
and `DATA_LEN` has grown by the bytes of the sample frames that hold them (R254). -/
structure Generates (s : State) (n : Nat) (t : State) : Prop extends DrawKeeps s t where
  budget : t.wrk.budget = s.wrk.budget
  phase : t.hid.pointPhase.toNat = (s.hid.pointPhase.toNat + n) % s.lat.pps.toNat
  dataLen : t.hid.dataLen = s.hid.dataLen + 2 * s.lat.nch.toNat * s.holdTotal n

/-- A phase that is in its range (R45). -/
abbrev State.phaseOk (s : State) : Prop := s.hid.pointPhase.toNat < s.lat.pps.toNat

theorem Generates.phaseOk {s t : State} {n : Nat} (h : Generates s n t) (hs : s.phaseOk) : t.phaseOk := by
  rw [State.phaseOk, h.phase, h.lat]
  exact Nat.mod_lt _ (Nat.zero_lt_of_lt hs)

/-- What writes neither the budget, the point phase nor `DATA_LEN` generates nothing. -/
theorem Generates.nothing {s t : State} (hs : s.phaseOk) (h : DrawKeeps s t) (budget : t.wrk.budget = s.wrk.budget)
    (phase : t.hid.pointPhase = s.hid.pointPhase) (dataLen : t.hid.dataLen = s.hid.dataLen) : Generates s 0 t where
  toDrawKeeps := h
  budget := budget
  phase := by rw [phase, Nat.add_zero, Nat.mod_eq_of_lt hs]
  dataLen := dataLen

/-- Writes of other registers after the sub-samples leave what they generated. -/
theorem Generates.followedBy {s t u : State} {n : Nat} (h : Generates s n t) (k : DrawKeeps t u)
    (budget : u.wrk.budget = t.wrk.budget) (phase : u.hid.pointPhase = t.hid.pointPhase)
    (dataLen : u.hid.dataLen = t.hid.dataLen) : Generates s n u where
  toDrawKeeps := h.toDrawKeeps.trans k
  budget := budget.trans h.budget
  phase := by rw [phase, h.phase]
  dataLen := dataLen.trans h.dataLen

/-- The hold counts go on from the phase the first `n` sub-samples leave. -/
theorem Generates.holdTotal_add {s t : State} {n : Nat} (h : Generates s n t) (m : Nat) :
    s.holdTotal (n + m) = s.holdTotal n + t.holdTotal m := by
  simp only [State.holdTotal, List.range_add, List.map_append, List.map_map, List.sum_append, h.lat, h.phase,
    groupSize_mod_add, Function.comp_def, Nat.add_assoc]

theorem Generates.trans {s t u : State} {n m : Nat} (h : Generates s n t) (k : Generates t m u) :
    Generates s (n + m) u where
  toDrawKeeps := h.toDrawKeeps.trans k.toDrawKeeps
  budget := k.budget.trans h.budget
  phase := by rw [k.phase, h.phase, h.lat, Nat.mod_add_mod, Nat.add_assoc]
  dataLen := by rw [k.dataLen, h.dataLen, h.lat, h.holdTotal_add m, Nat.mul_add, Nat.add_assoc]

/-- R196, R222, R254: what a sub-sample does to the budget, the point phase and `DATA_LEN`. -/
theorem State.drawSubSample_output (s : State) (p : Nat) :
    (s.drawSubSample p).wrk.budget = s.wrk.budget ∧
    (s.drawSubSample p).hid.pointPhase = BitVec.ofNat 32 ((s.hid.pointPhase.toNat + 1) % s.lat.pps.toNat) ∧
    (s.drawSubSample p).hid.dataLen = s.hid.dataLen + (BitVec.ofNat 32
      (groupSize s.lat.rate.toNat s.lat.pps.toNat s.hid.pointPhase.toNat)).toNat * (2 * s.lat.nch.toNat) := by
  rw [State.drawSubSample_eq, State.emitSampleFrames_eq, State.fillSamples_eq]
  exact ⟨rfl, rfl, rfl⟩

/-- One sub-sample is held for the sample frames of its group. -/
theorem State.drawSubSample_generates {s : State} (hs : s.phaseOk) (p : Nat) : Generates s 1 (s.drawSubSample p) := by
  have hpps : 0 < s.lat.pps.toNat := Nat.zero_lt_of_lt hs
  obtain ⟨hbudget, hphase, hlen⟩ := s.drawSubSample_output p
  refine ⟨s.drawSubSample_draws p, hbudget, ?_, ?_⟩
  · rw [hphase, BitVec.toNat_ofNat, Nat.mod_eq_of_lt (Nat.lt_trans (Nat.mod_lt _ hpps) s.lat.pps.isLt)]
  · rw [hlen, toNat_groupSize _ hpps, Nat.mul_comm, State.holdTotal, List.range_one, List.map_singleton,
      List.sum_singleton, Nat.add_zero]

/-- R221: the sub-samples of a location. -/
theorem State.drawSubSamples_generates {s : State} (hs : s.phaseOk) : ∀ p, Generates s p (s.drawSubSamples p)
  | 0 => .nothing hs (.refl s) rfl rfl rfl
  | p + 1 => by
    have ih := State.drawSubSamples_generates hs p
    exact ih.trans (State.drawSubSample_generates (ih.phaseOk hs) (p + 1))

/-- R193: the share of location `i`. -/
theorem State.allocLocation_share (s : State) {i : Nat} (hi : i < s.fb.count.toNat) :
    (s.withLocIdx i).allocLocation.wrk.locK.toNat = groupSize s.wrk.budget.toNat s.fb.count.toNat i := by
  have hlocK : (s.withLocIdx i).allocLocation.wrk.locK = BitVec.ofNat 32
      (groupSize s.wrk.budget.toNat s.fb.count.toNat (BitVec.ofNat 16 i).toNat) := rfl
  rw [hlocK, toNat_groupSize _ (Nat.zero_lt_of_lt hi), BitVec.toNat_ofNat,
    Nat.mod_eq_of_lt (Nat.lt_trans hi s.fb.count.isLt)]

/-- R193, R194: location `i` generates its share of the budget. -/
theorem State.drawLocation_generates {s : State} (hs : s.phaseOk) {i : Nat} (hi : i < s.fb.count.toNat) :
    Generates s (groupSize s.wrk.budget.toNat s.fb.count.toNat i) (s.drawLocation i) := by
  have halloc : Generates s 0 (s.withLocIdx i).allocLocation := .nothing hs (s.allocLocation_draws i) rfl rfl rfl
  rw [← s.allocLocation_share hi]
  by_cases hk : (s.withLocIdx i).allocLocation.wrk.locK = 0
  · rw [State.drawLocation_skip hk, hk]
    exact halloc
  · rw [State.drawLocation_draw hk]
    have hbegin : Generates s 0 (s.withLocIdx i).allocLocation.beginLocation :=
      .nothing hs (halloc.toDrawKeeps.trans (State.setWrk_draws _ _)) rfl rfl rfl
    have hdraw := hbegin.trans
      (State.drawSubSamples_generates (hbegin.phaseOk hs) (s.withLocIdx i).allocLocation.wrk.locK.toNat)
    rw [Nat.zero_add] at hdraw
    exact hdraw.followedBy (State.setHid_draws _ _) rfl rfl rfl

/-- R193: the first `n` locations generate their shares. -/
theorem State.drawLocations_generates {s : State} (hs : s.phaseOk) : ∀ n ≤ s.fb.count.toNat,
    Generates s ((List.range n).map (groupSize s.wrk.budget.toNat s.fb.count.toNat)).sum (s.drawLocations n)
  | 0, _ => .nothing hs (.refl s) rfl rfl rfl
  | n + 1, hn => by
    have ih := State.drawLocations_generates hs n (by omega)
    have hlast := State.drawLocation_generates (ih.phaseOk hs) (i := n) (by rw [ih.fb]; omega)
    rw [ih.budget, ih.fb] at hlast
    rw [List.sum_range_succ]
    exact ih.trans hlast

/-- R257: the shares of the locations sum to the budget. -/
theorem State.drawFrame_generates {s : State} (hs : s.phaseOk) (hc : s.fb.count ≠ 0) :
    Generates s s.wrk.budget.toNat s.drawFrame := by
  have h := State.drawLocations_generates hs _ (Nat.le_refl _)
  rwa [sum_groupSize (BitVec.toNat_pos_of_ne_zero hc)] at h

/-- Settles O46: a frame generates its budget of sub-samples. -/
theorem frameOutputSize : Obligations.FrameOutputSize := by
  intro s _ hc hs
  have h := State.drawFrame_generates hs hc
  exact ⟨h.phase, h.dataLen⟩

end Sys2Proof.Machine
end

section
/-! Proofs of the statements on the errors (R48, R138, R290 to R293): fault entry as one record update, the checks of
START, and what a step leaves of a recorded error. -/

namespace Sys2Proof.Machine

/-! Fault entry. -/

theorem ErrCode.ofDecoder_iff (code : ErrCode) :
    code.ofDecoder = true ↔ code = .corruptFormat ∨ code = .unexpectedEof ∨ code = .unsupportedFormat := by
  cases code <;> decide

/-- Settles O27: the three decoder errors are those that `ofDecoder` names, and each register has one writer. -/
theorem faultEntry : Obligations.FaultEntry := by
  intro s code stage info pos inStart
  simp only [← ErrCode.ofDecoder_iff, State.raise]
  split <;> split <;> rfl

/-- A first error that is not the decoder's, raised inside START: the decoder is left as it is. -/
theorem State.raise_inStart {s : State} (he : s.err.code = .none) {code : ErrCode} (h : code.ofDecoder = false)
    (stage : ErrStage) (info : Byte) :
    s.raise code stage info 0 true = { s with runState := .faulted, err := ⟨code, stage, info, 0⟩ } := by
  have hcode := mt code.ofDecoder_iff.2 (Bool.eq_false_iff.1 h)
  rw [faultEntry, State.errAfter, if_pos he, if_neg hcode, if_pos (.inr rfl)]

/-! The checks of START (R293). -/

theorem State.firstBadChannel_eq_none {s : State}
    (h : ∀ c < s.cfg.nch.toNat, isChannelCode (Cells.get 0 s.cfg.ch c) = true) : s.firstBadChannel = none := by
  rcases s.firstBadChannel_cases with ⟨hn, -⟩ | ⟨c, hc, -, hbad, -⟩
  · exact hn
  · exact absurd (hbad.symm.trans (h c hc)) nofun

/-- R284: the lowest bad channel is the one reported. -/
theorem State.firstBadChannel_eq_some {s : State} {c : Nat} (hc : c < s.cfg.nch.toNat)
    (hbad : isChannelCode (Cells.get 0 s.cfg.ch c) = false)
    (hfirst : ∀ d < c, isChannelCode (Cells.get 0 s.cfg.ch d) = true) :
    s.firstBadChannel = some (Cells.get 0 s.cfg.ch c) := by
  rcases s.firstBadChannel_cases with ⟨-, hall⟩ | ⟨d, -, hd, hdbad, hdfirst⟩
  · exact absurd (hbad.symm.trans (hall c hc)) nofun
  · rcases Nat.lt_trichotomy d c with hlt | rfl | hlt
    · exact absurd (hdbad.symm.trans (hfirst d hlt)) nofun
    · exact hd
    · exact absurd (hbad.symm.trans (hdfirst c hlt)) nofun

section Checks
variable {s : State} (hi : s.runState = .idle) (he : s.err.code = .none)
include hi he

theorem State.startCmd_badConfig (h : s.badConfig = true) : s.startCmd = s.raise .badConfig .config 0 0 true := by
  rw [State.startCmd, if_pos ⟨hi, he⟩, if_pos h]

theorem State.startCmd_invalidSignal (hcfg : ¬ s.badConfig = true) {c : Byte} (h : s.firstBadChannel = some c) :
    s.startCmd = s.raise .invalidSignal .config c 0 true := by
  rw [State.startCmd, if_pos ⟨hi, he⟩, if_neg hcfg, h]

theorem State.startCmd_nonSeekableSink (hcfg : ¬ s.badConfig = true) (h : s.firstBadChannel = none)
    (hseek : s.sinkSeekable = false) : s.startCmd = s.raise .nonSeekableSink .sink 0 0 true := by
  rw [State.startCmd, if_pos ⟨hi, he⟩, if_neg hcfg, h, hseek]
  rfl

/-- The step of a START that raises one of its errors. -/
theorem step_start_raises {rest : List HostCmd} (hh : s.host = .start :: rest) {code : ErrCode}
    (hcode : code.ofDecoder = false) {stage : ErrStage} {info : Byte}
    (h : (s.setHost rest).startCmd = (s.setHost rest).raise code stage info 0 true) :
    step s = .next { s with host := rest, runState := .faulted, err := ⟨code, stage, info, 0⟩ } := by
  rw [step_of_command (by rw [hi]; nofun) hh, State.hostCmd, h, State.raise_inStart (s := s.setHost rest) he hcode]
  rfl

end Checks

/-- Settles O42: a check is reached when those before it hold, and each raises its error before any write. -/
theorem startChecksInOrder : Obligations.StartChecksInOrder := by
  intro s rest hi he hh fails bad ch known
  have hbad : (s.setHost rest).badConfig = true ↔ bad := (s.setHost rest).badConfig_iff
  have hknown : ∀ c, isChannelCode (ch c) = true ↔ known c := fun c => isChannelCode_iff (ch c)
  refine ⟨fun hb => ?_, fun hb c hc hunknown hfirst => ?_, fun hb hall hseek => ?_⟩
  · exact step_start_raises hi he hh rfl (State.startCmd_badConfig (s := s.setHost rest) hi he (hbad.2 hb))
  · have hcode : isChannelCode (ch c) = false := by rwa [← Bool.not_eq_true, hknown]
    have hlowest := State.firstBadChannel_eq_some (s := s.setHost rest) hc hcode fun d hd => (hknown d).2 (hfirst d hd)
    exact step_start_raises hi he hh rfl
      (State.startCmd_invalidSignal (s := s.setHost rest) hi he (mt hbad.1 hb) hlowest)
  · have hnone := State.firstBadChannel_eq_none (s := s.setHost rest) fun c hc => (hknown c).2 (hall c hc)
    exact step_start_raises hi he hh rfl
      (State.startCmd_nonSeekableSink (s := s.setHost rest) hi he (mt hbad.1 hb) hnone hseek)

/-! What a step leaves of a recorded error (R48, R138, R292). -/

/-- A block that is idle with an error recorded met it in a pull. -/
theorem Inv.decoder_faulted_of_idle {s : State} (h : Inv s) (he : s.err.code ≠ .none) (hi : s.runState = .idle) :
    s.dec.state = .faulted := by
  rcases h.errors.fatal he with hf | ⟨-, hd⟩
  · cases hi.symm.trans hf
  · exact hd

/-- With an error recorded START is refused, a PULL is refused or finds a faulted decoder, and the other commands but
RESET write the configuration. -/
theorem Inv.step_recorded_error {s t : State} (h : Inv s) (he : s.err.code ≠ .none) (hnr : ¬ s.resetNext)
    (e : step s = .next t) :
    ∃ host cfg result, t = { s with host := host, cfg := cfg, dec := { s.dec with result := result } } := by
  have hr : s.runState ≠ .running := fun hr => he (h.running_no_error hr)
  rcases step_idle_cases hr e with ⟨-, rfl⟩ | ⟨c, rest, hc,
    ⟨att, rfl, -⟩ | ⟨-, hi, hn⟩ | ⟨-, -, rfl⟩ | ⟨-, rfl⟩ | ⟨-, -, -, cfg, rfl, -⟩⟩
  · exact ⟨_, _, _, rfl⟩
  · exact absurd ⟨att, rest, hr, hc⟩ hnr
  · rw [nextFrame_faulted (s := s.setHost rest) (h.decoder_faulted_of_idle he hi)] at hn
    cases hn
    exact ⟨rest, s.cfg, .fault, rfl⟩
  · exact ⟨rest, s.cfg, s.dec.result, rfl⟩
  · rw [State.startCmd_refused (s := s.setHost rest) fun ha => he ha.2]
    exact ⟨rest, s.cfg, s.dec.result, rfl⟩
  · exact ⟨rest, cfg, s.dec.result, rfl⟩

/-- Settles O28: the host's list, the configuration and `RESULT` are all that such a step writes. -/
theorem onlyResetLeavesFault : Obligations.OnlyResetLeavesFault := by
  intro s t h he hnr e
  obtain ⟨host, cfg, result, rfl⟩ := h.step_recorded_error he hnr e
  exact ⟨rfl, rfl, rfl, rfl, rfl, rfl, rfl, rfl⟩

end Sys2Proof.Machine
end

section
/-! Proofs of the statements on reset (R320): its values, the command that restores them, and the invariant. -/

namespace Sys2Proof.Machine

/-- Settles O13: each value is a field of the reset state, and the palette table it starts with is empty. -/
theorem resetStateAsSpec : Obligations.ResetStateAsSpec :=
  ⟨rfl, rfl, rfl, Cells.get_nil false, rfl, rfl, rfl, rfl, rfl, rfl, rfl, rfl, rfl, rfl, rfl, rfl, rfl, rfl, rfl, rfl,
    rfl, rfl, rfl⟩

/-- R322: an attached stream is read from the start, whole. -/
theorem Memory.ofBytes_holds (bs : List Byte) :
    (Memory.ofBytes bs).readBytes 0 bs.length = some bs ∧ (Memory.ofBytes bs).len = bs.length :=
  ⟨Memory.readBytes_append_new ⟨0, []⟩ bs, by rw [Memory.ofBytes, Memory.len_append, Nat.zero_add]⟩

/-- Settles O12: RESET writes the values of the reset state, but for what the platform and the host supply. -/
theorem resetCommandRestores : Obligations.ResetCommandRestores := by
  intro s att rest ⟨hr, hc⟩
  obtain ⟨state, inPos, result, valid, fps, rate, pps, nch, ch0, ch1, ch2, invert, run, hid, err, sink, -⟩ :=
    resetStateAsSpec
  have hstep := (hostCommandsAccepted s rest hr).1 att hc
  refine ⟨_, hstep, state, inPos, result, valid, fps, rate, pps, nch, ch0, ch1, ch2, invert, run, hid, err, sink, rfl,
    rfl, fun hatt => ?_, fun a hatt => ?_⟩
  · subst hatt
    exact ⟨rfl, rfl⟩
  · subst hatt
    obtain ⟨hread, hlen⟩ := Memory.ofBytes_holds a.stream
    exact ⟨rfl, Memory.wf_ofBytes a.stream, hread, hlen⟩

/-- Every store is empty after reset but for the three channel registers of R40. -/
theorem State.reset_storesOk : StoresOk State.reset where
  maxCh := by decide
  inp := State.reset_memory_wf.1
  sink := State.reset_memory_wf.2
  palValid := ⟨Cells.wf_nil _, nofun⟩
  palLen := ⟨Cells.wf_nil _, nofun⟩
  palRam := ⟨Cells.wf_nil _, nofun⟩
  fbPt := ⟨Cells.wf_nil _, nofun⟩
  cfgCh := by decide
  latCh := ⟨Cells.wf_nil _, nofun⟩
  sample := ⟨Cells.wf_nil _, nofun⟩

/-- Settles O47: nothing is loaded, no error is recorded, every position is 0, and no run is in progress. -/
theorem resetMeetsInvariant : Obligations.ResetMeetsInvariant where
  stores := State.reset_storesOk
  decoder := ⟨Nat.le_refl _, rfl, nofun, nofun⟩
  errors := .of_no_error ⟨rfl, rfl, rfl⟩ rfl nofun nofun
  positions := by
    have hzero : positionOk Position.zero := by decide
    exact ⟨hzero, hzero, hzero⟩
  config := nofun
  place := nofun
  sink := (State.sinkOk_idle rfl).2 ⟨rfl, rfl⟩

end Sys2Proof.Machine
end

section
/-! Proof of the statement that every run ends (R340): each step of a run ends it or takes one of the turns that are
to come. -/

namespace Sys2Proof.Machine

/-- The turns to come, outer loop first: the bytes not yet pulled (R192), the locations (R193), the sub-samples
(R221) and the channels (R222). -/
abbrev Turns := Nat ×ₗ Nat ×ₗ Nat ×ₗ Nat

/-- The turns to come with the cursor where it stands. -/
def State.turns (s : State) (locations subSamples channels : Nat) : Turns :=
  toLex (s.inp.len - s.dec.inPos, toLex (locations, toLex (subSamples, channels)))

/-- The locations from the one that is drawn on. -/
def State.locationsLeft (s : State) : Nat := s.fb.count.toNat - s.wrk.locIdx.toNat

/-- The turns to come at each place of a run. A location that is not yet allocated may get any number of sub-samples
a register holds, and a sub-sample stands before its first channel and its emission. -/
def State.toGo (s : State) : Turns :=
  match s.sch with
  | .pull => s.turns 0 0 0
  | .location => s.turns s.locationsLeft (2 ^ 32) 0
  | .subSample => s.turns s.locationsLeft (s.wrk.locK.toNat - s.wrk.subP.toNat) (s.lat.nch.toNat + 1)
  | .channels => s.turns s.locationsLeft (s.wrk.locK.toNat - s.wrk.subP.toNat) (s.lat.nch.toNat - s.muxCh)

section Places
variable {s : State}

theorem State.toGo_pull (h : s.sch = .pull) : s.toGo = s.turns 0 0 0 := by
  rw [State.toGo, h]

theorem State.toGo_location (h : s.sch = .location) : s.toGo = s.turns s.locationsLeft (2 ^ 32) 0 := by
  rw [State.toGo, h]

theorem State.toGo_subSample (h : s.sch = .subSample) : s.toGo =
    s.turns s.locationsLeft (s.wrk.locK.toNat - s.wrk.subP.toNat) (s.lat.nch.toNat + 1) := by
  rw [State.toGo, h]

theorem State.toGo_channels (h : s.sch = .channels) : s.toGo =
    s.turns s.locationsLeft (s.wrk.locK.toNat - s.wrk.subP.toNat) (s.lat.nch.toNat - s.muxCh) := by
  rw [State.toGo, h]

end Places

/-! A turn of a loop is one less to come, whatever the loops inside it then have. -/

section Turns
variable {s t : State}

theorem State.turns_lt_of_bytes (h : t.inp.len - t.dec.inPos < s.inp.len - s.dec.inPos) (l k c l' k' c' : Nat) :
    t.turns l' k' c' < s.turns l k c :=
  Prod.Lex.toLex_lt_toLex.2 (.inl h)

variable (hdec : t.dec = s.dec) (hinp : t.inp = s.inp)
include hdec hinp

theorem State.turns_eq (l k c : Nat) : t.turns l k c = s.turns l k c := by
  rw [State.turns, hdec, hinp, State.turns]

theorem State.turns_lt_of_locations {l l' : Nat} (h : l' < l) (k c k' c' : Nat) :
    t.turns l' k' c' < s.turns l k c := by
  rw [State.turns_eq hdec hinp]
  exact Prod.Lex.toLex_lt_toLex.2 (.inr ⟨rfl, Prod.Lex.toLex_lt_toLex.2 (.inl h)⟩)

theorem State.turns_lt_of_subSamples (l : Nat) {k k' : Nat} (h : k' < k) (c c' : Nat) :
    t.turns l k' c' < s.turns l k c := by
  rw [State.turns_eq hdec hinp]
  exact Prod.Lex.toLex_lt_toLex.2 (.inr ⟨rfl, Prod.Lex.toLex_lt_toLex.2 (.inr ⟨rfl,
    Prod.Lex.toLex_lt_toLex.2 (.inl h)⟩)⟩)

theorem State.turns_lt_of_channels (l k : Nat) {c c' : Nat} (h : c' < c) : t.turns l k c' < s.turns l k c := by
  rw [State.turns_eq hdec hinp]
  exact Prod.Lex.toLex_lt_toLex.2 (.inr ⟨rfl, Prod.Lex.toLex_lt_toLex.2 (.inr ⟨rfl,
    Prod.Lex.toLex_lt_toLex.2 (.inr ⟨rfl, h⟩)⟩)⟩)

end Turns

/-! The steps of a run. -/

/-- The next location or the next pull, from a state that draws a location. -/
theorem State.nextLocation_toGo_lt {s : State} (hlt : s.wrk.locIdx.toNat < s.fb.count.toNat) (k c : Nat) :
    s.nextLocation.toGo < s.turns s.locationsLeft k c := by
  obtain ⟨hk, -⟩ := s.nextLocation_keeps
  rcases Nat.lt_or_ge (s.wrk.locIdx.toNat + 1) s.fb.count.toNat with hnext | hlast
  · have hidx : (s.wrk.locIdx + 1).toNat = s.wrk.locIdx.toNat + 1 := by
      have := s.fb.count.isLt
      bv_omega
    have hleft : s.nextLocation.locationsLeft < s.locationsLeft := by
      rw [State.nextLocation_of_lt hnext]
      show s.fb.count.toNat - (s.wrk.locIdx + 1).toNat < s.fb.count.toNat - s.wrk.locIdx.toNat
      omega
    rw [State.toGo_location (by rw [State.nextLocation_of_lt hnext]; rfl)]
    exact State.turns_lt_of_locations hk.dec hk.inp hleft _ _ _ _
  · rw [State.toGo_pull (by rw [State.nextLocation_of_le hlast]; rfl)]
    exact State.turns_lt_of_locations hk.dec hk.inp (Nat.sub_pos_of_lt hlt) _ _ _ _

/-- A location that gets no sub-sample is passed, and one that gets some has its first before it. -/
theorem State.startLocation_toGo_lt {s : State} (hs : s.sch = .location)
    (hlt : s.wrk.locIdx.toNat < s.fb.count.toNat) : s.startLocation.toGo < s.toGo := by
  rw [State.toGo_location hs]
  by_cases hk : s.allocLocation.wrk.locK = 0
  · rw [State.startLocation_skip hk]
    exact State.nextLocation_toGo_lt (s := s.allocLocation) hlt _ _
  · rw [State.startLocation_begin hk, State.toGo_subSample rfl]
    exact State.turns_lt_of_subSamples rfl rfl _ (Nat.lt_of_le_of_lt (Nat.sub_le _ _) (BitVec.isLt _)) _ _

theorem State.startSubSample_toGo_lt {s : State} (hs : s.sch = .subSample) : s.startSubSample.toGo < s.toGo := by
  obtain ⟨hk, -⟩ := s.startSubSample_keeps
  have hleft : s.startSubSample.locationsLeft = s.locationsLeft := by
    rw [State.locationsLeft, hk.fb, s.startSubSample_wrk, State.locationsLeft]
  rw [State.toGo_subSample hs, State.toGo_channels (s := s.startSubSample) rfl, hleft, hk.lat, s.startSubSample_wrk]
  exact State.turns_lt_of_channels hk.dec hk.inp _ _ (Nat.lt_succ_of_le (Nat.sub_le _ _))

theorem State.putSample_toGo_lt {s : State} (hs : s.sch = .channels) (hm : s.muxCh < s.lat.nch.toNat)
    (v : BitVec 16) : (s.putSample v).toGo < s.toGo := by
  rw [State.toGo_channels hs, State.toGo_channels (s := s.putSample v) hs]
  exact State.turns_lt_of_channels rfl rfl _ _ (Nat.sub_succ_lt_self _ _ hm)

/-- An emission is followed by the next sub-sample of the location, or it was the location's last. -/
theorem State.nextSubSample_toGo_lt {s : State} (hs : s.sch = .channels)
    (hlt : s.wrk.locIdx.toNat < s.fb.count.toNat) : s.nextSubSample.toGo < s.toGo := by
  rw [State.toGo_channels hs]
  rcases Nat.lt_or_ge s.wrk.subP.toNat s.wrk.locK.toNat with hp | hp
  · have hnext : (s.wrk.subP + 1).toNat = s.wrk.subP.toNat + 1 := by
      have := s.wrk.locK.isLt
      bv_omega
    rw [State.nextSubSample_subSample hp, State.toGo_subSample rfl]
    refine State.turns_lt_of_subSamples rfl rfl _ ?_ _ _
    show s.wrk.locK.toNat - (s.wrk.subP + 1).toNat < s.wrk.locK.toNat - s.wrk.subP.toNat
    omega
  · rw [State.nextSubSample_ends hp]
    exact State.nextLocation_toGo_lt (s := s.endLocation) hlt _ _

theorem State.finishSubSample_toGo_lt {s : State} (hs : s.sch = .channels)
    (hlt : s.wrk.locIdx.toNat < s.fb.count.toNat) : s.finishSubSample.toGo < s.toGo := by
  have hkeep : (s.emitSampleFrames s.wrk.repN.toNat).toGo = s.toGo := by rw [State.emitSampleFrames_eq]; rfl
  rw [← hkeep, State.finishSubSample_eq]
  rw [State.emitSampleFrames_eq]
  exact State.nextSubSample_toGo_lt hs hlt

/-- DONE or FAULTED. -/
abbrev State.ended (s : State) : Prop := s.runState = .done ∨ s.runState = .faulted

/-- A run goes on with fewer turns to come. -/
abbrev State.goesOnTo (s t : State) : Prop := t.runState = .running ∧ t.toGo < s.toGo

/-- R340: a pull of a run ends it or takes at least 32 bytes. -/
theorem Inv.pull_progress {s t : State} (h : Inv s) (hr : s.runState = .running) (hs : s.sch = .pull)
    (e : s.nextFrame = .next t) : t.afterPull.ended ∨ s.goesOnTo t.afterPull := by
  rcases nextFrame_of_run h hr e with ⟨res, -⟩ | ⟨res, -⟩ | ⟨hblock, run, took⟩
  · rw [State.afterPull_fault res]
    exact .inl (.inr rfl)
  · rw [State.afterPull_endOfStream res]
    exact .inl (.inl rfl)
  · have hgrows := nextFrame_cursorGrows h.decoder.cursor e
    have hbytes : t.inp.len - t.dec.inPos < s.inp.len - s.dec.inPos := by
      have hin := hgrows.inside
      rw [hgrows.stream] at hin ⊢
      omega
    rw [State.goesOnTo, State.toGo_pull hs]
    rcases hblock with res | res
    · rw [State.afterPull_frame res, State.toGo_location rfl]
      exact .inr ⟨run, State.turns_lt_of_bytes hbytes _ _ _ _ _ _⟩
    · rw [State.afterPull_palette res, State.toGo_pull rfl]
      exact .inr ⟨run, State.turns_lt_of_bytes hbytes _ _ _ _ _ _⟩

/-- A step of a run ends it or takes a turn of one of its loops. -/
theorem step_running_progress {s t : State} (h : Inv s) (hr : s.runState = .running) (e : step s = .next t) :
    t.ended ∨ s.goesOnTo t := by
  rcases step_running_cases hr e with
    ⟨hs, u, hu, rfl⟩ | ⟨hs, rfl⟩ | ⟨hs, rfl⟩ | ⟨hs, hm, i, hd, hi⟩ | ⟨hs, -, rfl⟩
  · exact h.pull_progress hr hs hu
  · obtain ⟨-, hrun, -⟩ := s.startLocation_keeps
    obtain ⟨-, hlt⟩ := h.frame_of_location hr hs
    exact .inr ⟨hrun.trans hr, State.startLocation_toGo_lt hs hlt⟩
  · obtain ⟨-, hrun, -⟩ := s.startSubSample_keeps
    exact .inr ⟨hrun.trans hr, State.startSubSample_toGo_lt hs⟩
  · obtain ⟨v, hv⟩ := exec_channel hd s
    cases hv.symm.trans hi
    obtain ⟨-, hrun, -⟩ := s.putSample_keeps v
    exact .inr ⟨hrun.trans hr, State.putSample_toGo_lt hs hm v⟩
  · obtain ⟨-, hrun⟩ := s.finishSubSample_keeps
    obtain ⟨-, hlt, -⟩ := (State.placeOk_channels hs).1 (h.place hr)
    exact .inr ⟨hrun.trans hr, State.finishSubSample_toGo_lt hs hlt⟩

/-- By induction on the turns to come. -/
theorem reaches_ended {s : State} (h : Inv s) (hr : s.runState = .running) : ∃ t, Reaches s t ∧ t.ended := by
  induction hgo : s.toGo using WellFoundedLT.induction generalizing s with
  | ind x ih =>
    obtain ⟨u, hu⟩ := noStepStops s h
    rcases step_running_progress h hr hu with hend | ⟨hrun, hlt⟩
    · exact ⟨u, .single hu, hend⟩
    · obtain ⟨t, ht, hend⟩ := ih u.toGo (hgo ▸ hlt) (step_running_inv h hr hu) hrun rfl
      exact ⟨t, .head hu ht, hend⟩

/-- Settles O51: no step of a run stops, and each ends the run or leaves fewer turns to come. -/
theorem runTerminates : Obligations.RunTerminates := by
  intro s h hr
  obtain ⟨t, ⟨n, hn⟩, hend⟩ := reaches_ended h hr
  exact ⟨n, t, hn, hend⟩

end Sys2Proof.Machine
end
